-- ==== Sys2Proof/Word.lean ====
section
/-! DEFINITION. The word types of the block (00_scope.md R7; 20_memory.md R78). -/

namespace Sys2Proof

/-- One command word, 64 bits (30_encoding.md R90). -/
abbrev CmdWord := BitVec 64

/-- One word of the REG read port, and one record of the BIN stream, 32 bits (20_memory.md R70, R75). -/
abbrev RegWord := BitVec 32

/-- One entry of the coefficient buffer: 16-bit two's complement (10_state.md R36). -/
abbrev Coef := BitVec 16

/-- A cost in Q15 bits, unsigned 32-bit (00_scope.md R7). -/
abbrev Cost := BitVec 32

end Sys2Proof
end

