-- ==== Sys2Proof/Syntax.lean ====
section
/-! DEFINITION. The commands: one constructor per row of spec/opcode_table.json, with the fields of
30_encoding.md R94. A one-bit field is a Bool, an unsigned field a Nat (`zext`), a signed field an Int
(`sext`), since the rules compute on unbounded integers (00_scope.md R9; 30_encoding.md R94). -/

namespace Sys2Proof

inductive Instr where
  | resetEntropy (st : Nat) (qp : Int) (useRec : Bool)
  | determineInitIndex (st : Nat) (qp : Int)
  | updateContextTables (st : Nat) (qp : Int) (useRec fin : Bool)
  | endSegment
  | setConfig (sbhEn ampEn lmEn disInter4x4 : Bool) (qpBdOffsetY maxLog2Tb : Nat)
  | store (slot : Nat)
  | load (slot : Nat)
  | loadPartial (slot group : Nat)
  | snapWrite (slot idx ps : Nat) (mps : Bool)
  | splitFlag (v atMax avL avA : Bool) (dL dA dC : Nat)
  | skipFlag (v avL skL avA skA : Bool)
  | mergeFlag (v : Bool)
  | mergeIdx (idx nc : Nat)
  | partSize (part : Nat) (intra atMin : Bool) (log2Cb : Nat) (ampOk : Bool)
  | predMode (v : Bool)
  | intraDirLuma (mode c0 c1 c2 : Nat)
  | intraDirChroma (code : Nat)
  | interDir (dir ctd : Nat) (small : Bool)
  | refIdx (ri nr : Nat)
  | mvd (mvx mvy : Int)
  | deltaQp (dqp : Int)
  | qtCbf (v pl : Bool) (ci : Nat)
  | qtRootCbf (v : Bool)
  | transSubdiv (v : Bool) (ci : Nat)
  | termBin (v : Bool)
  | alfFlag (v : Bool)
  | alfUvlc (val : Nat)
  | alfSvlc (val : Int)
  | saoFlag (v : Bool)
  | saoUvlc (val : Nat)
  | saoSvlc (val : Int)
  | coefWrite (idx : Nat) (val : Int)
  | codeCoeff (l2 : Nat) (pl : Bool) (scan : Nat) (ll : Bool)
  | estRates (l2 : Nat) (pl : Bool)
  deriving DecidableEq, Repr

end Sys2Proof
end

