-- ==== Sys2Proof/WellFormed.lean ====
section
/-! DEFINITION. Well-formed commands: every field fits the width 30_encoding.md R94 gives it. The narrower
accepted ranges of R94 are no part of this: a field that fits its bits but is out of its accepted range is an
encodable command whose own rule raises the fault. -/

namespace Sys2Proof

/-- An unsigned field of `n` bits. -/
def fitsU (n v : Nat) : Bool := decide (v < 2 ^ n)

/-- A signed field of `n` bits, two's complement. -/
def fitsS (n : Nat) (v : Int) : Bool := decide (-(2 ^ (n - 1)) ≤ v ∧ v < 2 ^ (n - 1))

/-- Every field fits its bits (30_encoding.md R94). -/
def Instr.wf : Instr → Bool
  | .resetEntropy st qp _ => fitsU 2 st && fitsS 8 qp
  | .determineInitIndex st qp => fitsU 2 st && fitsS 8 qp
  | .updateContextTables st qp _ _ => fitsU 2 st && fitsS 8 qp
  | .endSegment => true
  | .setConfig _ _ _ _ qpBdOffsetY maxLog2Tb => fitsU 6 qpBdOffsetY && fitsU 3 maxLog2Tb
  | .store slot => fitsU 8 slot
  | .load slot => fitsU 8 slot
  | .loadPartial slot group => fitsU 8 slot && fitsU 5 group
  | .snapWrite slot idx ps _ => fitsU 8 slot && fitsU 9 idx && fitsU 6 ps
  | .splitFlag _ _ _ _ dL dA dC => fitsU 3 dL && fitsU 3 dA && fitsU 3 dC
  | .skipFlag _ _ _ _ _ => true
  | .mergeFlag _ => true
  | .mergeIdx idx nc => fitsU 3 idx && fitsU 3 nc
  | .partSize part _ _ log2Cb _ => fitsU 3 part && fitsU 3 log2Cb
  | .predMode _ => true
  | .intraDirLuma mode c0 c1 c2 => fitsU 6 mode && fitsU 6 c0 && fitsU 6 c1 && fitsU 6 c2
  | .intraDirChroma code => fitsU 3 code
  | .interDir dir ctd _ => fitsU 2 dir && fitsU 2 ctd
  | .refIdx ri nr => fitsU 4 ri && fitsU 5 nr
  | .mvd mvx mvy => fitsS 16 mvx && fitsS 16 mvy
  | .deltaQp dqp => fitsS 8 dqp
  | .qtCbf _ _ ci => fitsU 3 ci
  | .qtRootCbf _ => true
  | .transSubdiv _ ci => fitsU 2 ci
  | .termBin _ => true
  | .alfFlag _ => true
  | .alfUvlc val => fitsU 8 val
  | .alfSvlc val => fitsS 9 val
  | .saoFlag _ => true
  | .saoUvlc val => fitsU 8 val
  | .saoSvlc val => fitsS 9 val
  | .coefWrite idx val => fitsU 10 idx && fitsS 16 val
  | .codeCoeff l2 _ scan _ => fitsU 3 l2 && fitsU 2 scan
  | .estRates l2 _ => fitsU 3 l2

end Sys2Proof
end

