-- ==== Sys2Proof/Decode.lean ====
section
/-! DEFINITION. Decoding a command word, total on any bits and on any bytes (30_encoding.md R90 to R95), and
the encoder (R98). A word is read as the natural number of its bits, bit 0 the least significant (00_scope.md R9). -/

namespace Sys2Proof

/-- Why a word is no command. Both are faults the block takes (60_exceptions.md R330); `truncated` is for byte
strings shorter than one command word, which no port of the block can deliver (20_memory.md R78). -/
inductive DecodeError where
  /-- OP is not in the opcode map (30_encoding.md R92) -/
  | illegalOpcode
  /-- a bit outside the command's mask is 1 (30_encoding.md R91) -/
  | reservedBits
  /-- fewer than eight bytes -/
  | truncated
  deriving DecidableEq, Repr

/-- The field of `width` bits of `n` that starts at bit `lo`: `zext` of the bits. -/
def bitsAt (n lo width : Nat) : Nat := n / 2 ^ lo % 2 ^ width

/-- `sext` of the `width` low bits held in `v` (00_scope.md R9). -/
def signExtend (width v : Nat) : Int := if v < 2 ^ (width - 1) then (v : Int) else (v : Int) - 2 ^ width

/-- A signed field (30_encoding.md R94). -/
def signedAt (n lo width : Nat) : Int := signExtend width (bitsAt n lo width)

/-- A one-bit field. -/
def flagAt (n lo : Nat) : Bool := bitsAt n lo 1 == 1

/-- The opcode byte, bits 63:56 (30_encoding.md R90). -/
def opcodeByte (w : CmdWord) : BitVec 8 := BitVec.ofNat 8 (w.toNat / 2 ^ 56)

/-- The payload bits 55:0 that `mask`, the mask of defined bits, does not name (30_encoding.md R91, R95). -/
def reservedBitsOf (mask n : Nat) : Nat := n &&& (mask ^^^ (2 ^ 56 - 1))

/-- One row of the opcode map: the command `i`, unless a reserved bit of the word is set. -/
def row (mask n : Nat) (i : Instr) : Except DecodeError Instr :=
  if reservedBitsOf mask n = 0 then .ok i else .error .reservedBits

/-- Decoding of one command word: opcodes of 30_encoding.md R93, fields of R94, masks of R95. -/
def decode (w : CmdWord) : Except DecodeError Instr :=
  let n := w.toNat
  match n / 2 ^ 56 with
  | 0x01 => row 0x0001FF03 n (.resetEntropy (bitsAt n 0 2) (signedAt n 8 8) (flagAt n 16))
  | 0x02 => row 0x0000FF03 n (.determineInitIndex (bitsAt n 0 2) (signedAt n 8 8))
  | 0x03 => row 0x0003FF03 n (.updateContextTables (bitsAt n 0 2) (signedAt n 8 8) (flagAt n 16) (flagAt n 17))
  | 0x04 => row 0x00000000 n .endSegment
  | 0x08 => row 0x00073F0F n
      (.setConfig (flagAt n 0) (flagAt n 1) (flagAt n 2) (flagAt n 3) (bitsAt n 8 6) (bitsAt n 16 3))
  | 0x10 => row 0x000000FF n (.store (bitsAt n 0 8))
  | 0x11 => row 0x000000FF n (.load (bitsAt n 0 8))
  | 0x12 => row 0x00001FFF n (.loadPartial (bitsAt n 0 8) (bitsAt n 8 5))
  | 0x13 => row 0x0000013F01FF00FF n (.snapWrite (bitsAt n 0 8) (bitsAt n 16 9) (bitsAt n 32 6) (flagAt n 40))
  | 0x20 => row 0x00001FFF n
      (.splitFlag (flagAt n 0) (flagAt n 1) (flagAt n 2) (flagAt n 3) (bitsAt n 4 3) (bitsAt n 7 3) (bitsAt n 10 3))
  | 0x21 => row 0x0000001F n (.skipFlag (flagAt n 0) (flagAt n 1) (flagAt n 2) (flagAt n 3) (flagAt n 4))
  | 0x22 => row 0x00000001 n (.mergeFlag (flagAt n 0))
  | 0x23 => row 0x00000077 n (.mergeIdx (bitsAt n 0 3) (bitsAt n 4 3))
  | 0x24 => row 0x000001FF n (.partSize (bitsAt n 0 3) (flagAt n 3) (flagAt n 4) (bitsAt n 5 3) (flagAt n 8))
  | 0x25 => row 0x00000001 n (.predMode (flagAt n 0))
  | 0x26 => row 0x3F3F3F3F n (.intraDirLuma (bitsAt n 0 6) (bitsAt n 8 6) (bitsAt n 16 6) (bitsAt n 24 6))
  | 0x27 => row 0x00000007 n (.intraDirChroma (bitsAt n 0 3))
  | 0x28 => row 0x0000001F n (.interDir (bitsAt n 0 2) (bitsAt n 2 2) (flagAt n 4))
  | 0x29 => row 0x000001FF n (.refIdx (bitsAt n 0 4) (bitsAt n 4 5))
  | 0x2A => row 0xFFFFFFFF n (.mvd (signedAt n 0 16) (signedAt n 16 16))
  | 0x2B => row 0x000000FF n (.deltaQp (signedAt n 0 8))
  | 0x2C => row 0x0000001F n (.qtCbf (flagAt n 0) (flagAt n 1) (bitsAt n 2 3))
  | 0x2D => row 0x00000001 n (.qtRootCbf (flagAt n 0))
  | 0x2E => row 0x00000007 n (.transSubdiv (flagAt n 0) (bitsAt n 1 2))
  | 0x2F => row 0x00000001 n (.termBin (flagAt n 0))
  | 0x30 => row 0x00000001 n (.alfFlag (flagAt n 0))
  | 0x31 => row 0x000000FF n (.alfUvlc (bitsAt n 0 8))
  | 0x32 => row 0x000001FF n (.alfSvlc (signedAt n 0 9))
  | 0x33 => row 0x00000001 n (.saoFlag (flagAt n 0))
  | 0x34 => row 0x000000FF n (.saoUvlc (bitsAt n 0 8))
  | 0x35 => row 0x000001FF n (.saoSvlc (signedAt n 0 9))
  | 0x40 => row 0xFFFF03FF n (.coefWrite (bitsAt n 0 10) (signedAt n 16 16))
  | 0x41 => row 0x0000007F n (.codeCoeff (bitsAt n 0 3) (flagAt n 3) (bitsAt n 4 2) (flagAt n 6))
  | 0x50 => row 0x0000000F n (.estRates (bitsAt n 0 3) (flagAt n 3))
  | _ => .error .illegalOpcode

/-- Eight bytes as one command word, byte 0 in bits 7:0 (20_memory.md R78). -/
def wordOfBytes (b0 b1 b2 b3 b4 b5 b6 b7 : BitVec 8) : CmdWord :=
  b7 ++ b6 ++ b5 ++ b4 ++ b3 ++ b2 ++ b1 ++ b0

/-- The `n` low bytes of `v`, byte 0 first: byte k holds bits 8k+7:8k (20_memory.md R78). -/
def littleEndian (n v : Nat) : List (BitVec 8) := (List.range n).map fun k => BitVec.ofNat 8 (v / 2 ^ (8 * k))

/-- The eight bytes of a command word, byte 0 first (20_memory.md R78). -/
def bytesOfWord (w : CmdWord) : List (BitVec 8) := littleEndian 8 w.toNat

/-- Decoding of a byte transport: one command and the bytes after it (20_memory.md R78; 30_encoding.md R90). -/
def decodeBytes : List (BitVec 8) → Except DecodeError (Instr × List (BitVec 8))
  | b0 :: b1 :: b2 :: b3 :: b4 :: b5 :: b6 :: b7 :: rest =>
    match decode (wordOfBytes b0 b1 b2 b3 b4 b5 b6 b7) with
    | .ok i => .ok (i, rest)
    | .error e => .error e
  | _ => .error .truncated

/-- The instruction the decoder reads from a table row's bits, laid out as bytes (20_memory.md R78). -/
def decodeTableWord (nbits w : Nat) : Option Instr :=
  match decodeBytes (bytesOfWord (BitVec.ofNat 64 (w % 2 ^ nbits))) with
  | .ok (i, _) => some i
  | .error _ => none

/-- The opcode of a command (30_encoding.md R93). -/
def opcodeOf : Instr → Nat
  | .resetEntropy _ _ _ => 0x01
  | .determineInitIndex _ _ => 0x02
  | .updateContextTables _ _ _ _ => 0x03
  | .endSegment => 0x04
  | .setConfig _ _ _ _ _ _ => 0x08
  | .store _ => 0x10
  | .load _ => 0x11
  | .loadPartial _ _ => 0x12
  | .snapWrite _ _ _ _ => 0x13
  | .splitFlag _ _ _ _ _ _ _ => 0x20
  | .skipFlag _ _ _ _ _ => 0x21
  | .mergeFlag _ => 0x22
  | .mergeIdx _ _ => 0x23
  | .partSize _ _ _ _ _ => 0x24
  | .predMode _ => 0x25
  | .intraDirLuma _ _ _ _ => 0x26
  | .intraDirChroma _ => 0x27
  | .interDir _ _ _ => 0x28
  | .refIdx _ _ => 0x29
  | .mvd _ _ => 0x2A
  | .deltaQp _ => 0x2B
  | .qtCbf _ _ _ => 0x2C
  | .qtRootCbf _ => 0x2D
  | .transSubdiv _ _ => 0x2E
  | .termBin _ => 0x2F
  | .alfFlag _ => 0x30
  | .alfUvlc _ => 0x31
  | .alfSvlc _ => 0x32
  | .saoFlag _ => 0x33
  | .saoUvlc _ => 0x34
  | .saoSvlc _ => 0x35
  | .coefWrite _ _ => 0x40
  | .codeCoeff _ _ _ _ => 0x41
  | .estRates _ _ => 0x50

/-- A field value placed at bit `lo`, masked to its width (30_encoding.md R98). -/
def placeU (v lo width : Nat) : Nat := v % 2 ^ width * 2 ^ lo

/-- A signed field value in two's complement placed at bit `lo` (30_encoding.md R98). -/
def placeS (v : Int) (lo width : Nat) : Nat := (v % 2 ^ width).toNat * 2 ^ lo

/-- A one-bit field placed at bit `lo`. -/
def placeB (v : Bool) (lo : Nat) : Nat := v.toNat * 2 ^ lo

/-- The operand bits 55:0 of a command (30_encoding.md R94). -/
def payloadOf : Instr → Nat
  | .resetEntropy st qp useRec => placeU st 0 2 + placeS qp 8 8 + placeB useRec 16
  | .determineInitIndex st qp => placeU st 0 2 + placeS qp 8 8
  | .updateContextTables st qp useRec fin => placeU st 0 2 + placeS qp 8 8 + placeB useRec 16 + placeB fin 17
  | .endSegment => 0
  | .setConfig sbhEn ampEn lmEn dis qpBd maxTb =>
    placeB sbhEn 0 + placeB ampEn 1 + placeB lmEn 2 + placeB dis 3 + placeU qpBd 8 6 + placeU maxTb 16 3
  | .store slot => placeU slot 0 8
  | .load slot => placeU slot 0 8
  | .loadPartial slot group => placeU slot 0 8 + placeU group 8 5
  | .snapWrite slot idx ps mps => placeU slot 0 8 + placeU idx 16 9 + placeU ps 32 6 + placeB mps 40
  | .splitFlag v atMax avL avA dL dA dC =>
    placeB v 0 + placeB atMax 1 + placeB avL 2 + placeB avA 3 + placeU dL 4 3 + placeU dA 7 3 + placeU dC 10 3
  | .skipFlag v avL skL avA skA => placeB v 0 + placeB avL 1 + placeB skL 2 + placeB avA 3 + placeB skA 4
  | .mergeFlag v => placeB v 0
  | .mergeIdx idx nc => placeU idx 0 3 + placeU nc 4 3
  | .partSize part intra atMin log2Cb ampOk =>
    placeU part 0 3 + placeB intra 3 + placeB atMin 4 + placeU log2Cb 5 3 + placeB ampOk 8
  | .predMode v => placeB v 0
  | .intraDirLuma mode c0 c1 c2 => placeU mode 0 6 + placeU c0 8 6 + placeU c1 16 6 + placeU c2 24 6
  | .intraDirChroma code => placeU code 0 3
  | .interDir dir ctd small => placeU dir 0 2 + placeU ctd 2 2 + placeB small 4
  | .refIdx ri nr => placeU ri 0 4 + placeU nr 4 5
  | .mvd mvx mvy => placeS mvx 0 16 + placeS mvy 16 16
  | .deltaQp dqp => placeS dqp 0 8
  | .qtCbf v pl ci => placeB v 0 + placeB pl 1 + placeU ci 2 3
  | .qtRootCbf v => placeB v 0
  | .transSubdiv v ci => placeB v 0 + placeU ci 1 2
  | .termBin v => placeB v 0
  | .alfFlag v => placeB v 0
  | .alfUvlc val => placeU val 0 8
  | .alfSvlc val => placeS val 0 9
  | .saoFlag v => placeB v 0
  | .saoUvlc val => placeU val 0 8
  | .saoSvlc val => placeS val 0 9
  | .coefWrite idx val => placeU idx 0 10 + placeS val 16 16
  | .codeCoeff l2 pl scan ll => placeU l2 0 3 + placeB pl 3 + placeU scan 4 2 + placeB ll 6
  | .estRates l2 pl => placeU l2 0 3 + placeB pl 3

/-- The word of a command (30_encoding.md R98). -/
def encode (i : Instr) : CmdWord := BitVec.ofNat 64 (opcodeOf i * 2 ^ 56 + payloadOf i)

/-- The shorthand `COEF_BLOCK L2=n, v0, v1, ...` of 30_encoding.md R97: one COEF_WRITE per value, in order of
the index j = 0 .. 4^n - 1. R97 does not say what a list of another length than 4^n stands for: values past 4^n are
dropped, and a short list gives as many COEF_WRITEs as it has values [DESIGN CHOICE, safe: log 20]. -/
def coefBlock (n : Nat) (vs : List Int) : List Instr :=
  ((vs.take (4 ^ n)).zipIdx).map fun p => .coefWrite p.2 p.1

end Sys2Proof
end

