-- ==== Sys2Proof/Config.lean ====
section
/-! DEFINITION. What an implementation fixes (00_scope.md R6, R8) and the free values of the model. -/

namespace Sys2Proof

/-- When the Golomb-Rice parameter resets (00_scope.md R6; 43_residual.md R278; 90_conflicts.md C2). -/
inductive RiceReset where
  | perSubset
  | perBlock
  deriving DecidableEq, Repr

/-- The scans that swap the last-position coordinates (00_scope.md R6; 43_residual.md R265; 90_conflicts.md C4). -/
inductive LastSwap where
  | vertOnly
  | horAndVert
  deriving DecidableEq, Repr

/-- The table DETERMINE_INIT_INDEX keeps on equal cost (00_scope.md R6). The spec names only the default,
the slice's own table; `other` is the other candidate [DEDUCED, safe: log 14]. -/
inductive InitTie where
  | own
  | other
  deriving DecidableEq, Repr

/-- One value of every parameter of 00_scope.md R6: a configuration of the block in the sense of R8. -/
structure Build where
  /-- NUM_CTX, the contexts of the bank; the groups of 10_state.md R31 take the first 166 [DEDUCED, safe in the default
  build: log 12] -/
  numCtx : Nat
  /-- bank capacity MAX_NUM_CTX -/
  maxNumCtx : Nat
  /-- NUM_SNAPSHOTS -/
  numSnapshots : Nat
  /-- SBH_THRESHOLD -/
  sbhThreshold : Nat
  riceReset : RiceReset
  /-- GR_MAX_BINS -/
  grMaxBins : Nat
  /-- RICE_MAX -/
  riceMax : Nat
  /-- GT1_MAX_PER_GROUP -/
  gt1MaxPerGroup : Nat
  /-- MAX_LOG2_TB, the reset value of CONFIG.MAX_LOG2_TB [DEDUCED, safe: log 13] -/
  maxLog2Tb : Nat
  /-- INIT_VALUE[t][i] -/
  initValue : List (List (BitVec 8))
  /-- PROB_LPS_Q16[s] -/
  probLpsQ16 : List Nat
  /-- EB[s] = (EB[s][0], EB[s][1]): the cost of the MPS and of the LPS -/
  eb : List (Nat × Nat)
  initTie : InitTie
  lastSwap : LastSwap
  deriving DecidableEq, Repr

/-- The OPEN parameter INIT_VALUE[t][i] of the build that comes out of `State.reset` (00_scope.md R6;
91_not_in_source.md N3): a free value, no number is chosen [DESIGN CHOICE, safe: log 4]. -/
opaque Config.initValue : Nat → Nat → BitVec 8

/-- What a REG read of CTX[i] gives while BANK_VALID = 0 (93_implementation_defined.md U1): the seven defined
bits of the word, any value, from the number of commands taken and `i` [DESIGN CHOICE, safe: log 7]. -/
opaque Config.unspecifiedCtx : Nat → Nat → BitVec 7

/-- What a REG read of an estimator word gives before the first EST_RATES (93_implementation_defined.md U3):
any value, from the number of commands taken and the address [DESIGN CHOICE, safe: log 7]. -/
opaque Config.unspecifiedEst : Nat → Nat → BitVec 32

/-- The 27 named groups of the context bank, in the order of 10_state.md R31. -/
inductive Group where
  | splitFlag | skipFlag | mergeFlag | mergeIdx | partSize | predMode | intraLuma | intraChroma | interDir
  | refIdx | mvd | deltaQp | qtCbf | qtRootCbf | transSubdiv | sigGroup | sig | lastX | lastY | gt1 | gt2
  | alfFlag | alfUvlc | alfSvlc | saoFlag | saoUvlc | saoSvlc
  deriving DecidableEq, Repr

end Sys2Proof
end

