-- ==== Sys2Proof/Machine/Groups.lean ====
section
/-! DEFINITION. The layout of the context bank (10_state.md R31): sizes, bases and order of the 27 groups. -/

namespace Sys2Proof

/-- The groups in the order of 10_state.md R31: entry `g` is group `g`. -/
def groupOrder : List Group :=
  [.splitFlag, .skipFlag, .mergeFlag, .mergeIdx, .partSize, .predMode, .intraLuma, .intraChroma, .interDir]
  ++ [.refIdx, .mvd, .deltaQp, .qtCbf, .qtRootCbf, .transSubdiv, .sigGroup, .sig, .lastX, .lastY]
  ++ [.gt1, .gt2, .alfFlag, .alfUvlc, .alfSvlc, .saoFlag, .saoUvlc, .saoSvlc]

/-- SIZE of a group (10_state.md R31). -/
def Group.size : Group → Nat
  | .splitFlag => 3 | .skipFlag => 3 | .mergeFlag => 1 | .mergeIdx => 1 | .partSize => 4 | .predMode => 1
  | .intraLuma => 1 | .intraChroma => 2 | .interDir => 5 | .refIdx => 2 | .mvd => 2 | .deltaQp => 3
  | .qtCbf => 10 | .qtRootCbf => 1 | .transSubdiv => 3 | .sigGroup => 4 | .sig => 42 | .lastX => 18
  | .lastY => 18 | .gt1 => 24 | .gt2 => 6 | .alfFlag => 1 | .alfUvlc => 2 | .alfSvlc => 3 | .saoFlag => 1
  | .saoUvlc => 2 | .saoSvlc => 3

/-- BASE of a group (10_state.md R31). -/
def Group.base : Group → Nat
  | .splitFlag => 0 | .skipFlag => 3 | .mergeFlag => 6 | .mergeIdx => 7 | .partSize => 8 | .predMode => 12
  | .intraLuma => 13 | .intraChroma => 14 | .interDir => 16 | .refIdx => 21 | .mvd => 23 | .deltaQp => 25
  | .qtCbf => 28 | .qtRootCbf => 38 | .transSubdiv => 39 | .sigGroup => 42 | .sig => 46 | .lastX => 88
  | .lastY => 106 | .gt1 => 124 | .gt2 => 148 | .alfFlag => 154 | .alfUvlc => 155 | .alfSvlc => 157
  | .saoFlag => 160 | .saoUvlc => 161 | .saoSvlc => 163

/-- The sum of the group sizes (10_state.md R31; 40_context_bank.md R147): the default of NUM_CTX. -/
def numGroupCtx : Nat := 166

end Sys2Proof
end

