-- ==== Sys2Proof/Machine/Build.lean ====
section
/-! DEFINITION. The default build: the parameter defaults of 00_scope.md R6 and the tables of
40_context_bank.md R139 and R140. -/

namespace Sys2Proof

/-- PROB_LPS_Q16[s] for s = 0..62 (40_context_bank.md R139). -/
def defaultProbLps : List Nat :=
  [32768, 31104, 29524, 28025, 26602, 25251, 23969, 22751]
  ++ [21596, 20499, 19458, 18470, 17532, 16642, 15797, 14995]
  ++ [14233, 13510, 12824, 12173, 11555, 10968, 10411, 9882]
  ++ [9380, 8904, 8452, 8023, 7615, 7229, 6861, 6513]
  ++ [6182, 5868, 5570, 5287, 5019, 4764, 4522, 4292]
  ++ [4074, 3868, 3671, 3485, 3308, 3140, 2980, 2829]
  ++ [2685, 2549, 2420, 2297, 2180, 2069, 1964, 1864]
  ++ [1770, 1680, 1595, 1514, 1437, 1364, 1295]

/-- EB[s][0], the cost of the MPS, for s = 0..62 (40_context_bank.md R140). -/
def defaultEbMps : List Nat :=
  [32768, 30426, 28306, 26377, 24617, 23005, 21523, 20159]
  ++ [18899, 17734, 16653, 15650, 14717, 13849, 13038, 12282]
  ++ [11575, 10914, 10294, 9714, 9169, 8658, 8178, 7727]
  ++ [7303, 6903, 6527, 6173, 5840, 5525, 5228, 4948]
  ++ [4684, 4435, 4199, 3977, 3767, 3568, 3380, 3202]
  ++ [3034, 2876, 2725, 2583, 2448, 2321, 2200, 2086]
  ++ [1978, 1875, 1778, 1686, 1599, 1517, 1439, 1364]
  ++ [1294, 1228, 1164, 1105, 1048, 994, 943]

/-- EB[s][1], the cost of the LPS, for s = 0..62 (40_context_bank.md R140). -/
def defaultEbLps : List Nat :=
  [32768, 35232, 37696, 40159, 42623, 45087, 47551, 50015]
  ++ [52479, 54942, 57406, 59870, 62334, 64798, 67262, 69725]
  ++ [72189, 74653, 77117, 79581, 82044, 84508, 86972, 89436]
  ++ [91900, 94364, 96827, 99291, 101755, 104219, 106683, 109147]
  ++ [111610, 114074, 116538, 119002, 121466, 123929, 126393, 128857]
  ++ [131321, 133785, 136249, 138712, 141176, 143640, 146104, 148568]
  ++ [151032, 153495, 155959, 158423, 160887, 163351, 165814, 168278]
  ++ [170742, 173206, 175670, 178134, 180597, 183061, 185525]

/-- The default build with the INIT_VALUE table `iv` (00_scope.md R6). -/
def Build.ofInitValue (iv : Nat → Nat → BitVec 8) : Build where
  numCtx := numGroupCtx
  maxNumCtx := 512
  numSnapshots := 16
  sbhThreshold := 4
  riceReset := .perSubset
  grMaxBins := 32
  riceMax := 4
  gt1MaxPerGroup := 8
  maxLog2Tb := 5
  initValue := (List.range 3).map fun t => (List.range numGroupCtx).map fun i => iv t i
  probLpsQ16 := defaultProbLps
  eb := defaultEbMps.zip defaultEbLps
  initTie := .own
  lastSwap := .vertOnly

/-- The default build. Its INIT_VALUE is the OPEN parameter: a free value (00_scope.md R6; log 4). -/
def Build.default : Build := Build.ofInitValue Config.initValue

/-- A build inside the ranges of 00_scope.md R6 (NUM_CTX at most 256, NUM_SNAPSHOTS 1..32, MAX_LOG2_TB 2..5) whose bank
holds the groups of 10_state.md R31 and whose tables have their full length. -/
def Build.legal (b : Build) : Bool :=
  decide (numGroupCtx ≤ b.numCtx ∧ b.numCtx ≤ 256)
  && decide (1 ≤ b.numSnapshots ∧ b.numSnapshots ≤ 32 ∧ 2 ≤ b.maxLog2Tb ∧ b.maxLog2Tb ≤ 5)
  && decide (b.initValue.length = 3) && b.initValue.all (fun t => decide (t.length = b.numCtx))
  && decide (b.probLpsQ16.length = 63) && decide (b.eb.length = 63)

/-- INIT_VALUE[t][i] of a build (40_context_bank.md R131). -/
def Build.initValueAt (b : Build) (t i : Nat) : BitVec 8 := (b.initValue.getD t []).getD i 0

end Sys2Proof
end

