-- ==== Sys2Proof/Machine/State.lean ====
section
/-! DEFINITION. The state of the block (10_state.md), as plain data, and its reset value (R47; 70_reset_and_hazards.md
R360 to R363). -/

namespace Sys2Proof.Machine

open Sys2Proof

/-- The fault causes of 60_exceptions.md R330, in the order of their codes. -/
inductive Cause where
  /-- 0x00: never raised; the reset value -/
  | none
  /-- 0x01: OP is not in the opcode map -/
  | illegalOpcode
  /-- 0x02: a reserved bit of the command word is 1 -/
  | reservedBits
  /-- 0x03: the bank is not valid where the command needs it -/
  | notInitialised
  /-- 0x04: one field outside its accepted range -/
  | valueRange
  /-- 0x05: fields legal one by one, illegal together or with CONFIG -/
  | badCombination
  /-- 0x06: a Golomb-Rice code word longer than GR_MAX_BINS -/
  | binCount
  /-- 0x07: slot out of range or not valid, or GROUP > 26 -/
  | badSlot
  /-- 0x08: block size, plane or scan not accepted -/
  | badGeometry
  /-- 0x09: slice type 3 -/
  | badSliceType
  /-- 0x0A: a hidden sign does not match the parity of its sub-block -/
  | sbhParity
  /-- 0x0B: NUM_CTX > MAX_NUM_CTX, at hardware reset -/
  | capacity
  deriving DecidableEq, Repr

/-- One context: pStateIdx (6 bits, 0..62) and valMps (10_state.md R32). -/
structure Ctx where
  pStateIdx : BitVec 6
  valMps : Bool
  deriving DecidableEq, Repr

/-- One snapshot slot: SNAP_VALID[k] and a full copy of the bank (10_state.md R35). -/
structure Slot where
  valid : Bool
  ctx : List Ctx
  deriving DecidableEq, Repr

/-- The coefficient buffer COEF (10_state.md R36; 20_memory.md R70): the entries that differ from the reset
content 0, indexes strictly rising (log 11). -/
abbrev Memory := List (Nat × Coef)

/-- CONFIG (10_state.md R37); its reserved bits read as 0 and are not stored. -/
structure ConfigReg where
  sbhEn : Bool
  ampEn : Bool
  lmEn : Bool
  disInter4x4 : Bool
  qpBdOffsetY : BitVec 6
  maxLog2Tb : BitVec 3
  deriving DecidableEq, Repr

/-- SLICE (10_state.md R38). -/
structure SliceReg where
  sliceType : BitVec 2
  qp : BitVec 8
  initType : BitVec 2
  deriving DecidableEq, Repr

/-- FAULT (10_state.md R41). -/
structure FaultReg where
  cause : Cause
  opcode : BitVec 8
  deriving DecidableEq, Repr

/-- The estimator tables (10_state.md R43; 20_memory.md R72). A pair is (cost of a 0, cost of a 1). -/
structure EstTables where
  cbf : List (Cost × Cost)
  rootCbf : List (Cost × Cost)
  sigGroup : List (Cost × Cost)
  sig : List (Cost × Cost)
  gt1 : List (Cost × Cost)
  gt2 : List (Cost × Cost)
  lastX : List Cost
  lastY : List Cost
  deriving DecidableEq, Repr

/-- One bin and the coder it goes through: a regular bin in context `i`, a bypass bin, a terminating bin
(40_context_bank.md R134, R136). -/
inductive Bin where
  | reg (i : Nat) (b : Bool)
  | ep (b : Bool)
  | trm (b : Bool)
  deriving DecidableEq, Repr

/-- One event of the BIN stream (20_memory.md R75). -/
inductive BinEvent where
  | start
  | finish
  | reg (bin : Bool) (ctxIdx : BitVec 9) (pStateIdx : BitVec 6) (valMps : Bool)
  | ep (bin : Bool)
  | trm (bin : Bool)
  | copyTo (slot : BitVec 8)
  | copyFrom (slot : BitVec 8)
  deriving DecidableEq, Repr

/-- What the host sends the block: a command word, or a hardware reset (20_memory.md R74; 70_reset_and_hazards.md R360). -/
inductive HostInput where
  | command (w : CmdWord)
  | hardwareReset
  deriving DecidableEq, Repr

structure State where
  /-- the constants the block was built with (00_scope.md R6, R8; log 3) -/
  build : Build
  /-- the command port: what the host has sent and the block has not yet taken, oldest first (log 1) -/
  pending : List HostInput
  /-- CTX[0..NUM_CTX-1] (10_state.md R31) -/
  ctx : List Ctx
  /-- SNAP and SNAP_VALID (10_state.md R35) -/
  snap : List Slot
  /-- COEF[0..1023] (10_state.md R36) -/
  coef : Memory
  /-- CONFIG (10_state.md R37) -/
  config : ConfigReg
  /-- SLICE (10_state.md R38) -/
  slice : SliceReg
  /-- INIT_CHOICE.TABLE (10_state.md R39) -/
  initTable : BitVec 2
  /-- INIT_COST_P (10_state.md R40) -/
  initCostP : Cost
  /-- INIT_COST_B (10_state.md R40) -/
  initCostB : Cost
  /-- FAULT (10_state.md R41) -/
  fault : FaultReg
  /-- CMDCNT (10_state.md R42) -/
  cmdcnt : BitVec 32
  /-- EST_* (10_state.md R43) -/
  est : EstTables
  /-- the model's own: an EST_RATES has committed since reset (log 6) -/
  estComputed : Bool
  /-- STATUS.BANK_VALID (10_state.md R45) -/
  bankValid : Bool
  /-- STATUS.FAULTED -/
  faulted : Bool
  /-- STATUS.FAULT_STICKY -/
  faultSticky : Bool
  /-- STATUS.EST_VALID -/
  estValid : Bool
  /-- STATUS.INIT_CHOICE_VALID, of which INIT_CHOICE.VALID is the mirror (10_state.md R39) -/
  initChoiceValid : Bool
  /-- the BIN stream: every event emitted, oldest first (20_memory.md R75; log 8) -/
  bin : List BinEvent
  /-- the completion bit of every command taken, oldest first (60_exceptions.md R337; log 9) -/
  completions : List Bool
  deriving DecidableEq, Repr

/-- What stops the machine. The block never halts itself (70_reset_and_hazards.md R373), and a fault of the spec is
a state the machine goes on from (60_exceptions.md R331, R332), so there is no such reason: the type has no
constructor, and nobody raises one [DEDUCED, safe: log 18]. -/
inductive Fault where
  deriving DecidableEq, Repr

/-- Why the model gives a command no meaning. -/
inductive Refusal where
  /-- raised by an arm of `exec` whose command has no meaning yet; safe: the model stops where the block goes on.
  No arm raises it now. -/
  | notModelled (mnemonic : String)
  deriving DecidableEq, Repr

/-- The outcome of one command. -/
abbrev Out := Host.Outcome State Fault Refusal

/-- The context a register of the bank holds at reset, where the spec says UNSPECIFIED
[DESIGN CHOICE, unsafe: log 5]. -/
def Ctx.atReset : Ctx := ⟨0, false⟩

/-- The estimator tables at reset, where the spec says UNSPECIFIED [DESIGN CHOICE, unsafe: log 6]. -/
def EstTables.atReset : EstTables where
  cbf := List.replicate 10 (0, 0)
  rootCbf := List.replicate 1 (0, 0)
  sigGroup := List.replicate 4 (0, 0)
  sig := List.replicate 42 (0, 0)
  gt1 := List.replicate 24 (0, 0)
  gt2 := List.replicate 6 (0, 0)
  lastX := List.replicate 10 0
  lastY := List.replicate 10 0

/-- The state right after a hardware reset of the build `b` (10_state.md R47), the capacity check of
70_reset_and_hazards.md R363 included. -/
def State.resetOf (b : Build) : State where
  build := b
  pending := []
  ctx := List.replicate b.numCtx Ctx.atReset
  snap := List.replicate b.numSnapshots ⟨false, List.replicate b.numCtx Ctx.atReset⟩
  coef := []
  config := ⟨false, false, false, false, 0, BitVec.ofNat 3 b.maxLog2Tb⟩
  slice := ⟨0, 0, 0⟩
  initTable := 0
  initCostP := 0
  initCostB := 0
  fault := if b.maxNumCtx < b.numCtx then ⟨.capacity, 0⟩ else ⟨.none, 0⟩
  cmdcnt := 0
  est := EstTables.atReset
  estComputed := false
  bankValid := false
  faulted := decide (b.maxNumCtx < b.numCtx)
  faultSticky := decide (b.maxNumCtx < b.numCtx)
  estValid := false
  initChoiceValid := false
  bin := []
  completions := []

/-- The state right after a hardware reset of the default build. -/
def State.reset : State := State.resetOf Build.default

end Sys2Proof.Machine
end

