-- ==== Sys2Proof/Machine/Flags.lean ====
section
/-! DEFINITION. The flags and the register words (10_state.md R37 to R45): how a command that codes bins moves
EST_VALID, and how each register reads as a 32-bit word. Reserved bits read as 0 (93_implementation_defined.md U8). -/

namespace Sys2Proof.Machine

open Sys2Proof

/-- The code of a cause (60_exceptions.md R330). -/
def Cause.code : Cause → BitVec 8
  | .none => 0x00
  | .illegalOpcode => 0x01
  | .reservedBits => 0x02
  | .notInitialised => 0x03
  | .valueRange => 0x04
  | .badCombination => 0x05
  | .binCount => 0x06
  | .badSlot => 0x07
  | .badGeometry => 0x08
  | .badSliceType => 0x09
  | .sbhParity => 0x0A
  | .capacity => 0x0B

/-- The cause of a word that is no command (30_encoding.md R91, R92). A byte string too short for a word cannot come
through the command port (20_memory.md R78). -/
def causeOfDecodeError : DecodeError → Cause
  | .illegalOpcode => .illegalOpcode
  | .reservedBits => .reservedBits
  | .truncated => .illegalOpcode

/-- A regular bin, the only kind that writes a context (40_context_bank.md R134, R136). -/
def Bin.isReg : Bin → Bool
  | .reg _ _ => true
  | .ep _ => false
  | .trm _ => false

/-- EST_VALID after a command that codes `bins`: cleared by at least one regular bin (44_rate_estimator.md R314). -/
def estValidAfter (old : Bool) (bins : List Bin) : Bool := old && !bins.any Bin.isReg

/-- Bit `k` of a word. -/
def bitIn (b : Bool) (k : Nat) : Nat := b.toNat * 2 ^ k

/-- STATUS (10_state.md R45). -/
def State.statusWord (s : State) : RegWord :=
  BitVec.ofNat 32 (bitIn s.bankValid 0 + bitIn s.faulted 1 + bitIn s.faultSticky 2 + bitIn s.estValid 3
    + bitIn s.initChoiceValid 4)

/-- FAULT (10_state.md R41). -/
def FaultReg.word (f : FaultReg) : RegWord := BitVec.ofNat 32 (f.cause.code.toNat + f.opcode.toNat * 2 ^ 8)

/-- CONFIG (10_state.md R37). -/
def ConfigReg.word (c : ConfigReg) : RegWord :=
  BitVec.ofNat 32 (bitIn c.sbhEn 0 + bitIn c.ampEn 1 + bitIn c.lmEn 2 + bitIn c.disInter4x4 3
    + c.qpBdOffsetY.toNat * 2 ^ 8 + c.maxLog2Tb.toNat * 2 ^ 16)

/-- SLICE (10_state.md R38). -/
def SliceReg.word (r : SliceReg) : RegWord :=
  BitVec.ofNat 32 (r.sliceType.toNat + r.qp.toNat * 2 ^ 8 + r.initType.toNat * 2 ^ 16)

/-- INIT_CHOICE; bit 8 mirrors STATUS.INIT_CHOICE_VALID (10_state.md R39). -/
def State.initChoiceWord (s : State) : RegWord := BitVec.ofNat 32 (s.initTable.toNat + bitIn s.initChoiceValid 8)

/-- The SNAP_VALID word: bit k is SNAP_VALID[k] (20_memory.md R72). -/
def State.snapValidWord (s : State) : RegWord :=
  BitVec.ofNat 32 ((s.snap.zipIdx.map fun p => bitIn p.1.valid p.2).sum)

/-- A context as a REG word: bits 5:0 pStateIdx, bit 6 valMps (20_memory.md R72). -/
def Ctx.word (x : Ctx) : RegWord := BitVec.ofNat 32 (x.pStateIdx.toNat + bitIn x.valMps 6)

end Sys2Proof.Machine
end

