-- ==== Sys2Proof/Machine/Ops.lean ====
section
/-! DEFINITION. The named operations over the state: the coefficient buffer, the context update, coding bins, the
snapshot slots, taking a fault and leaving the faulted state, and the frame every command runs in. -/

namespace Sys2Proof.Machine

open Sys2Proof

/-! ### The coefficient buffer (10_state.md R36; 20_memory.md R70) -/

/-- COEF[a]; an entry not listed reads as 0, its reset content. -/
def Memory.read : Memory → Nat → Coef
  | [], _ => 0
  | (b, w) :: m, a => if a = b then w else Memory.read m a

/-- `COEF[a] <- v`. Writing 0 removes the entry, so equal buffers are equal lists. -/
def Memory.write : Memory → Nat → Coef → Memory
  | [], a, v => if v = 0 then [] else [(a, v)]
  | (b, w) :: m, a, v =>
    if a < b then (if v = 0 then (b, w) :: m else (a, v) :: (b, w) :: m)
    else if a = b then (if v = 0 then m else (a, v) :: m)
    else (b, w) :: Memory.write m a v

/-- The canonical form: indexes strictly rising and inside the buffer, no entry 0. -/
abbrev Memory.wf (m : Memory) : Prop :=
  m.Pairwise (fun x y => x.1 < y.1) ∧ ∀ e ∈ m, e.1 < 1024 ∧ e.2 ≠ 0

/-! ### Coding bins (40_context_bank.md R134 to R136) -/

/-- transIdxLps (40_context_bank.md R135). -/
def transIdxLps : List Nat :=
  [0, 0, 1, 2, 2, 4, 4, 5] ++ [6, 7, 8, 9, 9, 11, 11, 12] ++ [13, 13, 15, 15, 16, 16, 18, 18]
  ++ [19, 19, 21, 21, 22, 22, 23, 24] ++ [24, 25, 26, 26, 27, 27, 28, 29] ++ [29, 30, 30, 30, 31, 32, 32, 33]
  ++ [33, 33, 34, 34, 35, 35, 35, 36] ++ [36, 36, 37, 37, 37, 38, 38]

/-- transIdxMps (40_context_bank.md R135). -/
def transIdxMps (s : Nat) : Nat := min (s + 1) 62

/-- The context after bin `b` (40_context_bank.md R134). -/
def Ctx.update (x : Ctx) (b : Bool) : Ctx :=
  if b = x.valMps then ⟨BitVec.ofNat 6 (transIdxMps x.pStateIdx.toNat), x.valMps⟩
  else ⟨BitVec.ofNat 6 (transIdxLps.getD x.pStateIdx.toNat 0), if x.pStateIdx = 0 then !x.valMps else x.valMps⟩

/-- CTX[i] of a bank. -/
def ctxAt (bank : List Ctx) (i : Nat) : Ctx := bank.getD i Ctx.atReset

/-- One bin through its coder: the bank after it and the event it emits, which carries the context before the
update (40_context_bank.md R134, R136; 20_memory.md R75). -/
def codeBin (x : Bin) (bank : List Ctx) : List Ctx × BinEvent :=
  match x with
  | .reg i b =>
    (bank.set i ((ctxAt bank i).update b),
      .reg b (BitVec.ofNat 9 i) (ctxAt bank i).pStateIdx (ctxAt bank i).valMps)
  | .ep b => (bank, .ep b)
  | .trm b => (bank, .trm b)

/-- Bins in order, each seeing the updates of those before it (40_context_bank.md R134; 70_reset_and_hazards.md R371). -/
def codeBins : List Bin → List Ctx → List Ctx × List BinEvent
  | [], bank => (bank, [])
  | x :: xs, bank =>
    ((codeBins xs (codeBin x bank).1).1, (codeBin x bank).2 :: (codeBins xs (codeBin x bank).1).2)

/-- Codes `bins` on the live bank: CTX, the BIN stream and EST_VALID move, nothing else. -/
def State.code (s : State) (bins : List Bin) : State :=
  { s with
    ctx := (codeBins bins s.ctx).1
    bin := s.bin ++ (codeBins bins s.ctx).2
    estValid := estValidAfter s.estValid bins }

/-- `emit` (00_scope.md R10). -/
def State.emit (s : State) (es : List BinEvent) : State := { s with bin := s.bin ++ es }

/-! ### Snapshot slots (10_state.md R35) -/

/-- SNAP[k] where the slot exists and is valid (40_context_bank.md R144: `SLOT >= NUM_SNAPSHOTS or SNAP_VALID = 0`
faults). -/
def State.validSlot (s : State) (k : Nat) : Option (List Ctx) :=
  if s.build.numSnapshots ≤ k then none
  else match s.snap[k]? with
    | some sl => if sl.valid then some sl.ctx else none
    | none => none

/-- Writes slot `k` whole and sets its valid bit. -/
def State.setSlot (s : State) (k : Nat) (bank : List Ctx) : State := { s with snap := s.snap.set k ⟨true, bank⟩ }

/-- The whole bank overwritten: every writer of the whole of CTX validates it and stales the estimator
(10_state.md R45; 44_rate_estimator.md R314). -/
def State.setBank (s : State) (bank : List Ctx) : State :=
  { s with ctx := bank, bankValid := true, estValid := false }

/-- `live` with the contexts of one group taken from `from_` (40_context_bank.md R145). -/
def copyGroup (g : Group) (live from_ : List Ctx) : List Ctx :=
  live.take g.base ++ ((from_.drop g.base).take g.size ++ live.drop (g.base + g.size))

/-! ### Faults (60_exceptions.md R331 to R335) -/

/-- Taking a fault with cause `c` raised by a command with opcode `op` (60_exceptions.md R332). FAULT keeps the first
fault of an episode. Nothing else of the state changes (R331, R333). -/
def State.takeFault (s : State) (op : Nat) (c : Cause) : State :=
  { s with
    fault := if s.faulted then s.fault else ⟨c, BitVec.ofNat 8 op⟩
    faulted := true
    faultSticky := true }

/-- Leaving the faulted state, which only a RESET_ENTROPY that commits does (60_exceptions.md R335). FAULT and
FAULT_STICKY keep their values. -/
def State.leaveFaulted (s : State) : State := { s with faulted := false }

/-- The block rejects a command with opcode `op` (60_exceptions.md R334; 30_encoding.md R96 step 1). -/
def State.rejects (s : State) (op : Nat) : Bool :=
  decide (s.fault.cause = .capacity) || (s.faulted && decide (op ≠ 0x01))

/-- The end of every command taken: CMDCNT counts it and its completion carries FAULTED (10_state.md R42;
60_exceptions.md R337). -/
def State.complete (s : State) : State :=
  { s with cmdcnt := s.cmdcnt + 1, completions := s.completions ++ [s.faulted] }

/-- The frame of every command: rejection, then the command's own checks and effect, committed whole or not at all
(00_scope.md R11; 30_encoding.md R96; 60_exceptions.md R331, R334). -/
def command (op : Nat) (effect : State → Except Cause State) (s : State) : Out :=
  if s.rejects op then .next s.complete
  else match effect s with
    | .ok t => .next t.complete
    | .error c => .next (s.takeFault op c).complete

/-- An effect that needs a valid bank (10_state.md R33; 30_encoding.md R96 step 5). -/
def needBank (effect : State → Except Cause State) (s : State) : Except Cause State :=
  if s.bankValid then effect s else .error .notInitialised

/-- A command whose effect is to code the bins `bins` gives on a valid bank, or to fault with the cause it gives. -/
def coding (bins : State → Except Cause (List Bin)) : State → Except Cause State :=
  needBank fun s => match bins s with
    | .ok bs => .ok (s.code bs)
    | .error c => .error c

/-- A check that comes before `rest`. -/
def unlessFault {α : Type} (bad : Bool) (c : Cause) (rest : Except Cause α) : Except Cause α :=
  if bad then .error c else rest

/-- Hardware reset between two commands: every piece of the block's state to its reset value (10_state.md R47;
70_reset_and_hazards.md R360, R363). What the host still has to send, and what the sink and the host have already
received, are not the block's (R362; log 10). -/
def State.hardwareReset (s : State) : State :=
  { State.resetOf s.build with pending := s.pending, bin := s.bin, completions := s.completions }

end Sys2Proof.Machine
end

