-- ==== Sys2Proof/Machine/Operands.lean ====
section
/-! DEFINITION. What the commands derive from their operands before they act: neighbour counts, partition flags,
candidate sorting, the delta-QP wrap, block geometry, table choice. -/

namespace Sys2Proof.Machine

open Sys2Proof

/-- The slice type field 3 is no slice type (30_encoding.md R94, R96 step 4). -/
def badSliceType (st : Nat) : Bool := decide (3 ≤ st)

/-- tableFor(ST, REC) (40_context_bank.md R132). -/
def State.tableFor (s : State) (st : Nat) (useRec : Bool) : Nat :=
  if st = 0 then 0
  else if useRec && s.initChoiceValid then s.initTable.toNat
  else st

/-- The neighbours that are available and deeper than the current CU (42_syntax_elements.md R201). -/
def splitInc (avL avA : Bool) (dL dA dC : Nat) : Nat :=
  (if avL && decide (dC < dL) then 1 else 0) + (if avA && decide (dC < dA) then 1 else 0)

/-- The neighbours that are available and skipped (42_syntax_elements.md R202). -/
def skipInc (avL skL avA skA : Bool) : Nat := (avL && skL).toNat + (avA && skA).toNat

/-- Asymmetric partitions are possible (42_syntax_elements.md R205). -/
def ampAllowed (c : ConfigReg) (ampOk atMin : Bool) : Bool := c.ampEn && ampOk && !atMin

/-- No inter N×N in an 8×8 CU (42_syntax_elements.md R205). -/
def no4x4 (c : ConfigReg) (log2Cb : Nat) : Bool := decide (log2Cb = 3) && c.disInter4x4

/-- One step of the renumbering of an intra mode (42_syntax_elements.md R207). -/
def dropAbove (rem s : Nat) : Nat := if s < rem then rem - 1 else rem

/-- Three candidates in descending order. -/
def sortDesc (c0 c1 c2 : Nat) : List Nat :=
  [max c0 (max c1 c2), max (min c0 c1) (min (max c0 c1) c2), min c0 (min c1 c2)]

/-- The 5-bit remainder of an intra mode that is no candidate (42_syntax_elements.md R207). -/
def intraRem (mode c0 c1 c2 : Nat) : Nat := (sortDesc c0 c1 c2).foldl dropAbove mode

/-- The delta-QP wrapped by the bit-depth offset `o` (42_syntax_elements.md R212); `mod` is floored. -/
def wrapDeltaQp (o : Nat) (dqp : Int) : Int :=
  (dqp + 78 + o + (o / 2 : Nat)) % (52 + o) - 26 - (o / 2 : Nat)

/-- The ctxInc of prefix bin `j` of a last position (43_residual.md R266). -/
def lastCtx (l2 : Nat) (chroma : Bool) (j : Nat) : Nat :=
  if chroma then 15 + j / 2 ^ (l2 - 2)
  else 3 * (l2 - 2) + (l2 - 1) / 4 + j / 2 ^ ((l2 + 1) / 4)

/-- Block sizes EST_RATES accepts are 2..5, and 2..4 for chroma (44_rate_estimator.md R311). -/
def badBlockSize (l2 : Nat) (chroma : Bool) : Bool :=
  decide (l2 < 2) || decide (5 < l2) || (chroma && decide (4 < l2))

/-- The geometry CODE_COEFF rejects (43_residual.md R261). -/
def badGeometry (c : ConfigReg) (l2 : Nat) (chroma : Bool) (scan : Nat) : Bool :=
  badBlockSize l2 chroma || decide (c.maxLog2Tb.toNat < l2) || decide (3 ≤ scan)

end Sys2Proof.Machine
end

