-- ==== Sys2Proof/Machine/ContextBank.lean ====
section
/-! DEFINITION. The context bank commands: configuration, initialisation, segment control, table choice
(40_context_bank.md R130 to R142, R150). -/

namespace Sys2Proof.Machine

open Sys2Proof

/-- Clip3 (00_scope.md R9). -/
def clip3 (lo hi v : Int) : Int := min hi (max lo v)

/-- The intermediate value `pre` of initState, 1..126 (40_context_bank.md R131, R133). -/
def initPre (iv : BitVec 8) (qp : Int) : Int :=
  let m : Int := (iv.toNat / 16 : Nat) * 5 - 45
  let n : Int := (iv.toNat % 16 * 8 : Nat) - 16
  clip3 1 126 (m * clip3 0 51 qp / 16 + n)

/-- The initial state of a context (40_context_bank.md R131). -/
def initState (iv : BitVec 8) (qp : Int) : Ctx :=
  if initPre iv qp ≤ 63 then ⟨BitVec.ofNat 6 (63 - initPre iv qp).toNat, false⟩
  else ⟨BitVec.ofNat 6 (initPre iv qp - 64).toNat, true⟩

/-- The bank initialised from table `t` (40_context_bank.md R137). -/
def initBank (b : Build) (t : Nat) (qp : Int) : List Ctx :=
  (List.range b.numCtx).map fun i => initState (b.initValueAt t i) qp

/-- The cost of coding `v` in state `x`, Q15 bits (40_context_bank.md R140, R141). -/
def entropyBits (b : Build) (x : Ctx) (v : Bool) : Nat :=
  let e := b.eb.getD x.pStateIdx.toNat (0, 0)
  if v = x.valMps then e.1 else e.2

/-- The probability of bin `v` in the live state `x`, Q16 (40_context_bank.md R139, R142). -/
def binProb (b : Build) (x : Ctx) (v : Bool) : Nat :=
  let pL := b.probLpsQ16.getD x.pStateIdx.toNat 0
  if v = x.valMps then 65536 - pL else pL

/-- The expected bits under the live state `x` of coding with the candidate state `c` (40_context_bank.md R142). -/
def ctxCost (b : Build) (x c : Ctx) : Nat :=
  (binProb b x false * entropyBits b c false + binProb b x true * entropyBits b c true) / 65536

/-- cost[t] (40_context_bank.md R142). -/
def tableCost (s : State) (t : Nat) (qp : Int) : Nat :=
  (List.zipWith (ctxCost s.build) s.ctx (initBank s.build t qp)).sum

/-- The table DETERMINE_INIT_INDEX keeps for a P or B slice (40_context_bank.md R142; INIT_TIE of 00_scope.md R6). -/
def chooseTable (s : State) (st : Nat) (qp : Int) : Nat :=
  let own := tableCost s st qp
  let oth := tableCost s (3 - st) qp
  match s.build.initTie with
  | .own => if oth < own then 3 - st else st
  | .other => if oth ≤ own then 3 - st else st

/-- The re-initialisation RESET_ENTROPY and UPDATE_CONTEXT_TABLES share (40_context_bank.md R137, R138). -/
def State.reinit (s : State) (st : Nat) (qp : Int) (useRec : Bool) : State :=
  { s.setBank (initBank s.build (s.tableFor st useRec) qp) with
    slice := ⟨BitVec.ofNat 2 st, BitVec.ofInt 8 qp, BitVec.ofNat 2 (s.tableFor st useRec)⟩ }

/-- SET_CONFIG (40_context_bank.md R130). -/
def effectSetConfig (sbhEn ampEn lmEn dis : Bool) (qpBd maxTb : Nat) (s : State) : Except Cause State :=
  unlessFault (decide (48 < qpBd) || decide (maxTb < 2) || decide (5 < maxTb)) .valueRange
    (.ok { s with config := ⟨sbhEn, ampEn, lmEn, dis, BitVec.ofNat 6 qpBd, BitVec.ofNat 3 maxTb⟩ })

/-- RESET_ENTROPY (40_context_bank.md R137). -/
def effectResetEntropy (st : Nat) (qp : Int) (useRec : Bool) (s : State) : Except Cause State :=
  unlessFault (badSliceType st) .badSliceType
    (.ok (((s.reinit st qp useRec).leaveFaulted).emit [.start]))

/-- UPDATE_CONTEXT_TABLES (40_context_bank.md R138). -/
def effectUpdateContextTables (st : Nat) (qp : Int) (useRec fin : Bool) (s : State) : Except Cause State :=
  unlessFault (badSliceType st) .badSliceType
    (needBank (fun s => .ok ((((s.code [.trm true]).emit (if fin then [.finish] else [])).reinit st qp useRec).emit
      [.start])) s)

/-- END_SEGMENT (40_context_bank.md R150). -/
def effectEndSegment : State → Except Cause State :=
  needBank fun s => .ok ((s.code [.trm true]).emit [.finish])

/-- DETERMINE_INIT_INDEX (40_context_bank.md R142). -/
def effectDetermineInitIndex (st : Nat) (qp : Int) (s : State) : Except Cause State :=
  unlessFault (badSliceType st) .badSliceType
    (needBank (fun s =>
      if st = 0 then .ok { s with initTable := 0, initChoiceValid := true }
      else .ok { s with
        initCostP := BitVec.ofNat 32 (tableCost s 1 qp)
        initCostB := BitVec.ofNat 32 (tableCost s 2 qp)
        initTable := BitVec.ofNat 2 (chooseTable s st qp)
        initChoiceValid := true }) s)

def execSetConfig (sbhEn ampEn lmEn dis : Bool) (qpBd maxTb : Nat) (s : State) : Out :=
  command (opcodeOf (.setConfig sbhEn ampEn lmEn dis qpBd maxTb)) (effectSetConfig sbhEn ampEn lmEn dis qpBd maxTb) s

def execResetEntropy (st : Nat) (qp : Int) (useRec : Bool) (s : State) : Out :=
  command (opcodeOf (.resetEntropy st qp useRec)) (effectResetEntropy st qp useRec) s

def execUpdateContextTables (st : Nat) (qp : Int) (useRec fin : Bool) (s : State) : Out :=
  command (opcodeOf (.updateContextTables st qp useRec fin)) (effectUpdateContextTables st qp useRec fin) s

def execEndSegment (s : State) : Out := command (opcodeOf .endSegment) effectEndSegment s

def execDetermineInitIndex (st : Nat) (qp : Int) (s : State) : Out :=
  command (opcodeOf (.determineInitIndex st qp)) (effectDetermineInitIndex st qp) s

end Sys2Proof.Machine
end

