-- ==== Sys2Proof/Machine/RateEstimator.lean ====
section
/-! DEFINITION. The rate estimator (44_rate_estimator.md). -/

namespace Sys2Proof.Machine

open Sys2Proof

/-- The costs of a 0 and a 1 in one context (44_rate_estimator.md R311). -/
def costPair (b : Build) (x : Ctx) : Cost × Cost :=
  (BitVec.ofNat 32 (entropyBits b x false), BitVec.ofNat 32 (entropyBits b x true))

/-- The cost pairs of every context of a group (44_rate_estimator.md R311). -/
def groupCosts (b : Build) (bank : List Ctx) (g : Group) : List (Cost × Cost) :=
  (List.range g.size).map fun c => costPair b (ctxAt bank (g.base + c))

/-- The cumulative costs from prefix bin `j` on, with `left` bins to go and `acc` the cost of the ones before
(44_rate_estimator.md R312). -/
def lastCostFrom (b : Build) (bank : List Ctx) (g : Group) (l2 : Nat) (chroma : Bool) : Nat → Nat → Nat → List Nat
  | 0, _, acc => [acc]
  | left + 1, j, acc =>
    let x := ctxAt bank (g.base + lastCtx l2 chroma j)
    (acc + entropyBits b x false) :: lastCostFrom b bank g l2 chroma left (j + 1) (acc + entropyBits b x true)

/-- `lastCost(G)`: ten entries, those above cMax 0 (44_rate_estimator.md R312). -/
def lastCost (b : Build) (bank : List Ctx) (g : Group) (l2 : Nat) (chroma : Bool) : List Cost :=
  let t := lastCostFrom b bank g l2 chroma (2 * l2 - 1) 0 0
  (List.range 10).map fun i => BitVec.ofNat 32 (t.getD i 0)

/-- Every table of the estimator, from a bank (44_rate_estimator.md R311). -/
def estimate (b : Build) (bank : List Ctx) (l2 : Nat) (chroma : Bool) : EstTables where
  cbf := groupCosts b bank .qtCbf
  rootCbf := groupCosts b bank .qtRootCbf
  sigGroup := groupCosts b bank .sigGroup
  sig := groupCosts b bank .sig
  gt1 := groupCosts b bank .gt1
  gt2 := groupCosts b bank .gt2
  lastX := lastCost b bank .lastX l2 chroma
  lastY := lastCost b bank .lastY l2 chroma

/-- EST_RATES (44_rate_estimator.md R311). -/
def effectEstRates (l2 : Nat) (pl : Bool) : State → Except Cause State :=
  needBank fun s =>
    unlessFault (badBlockSize l2 pl) .badGeometry
      (.ok { s with est := estimate s.build s.ctx l2 pl, estComputed := true, estValid := true })

def execEstRates (l2 : Nat) (pl : Bool) (s : State) : Out := command (opcodeOf (.estRates l2 pl)) (effectEstRates l2 pl) s

end Sys2Proof.Machine
end

