-- ==== Sys2Proof/Machine/Binarize.lean ====
section
/-! DEFINITION. The binarizers (41_binarization.md): pure functions from a value to its bin string, first bin first,
and their inverses (R186). -/

namespace Sys2Proof.Machine

open Sys2Proof

/-- Truncated unary with maximum `cMax` (41_binarization.md R180). -/
def binTU (s cMax : Nat) : List Bool := List.replicate s true ++ (if s < cMax then [false] else [])

/-- Unary, unbounded (41_binarization.md R181). -/
def binU (s : Nat) : List Bool := List.replicate s true ++ [false]

/-- Fixed length: the `n` low bits of `v`, most significant first (41_binarization.md R183; 40_context_bank.md R136). -/
def binFL (v : Nat) : Nat → List Bool
  | 0 => []
  | n + 1 => v.testBit n :: binFL v n

/-- The loop of EGk, one unit of `fuel` a round: every round lowers `v`, so `fuel > v` is enough. -/
def binEGLoop : Nat → Nat → Nat → List Bool
  | 0, _, _ => []
  | fuel + 1, v, k => if 2 ^ k ≤ v then true :: binEGLoop fuel (v - 2 ^ k) (k + 1) else false :: binFL v k

/-- Exp-Golomb of order `k` (41_binarization.md R182). -/
def binEGk (v k : Nat) : List Bool := binEGLoop (v + 1) v k

/-- The escape loop of GR: the remainder and the suffix length, from `c` and `len` (41_binarization.md R184). -/
def escapeLoop : Nat → Nat → Nat → Nat × Nat
  | 0, c, len => (c, len)
  | fuel + 1, c, len => if 2 ^ len ≤ c then escapeLoop fuel (c - 2 ^ len) (len + 1) else (c, len)

/-- The bins of the adaptive Golomb-Rice code, before the check of their number (41_binarization.md R184). -/
def grBins (sym r : Nat) : List Bool :=
  if sym < 3 * 2 ^ r then
    List.replicate (sym / 2 ^ r) true ++ [false] ++ binFL sym r
  else
    let e := escapeLoop (sym + 1) (sym - 3 * 2 ^ r) r
    List.replicate (3 + e.2 + 1 - r - 1) true ++ [false] ++ binFL e.1 e.2

/-- Adaptive Golomb-Rice with the hard bound GR_MAX_BINS (41_binarization.md R184). -/
def binGR (maxBins sym r : Nat) : Except Cause (List Bool) :=
  if maxBins < (grBins sym r).length then .error .binCount else .ok (grBins sym r)

/-- The inverse of TU (41_binarization.md R186). A string that ends early reads as one that goes on with a 0
[DESIGN CHOICE, safe: log 22]. -/
def invTU : List Bool → Nat → Nat
  | _, 0 => 0
  | true :: bs, m + 1 => invTU bs m + 1
  | _, _ + 1 => 0

/-- The first `n` bins as an integer, most significant first (41_binarization.md R186). Where the string has fewer bins,
those it has are the integer; R186 does not say [DESIGN CHOICE, safe: log 22]. -/
def msbFirst (bs : List Bool) (n : Nat) : Nat := (bs.take n).foldl (fun a b => 2 * a + b.toNat) 0

/-- The inverse of EGk (41_binarization.md R186). A string that ends in its prefix adds nothing there
[DESIGN CHOICE, safe: log 22]. -/
def invEGk : List Bool → Nat → Nat
  | true :: bs, k => 2 ^ k + invEGk bs (k + 1)
  | false :: bs, k => msbFirst bs k
  | [], _ => 0

/-- The inverse of GR (41_binarization.md R186). Strings that end early as in `msbFirst`
[DESIGN CHOICE, safe: log 22]. -/
def invGR (bs : List Bool) (r : Nat) : Nat :=
  let q := (bs.takeWhile id).length
  let rest := bs.drop (q + 1)
  if q < 3 then q * 2 ^ r + msbFirst rest r
  else 3 * 2 ^ r + (2 ^ (q - 3 + r) - 2 ^ r) + msbFirst rest (q - 3 + r)

/-- Bins that all go through the bypass coder (40_context_bank.md R136). -/
def epAll (bs : List Bool) : List Bin := bs.map .ep

/-- `epBins(v, n)` (40_context_bank.md R136). -/
def epBins (v n : Nat) : List Bin := epAll (binFL v n)

/-- `rb(G, inc, b)`: a regular bin in context BASE_G + inc (42_syntax_elements.md R200). -/
def rb (g : Group) (inc : Nat) (b : Bool) : Bin := .reg (g.base + inc) b

end Sys2Proof.Machine
end

