-- ==== Sys2Proof/Machine/Residual.lean ====
section
/-! DEFINITION. The residual coefficient block coder (43_residual.md): COEF_WRITE and CODE_COEFF. The bins of a block
are a function of the build, CONFIG, COEF and the operands; the live contexts only enter when they are coded. -/

namespace Sys2Proof.Machine

open Sys2Proof

/-! ### Scan orders (43_residual.md R263, R264) -/

/-- The up-right diagonal scan of an n × n block: anti-diagonals in rising order, in each x rising. -/
def scanDiagonal (n : Nat) : List (Nat × Nat) :=
  (List.range (2 * n - 1)).flatMap fun d =>
    (List.range (d + 1)).filterMap fun x => if x < n ∧ d - x < n then some (x, d - x) else none

/-- The horizontal scan: rows. -/
def scanHorizontal (n : Nat) : List (Nat × Nat) :=
  (List.range n).flatMap fun y => (List.range n).map fun x => (x, y)

/-- The vertical scan: columns. -/
def scanVertical (n : Nat) : List (Nat × Nat) :=
  (List.range n).flatMap fun x => (List.range n).map fun y => (x, y)

/-- `scan(n, SCAN)` (43_residual.md R263). -/
def scanOrder (n scan : Nat) : List (Nat × Nat) :=
  if scan = 0 then scanDiagonal n else if scan = 1 then scanHorizontal n else scanVertical n

/-- The position of scan index `p` of a block: sub-block p / 16, position p % 16 in it (43_residual.md R264). The formula of
R264 is followed, not its example for pos[16] of a diagonal 8×8 block [DEDUCED, unsafe: log 21]. -/
def blockPos (l2 scan p : Nat) : Nat × Nat :=
  let sb := (scanOrder (2 ^ l2 / 4) scan).getD (p / 16) (0, 0)
  let ip := (scanOrder 4 scan).getD (p % 16) (0, 0)
  (4 * sb.1 + ip.1, 4 * sb.2 + ip.2)

/-- `blockScan(L2, SCAN)`: all W × W positions (43_residual.md R264). -/
def blockScan (l2 scan : Nat) : List (Nat × Nat) := (List.range (4 ^ l2)).map (blockPos l2 scan)

/-! ### The block being coded -/

/-- What the rules of one CODE_COEFF read: the operands, the two enables and the coefficient buffer. -/
structure Block where
  build : Build
  l2 : Nat
  chroma : Bool
  scan : Nat
  /-- sign hiding is permitted: CONFIG.SBH_EN = 1 and LL = 0 (43_residual.md R261) -/
  hideOk : Bool
  coef : Memory

/-- `c(x, y) = COEF[y * W + x]` (43_residual.md R261). -/
def Block.at (k : Block) (x y : Nat) : Int := (k.coef.read (y * 2 ^ k.l2 + x)).toInt

/-- The position of scan index `p`. -/
def Block.pos (k : Block) (p : Nat) : Nat × Nat := blockPos k.l2 k.scan p

/-- The coefficient at scan index `p`. -/
def Block.coefAt (k : Block) (p : Nat) : Int := k.at (k.pos p).1 (k.pos p).2

/-- Sub-blocks per side (43_residual.md R262). -/
def Block.ns (k : Block) : Nat := 2 ^ k.l2 / 4

/-- The position of sub-block `i` in scan order (43_residual.md R262). -/
def Block.sub (k : Block) (i : Nat) : Nat × Nat := (scanOrder k.ns k.scan).getD i (0, 0)

/-- `csbf(sx, sy)`: the sub-block exists and holds a nonzero coefficient (43_residual.md R262). -/
def Block.csbf (k : Block) (sx sy : Nat) : Bool :=
  decide (sx < k.ns) && decide (sy < k.ns) &&
    (List.range 4).any fun i => (List.range 4).any fun j => decide (k.at (4 * sx + i) (4 * sy + j) ≠ 0)

/-- The scan index of the last nonzero coefficient, if there is one (43_residual.md R262, steps 1 and 2). -/
def Block.last? (k : Block) : Option Nat :=
  ((List.range (4 ^ k.l2)).filter fun p => decide (k.coefAt p ≠ 0)).getLast?

/-! ### Last significant position (43_residual.md R265, R266) -/

/-- GROUP_IDX (43_residual.md R265). -/
def groupIdx (v : Nat) : Nat :=
  if v < 4 then v else if v < 6 then 4 else if v < 8 then 5 else if v < 12 then 6 else if v < 16 then 7
  else if v < 24 then 8 else 9

/-- MIN_IN_GROUP (43_residual.md R265). -/
def minInGroup (g : Nat) : Nat := [0, 1, 2, 3, 4, 6, 8, 12, 16, 24].getD g 0

/-- The prefix of one coordinate: TU of its group index, bin j in context lastCtx(j) (43_residual.md R265). -/
def lastPrefix (g : Group) (l2 : Nat) (chroma : Bool) (v : Nat) : List Bin :=
  (binTU (groupIdx v) (2 * l2 - 1)).zipIdx.map fun p => rb g (lastCtx l2 chroma p.2) p.1

/-- The suffix of one coordinate, for a group index above 3 (43_residual.md R265). -/
def lastSuffix (v : Nat) : List Bin :=
  if 3 < groupIdx v then epBins (v - minInGroup (groupIdx v)) (groupIdx v / 2 - 1) else []

/-- The scan swaps the coordinates (43_residual.md R265; LAST_SWAP of 00_scope.md R6). -/
def swapsLast (b : Build) (scan : Nat) : Bool :=
  match b.lastSwap with
  | .vertOnly => decide (scan = 2)
  | .horAndVert => decide (scan = 1) || decide (scan = 2)

/-- codeLastPos (43_residual.md R265). -/
def Block.lastPosBins (k : Block) (x y : Nat) : List Bin :=
  let u := if swapsLast k.build k.scan then y else x
  let v := if swapsLast k.build k.scan then x else y
  lastPrefix .lastX k.l2 k.chroma u ++ lastPrefix .lastY k.l2 k.chroma v ++ lastSuffix u ++ lastSuffix v

/-! ### Significance (43_residual.md R262, R268 to R271) -/

/-- csbfCtx (43_residual.md R268). -/
def Block.csbfCtx (k : Block) (sx sy : Nat) : Nat :=
  min 1 ((k.csbf (sx + 1) sy).toNat + (k.csbf sx (sy + 1)).toNat) + (if k.chroma then 2 else 0)

/-- prevCsbf (43_residual.md R269). -/
def Block.prevCsbf (k : Block) (sx sy : Nat) : Nat :=
  (k.csbf (sx + 1) sy).toNat + 2 * (k.csbf sx (sy + 1)).toNat

/-- CTX_IDX_MAP (43_residual.md R270). -/
def ctxIdxMap : List Nat := [0, 1, 4, 5, 2, 3, 4, 5, 6, 6, 8, 8, 7, 7, 8]

/-- The pattern part of a significance context (43_residual.md R270). -/
def patternCtx (prev xP yP : Nat) : Nat :=
  if prev = 0 then (if xP + yP = 0 then 2 else if xP + yP < 3 then 1 else 0)
  else if prev = 1 then (if yP = 0 then 2 else if yP = 1 then 1 else 0)
  else if prev = 2 then (if xP = 0 then 2 else if xP = 1 then 1 else 0)
  else 2

/-- `s` of sigCtx, before the plane's base (43_residual.md R270). -/
def sigCtxInPlane (l2 : Nat) (chroma : Bool) (scan prev x y : Nat) : Nat :=
  if l2 = 2 then ctxIdxMap.getD (4 * y + x) 0
  else if x + y = 0 then 0
  else if chroma then patternCtx prev (x % 4) (y % 4) + (if l2 = 3 then 9 else 12)
  else patternCtx prev (x % 4) (y % 4) + (if x / 4 = 0 ∧ y / 4 = 0 then 0 else 3)
    + (if l2 = 3 then (if scan = 0 then 9 else 15) else 21)

/-- sigCtx (43_residual.md R270). -/
def Block.sigCtx (k : Block) (prev x y : Nat) : Nat :=
  (if k.chroma then 27 else 0) + sigCtxInPlane k.l2 k.chroma k.scan prev x y

/-- The significance flags of positions n-1 down to 0 of sub-block `i`, and the scan positions found nonzero, in
descending order. `inferDC` holds while a coded sub-block has shown no nonzero coefficient (43_residual.md R262, R271). -/
def Block.sigFlags (k : Block) (i prev : Nat) : Nat → Bool → List Bin × List Nat
  | 0, _ => ([], [])
  | n + 1, inferDC =>
    if n = 0 ∧ inferDC = true then ([], [16 * i])
    else
      let p := 16 * i + n
      let b := decide (k.coefAt p ≠ 0)
      let r := k.sigFlags i prev n (inferDC && !b)
      (rb .sig (k.sigCtx prev (k.pos p).1 (k.pos p).2) b :: r.1, if b then p :: r.2 else r.2)

/-! ### Levels (43_residual.md R272 to R279) -/

/-- c1 after a greater-than-1 flag (43_residual.md R273). -/
def nextC1 (c1 : Nat) (g : Bool) : Nat := if g then 0 else if 0 < c1 ∧ c1 < 3 then c1 + 1 else c1

/-- The greater-than-1 flags of the magnitudes given, from the state c1, and the state they leave
(43_residual.md R272, R273). -/
def gt1Flags (chroma : Bool) (ctxSet : Nat) : List Nat → Nat → List Bin × Nat
  | [], c1 => ([], c1)
  | a :: as, c1 =>
    let r := gt1Flags chroma ctxSet as (nextC1 c1 (decide (1 < a)))
    (rb .gt1 (4 * ctxSet + c1 + (if chroma then 16 else 0)) (decide (1 < a)) :: r.1, r.2)

/-- ctxSet of a sub-block with coefficients (43_residual.md R272, R279). -/
def ctxSetOf (chroma : Bool) (i c1 : Nat) : Nat := (if 0 < i ∧ chroma = false then 2 else 0) + (if c1 = 0 then 1 else 0)

/-- The base level the flags of coefficient `k` have conveyed (43_residual.md R272, step 4f). -/
def baseLevel (gt1Max : Nat) (firstG1 : Option Nat) (g2 : Bool) (k a : Nat) : Nat :=
  1 + (if k < gt1Max ∧ 1 < a then 1 else 0) + (if some k = firstG1 ∧ g2 = true then 1 else 0)

/-- The base level at which a remaining level is coded (43_residual.md R272, R277). -/
def neededLevel (gt1Max : Nat) (firstG1 : Option Nat) (k : Nat) : Nat :=
  if k < gt1Max then (if some k = firstG1 then 3 else 2) else 1

/-- cRice after a coded remaining level of magnitude `a` (43_residual.md R278). -/
def nextRice (riceMax a cRice : Nat) : Nat := if 3 * 2 ^ cRice < a then min (cRice + 1) riceMax else cRice

/-- The remaining levels of the magnitudes given, from index `k` on, and the cRice they leave (43_residual.md R272,
step 4f; R277, R278). -/
def remLevels (b : Build) (firstG1 : Option Nat) (g2 : Bool) : List Nat → Nat → Nat → Except Cause (List Bin × Nat)
  | [], _, cRice => .ok ([], cRice)
  | a :: as, k, cRice =>
    if baseLevel b.gt1MaxPerGroup firstG1 g2 k a = neededLevel b.gt1MaxPerGroup firstG1 k then
      match binGR b.grMaxBins (a - baseLevel b.gt1MaxPerGroup firstG1 g2 k a) cRice with
      | .error c => .error c
      | .ok bins =>
        match remLevels b firstG1 g2 as (k + 1) (nextRice b.riceMax a cRice) with
        | .error c => .error c
        | .ok r => .ok (epAll bins ++ r.1, r.2)
    else remLevels b firstG1 g2 as (k + 1) cRice

/-- signHidden(S), for scan positions in descending order (43_residual.md R275). -/
def Block.signHidden (k : Block) (S : List Nat) : Bool :=
  k.hideOk && decide (k.build.sbhThreshold ≤ S.headD 0 - S.getLastD 0)

/-- The sign bins of a sub-block: all but the last one where it is hidden (43_residual.md R272, step 4e). -/
def signBins (hide : Bool) (vals : List Int) : List Bin :=
  (if hide then vals.dropLast else vals).map fun v => .ep (decide (v < 0))

/-- A hidden sign that does not fit the parity of the magnitudes (43_residual.md R276). -/
def parityMismatch (vals : List Int) : Bool :=
  decide ((vals.map Int.natAbs).sum % 2 = 1) != decide (vals.getLastD 0 < 0)

/-- codeLevels(i, S, A): the bins, and the c1 and cRice they leave (43_residual.md R272). -/
def Block.codeLevels (k : Block) (i : Nat) (S : List Nat) (c1 cRice : Nat) : Except Cause (List Bin × Nat × Nat) :=
  let vals := S.map k.coefAt
  let A := vals.map Int.natAbs
  let ctxSet := ctxSetOf k.chroma i c1
  let flagged := A.take k.build.gt1MaxPerGroup
  let g1 := gt1Flags k.chroma ctxSet flagged 1
  let firstG1 := flagged.findIdx? fun a => decide (1 < a)
  let g2 := match firstG1 with
    | some f => decide (2 < A.getD f 0)
    | none => false
  let g2Bins := match firstG1 with
    | some _ => [rb .gt2 (ctxSet + (if k.chroma then 4 else 0)) g2]
    | none => []
  if k.signHidden S && parityMismatch vals then .error .sbhParity
  else match remLevels k.build firstG1 g2 A 0 cRice with
    | .error c => .error c
    | .ok r => .ok (g1.1 ++ g2Bins ++ signBins (k.signHidden S) vals ++ r.1, g1.2, r.2)

/-! ### Sub-blocks and the block (43_residual.md R262) -/

/-- cRice at the start of a sub-block (43_residual.md R278; RICE_RESET of 00_scope.md R6). -/
def riceAtSubBlock (b : Build) (cRice : Nat) : Nat :=
  match b.riceReset with
  | .perSubset => 0
  | .perBlock => cRice

/-- The flags of sub-block `i` (steps 4a and 4b): their bins and the scan positions of its nonzero coefficients,
descending (43_residual.md R262, R271). -/
def Block.subBlockFlags (k : Block) (last i : Nat) : List Bin × List Nat :=
  let sx := (k.sub i).1
  let sy := (k.sub i).2
  let coded := decide (0 < i) && decide (i < last / 16)
  let flagBins := if coded then [rb .sigGroup (k.csbfCtx sx sy) (k.csbf sx sy)] else []
  let flag := !coded || k.csbf sx sy
  let top := if i = last / 16 then last % 16 else 16
  let sig := if flag then k.sigFlags i (k.prevCsbf sx sy) top coded else ([], [])
  (flagBins ++ sig.1, if i = last / 16 then last :: sig.2 else sig.2)

/-- Sub-blocks n-1 down to 0, from the states c1 and cRice (43_residual.md R262, step 4). -/
def Block.subBlocks (k : Block) (last : Nat) : Nat → Nat → Nat → Except Cause (List Bin)
  | 0, _, _ => .ok []
  | i + 1, c1, cRice =>
    let f := k.subBlockFlags last i
    if f.2 = [] then
      match k.subBlocks last i c1 (riceAtSubBlock k.build cRice) with
      | .error c => .error c
      | .ok rest => .ok (f.1 ++ rest)
    else
      match k.codeLevels i f.2 c1 (riceAtSubBlock k.build cRice) with
      | .error c => .error c
      | .ok l =>
        match k.subBlocks last i l.2.1 l.2.2 with
        | .error c => .error c
        | .ok rest => .ok (f.1 ++ l.1 ++ rest)

/-- The bins of a block; none for an all-zero block (43_residual.md R262). -/
def Block.bins (k : Block) : Except Cause (List Bin) :=
  match k.last? with
  | none => .ok []
  | some last =>
    match k.subBlocks last (last / 16 + 1) 1 0 with
    | .error c => .error c
    | .ok rest => .ok (k.lastPosBins (k.pos last).1 (k.pos last).2 ++ rest)

/-- The block one CODE_COEFF codes (43_residual.md R261). -/
def State.block (s : State) (l2 : Nat) (pl : Bool) (scan : Nat) (ll : Bool) : Block where
  build := s.build
  l2 := l2
  chroma := pl
  scan := scan
  hideOk := s.config.sbhEn && !ll
  coef := s.coef

/-- COEF_WRITE (43_residual.md R260). The index is a 10-bit field: every index names an entry. -/
def effectCoefWrite (idx : Nat) (val : Int) (s : State) : Except Cause State :=
  .ok { s with coef := s.coef.write (idx % 1024) (BitVec.ofInt 16 val) }

/-- CODE_COEFF (43_residual.md R261). -/
def effectCodeCoeff (l2 : Nat) (pl : Bool) (scan : Nat) (ll : Bool) : State → Except Cause State :=
  coding fun s => unlessFault (badGeometry s.config l2 pl scan) .badGeometry (s.block l2 pl scan ll).bins

def execCoefWrite (idx : Nat) (val : Int) (s : State) : Out :=
  command (opcodeOf (.coefWrite idx val)) (effectCoefWrite idx val) s

def execCodeCoeff (l2 : Nat) (pl : Bool) (scan : Nat) (ll : Bool) (s : State) : Out :=
  command (opcodeOf (.codeCoeff l2 pl scan ll)) (effectCodeCoeff l2 pl scan ll) s

end Sys2Proof.Machine
end

