-- ==== Sys2Proof/Machine/Snapshots.lean ====
section
/-! DEFINITION. The snapshot commands (40_context_bank.md R143 to R146). -/

namespace Sys2Proof.Machine

open Sys2Proof

/-- STORE (40_context_bank.md R143). -/
def effectStore (slot : Nat) : State → Except Cause State :=
  needBank fun s =>
    unlessFault (decide (s.build.numSnapshots ≤ slot)) .badSlot
      (.ok ((s.setSlot slot s.ctx).emit [.copyTo (BitVec.ofNat 8 slot)]))

/-- LOAD (40_context_bank.md R144). It needs no valid bank. -/
def effectLoad (slot : Nat) (s : State) : Except Cause State :=
  match s.validSlot slot with
  | some bank => .ok ((s.setBank bank).emit [.copyFrom (BitVec.ofNat 8 slot)])
  | none => .error .badSlot

/-- LOAD_PARTIAL (40_context_bank.md R145). -/
def effectLoadPartial (slot group : Nat) : State → Except Cause State :=
  needBank fun s =>
    match s.validSlot slot, groupOrder[group]? with
    | some bank, some g =>
      .ok ({ s with ctx := copyGroup g s.ctx bank, estValid := false }.emit [.copyFrom (BitVec.ofNat 8 slot)])
    | _, _ => .error .badSlot

/-- SNAP_WRITE (40_context_bank.md R146). -/
def effectSnapWrite (slot idx ps : Nat) (mps : Bool) (s : State) : Except Cause State :=
  match s.validSlot slot with
  | some bank =>
    unlessFault (decide (s.build.numCtx ≤ idx) || decide (62 < ps)) .valueRange
      (.ok (s.setSlot slot (bank.set idx ⟨BitVec.ofNat 6 ps, mps⟩)))
  | none => .error .badSlot

def execStore (slot : Nat) (s : State) : Out := command (opcodeOf (.store slot)) (effectStore slot) s

def execLoad (slot : Nat) (s : State) : Out := command (opcodeOf (.load slot)) (effectLoad slot) s

def execLoadPartial (slot group : Nat) (s : State) : Out :=
  command (opcodeOf (.loadPartial slot group)) (effectLoadPartial slot group) s

def execSnapWrite (slot idx ps : Nat) (mps : Bool) (s : State) : Out :=
  command (opcodeOf (.snapWrite slot idx ps mps)) (effectSnapWrite slot idx ps mps) s

end Sys2Proof.Machine
end

