-- ==== Sys2Proof/Machine/SyntaxElements.lean ====
section
/-! DEFINITION. The syntax-element commands (42_syntax_elements.md). Each is its bin string, a function of the
operands and CONFIG, coded on a valid bank; all checks come before the first bin (R200). -/

namespace Sys2Proof.Machine

open Sys2Proof

/-- A bin string whose first bin is regular in context `inc` of `g` and whose other bins are bypass bins. -/
def firstRegular (g : Group) (inc : Nat) : List Bool → List Bin
  | [] => []
  | b :: bs => rb g inc b :: epAll bs

/-- SPLIT_FLAG (42_syntax_elements.md R201). -/
def binsSplitFlag (v atMax avL avA : Bool) (dL dA dC : Nat) : Except Cause (List Bin) :=
  if atMax then unlessFault v .badCombination (.ok [])
  else .ok [rb .splitFlag (splitInc avL avA dL dA dC) v]

/-- SKIP_FLAG (42_syntax_elements.md R202). -/
def binsSkipFlag (v avL skL avA skA : Bool) : List Bin := [rb .skipFlag (skipInc avL skL avA skA) v]

/-- MERGE_IDX (42_syntax_elements.md R204). -/
def binsMergeIdx (idx nc : Nat) : Except Cause (List Bin) :=
  unlessFault (decide (nc < 1) || decide (5 < nc)) .valueRange
    (unlessFault (decide (nc ≤ idx)) .badCombination
      (.ok (firstRegular .mergeIdx 0 (binTU idx (nc - 1)))))

/-- The AMP bin of a partition: 1 for the symmetric shape, else 0 and one bypass bin for the side
(42_syntax_elements.md R205). -/
def binsAmp (symmetric side : Bool) : List Bin :=
  if symmetric then [rb .partSize 3 true] else [rb .partSize 3 false, .ep side]

/-- PART_SIZE of an inter CU other than 2N×2N, after its checks (42_syntax_elements.md R205). -/
def binsInterPart (part : Nat) (atMin amp no44 : Bool) : List Bin :=
  if part = 1 ∨ part = 4 ∨ part = 5 then
    [rb .partSize 0 false, rb .partSize 1 true] ++ (if amp then binsAmp (decide (part = 1)) (decide (part = 5)) else [])
  else
    [rb .partSize 0 false, rb .partSize 1 false] ++
      (if atMin && !no44 then [rb .partSize 2 (decide (part = 2))]
       else if amp then binsAmp (decide (part = 2)) (decide (part = 7))
       else [])

/-- PART_SIZE (42_syntax_elements.md R205). -/
def binsPartSize (c : ConfigReg) (part : Nat) (intra atMin : Bool) (log2Cb : Nat) (ampOk : Bool) :
    Except Cause (List Bin) :=
  unlessFault (decide (log2Cb < 3) || decide (6 < log2Cb)) .valueRange
    (if intra then
      unlessFault (decide (part ≠ 0 ∧ part ≠ 3)) .badCombination
        (if atMin then .ok [rb .partSize 0 (decide (part = 0))]
         else unlessFault (decide (part = 3)) .badCombination (.ok []))
     else if part = 0 then .ok [rb .partSize 0 true]
     else
      unlessFault (decide (4 ≤ part) && !ampAllowed c ampOk atMin) .badCombination
        (unlessFault (decide (part = 3) && (!atMin || no4x4 c log2Cb)) .badCombination
          (.ok (binsInterPart part atMin (ampAllowed c ampOk atMin) (no4x4 c log2Cb)))))

/-- INTRA_DIR_LUMA (42_syntax_elements.md R207). -/
def binsIntraDirLuma (mode c0 c1 c2 : Nat) : Except Cause (List Bin) :=
  unlessFault (decide (34 < mode) || decide (34 < c0) || decide (34 < c1) || decide (34 < c2)) .valueRange
    (unlessFault (decide (c0 = c1) || decide (c0 = c2) || decide (c1 = c2)) .badCombination
      (.ok
        (if mode = c0 then rb .intraLuma 0 true :: epAll (binTU 0 2)
         else if mode = c1 then rb .intraLuma 0 true :: epAll (binTU 1 2)
         else if mode = c2 then rb .intraLuma 0 true :: epAll (binTU 2 2)
         else rb .intraLuma 0 false :: epBins (intraRem mode c0 c1 c2) 5)))

/-- INTRA_DIR_CHROMA (42_syntax_elements.md R208). -/
def binsIntraDirChroma (c : ConfigReg) (code : Nat) : Except Cause (List Bin) :=
  unlessFault (decide (5 < code)) .valueRange
    (unlessFault (decide (code = 5) && !c.lmEn) .badCombination
      (.ok
        (if code = 4 then [rb .intraChroma 0 false]
         else if c.lmEn then
           if code = 5 then [rb .intraChroma 0 true, rb .intraChroma 1 false]
           else [rb .intraChroma 0 true, rb .intraChroma 1 true] ++ epBins code 2
         else rb .intraChroma 0 true :: epBins code 2)))

/-- INTER_DIR (42_syntax_elements.md R209). -/
def binsInterDir (dir ctd : Nat) (small : Bool) : Except Cause (List Bin) :=
  unlessFault (decide (3 ≤ dir)) .valueRange
    (unlessFault (decide (dir = 2) && small) .badCombination
      (.ok
        (if small then [rb .interDir 4 (decide (dir = 1))]
         else if dir = 2 then [rb .interDir ctd true]
         else [rb .interDir ctd false, rb .interDir 4 (decide (dir = 1))])))

/-- The bins of a reference index: the first two are regular, the others bypass (42_syntax_elements.md R210). -/
def firstTwoRegular (g : Group) : List Bool → List Bin
  | [] => []
  | b :: bs => rb g 0 b :: firstRegular g 1 bs

/-- REF_IDX (42_syntax_elements.md R210). -/
def binsRefIdx (ri nr : Nat) : Except Cause (List Bin) :=
  unlessFault (decide (nr < 1) || decide (16 < nr)) .valueRange
    (unlessFault (decide (nr ≤ ri)) .badCombination
      (.ok (firstTwoRegular .refIdx (binTU ri (nr - 1)))))

/-- The greater-1 flag of one MVD component, absent for 0 (42_syntax_elements.md R211). -/
def mvdGreater1 (v : Int) : List Bin := if v.natAbs > 0 then [rb .mvd 1 (decide (v.natAbs > 1))] else []

/-- The remainder and sign of one MVD component, absent for 0 (42_syntax_elements.md R211). -/
def mvdTail (v : Int) : List Bin :=
  if v.natAbs > 0 then
    (if v.natAbs > 1 then epAll (binEGk (v.natAbs - 2) 1) else []) ++ [.ep (decide (v < 0))]
  else []

/-- MVD (42_syntax_elements.md R211). -/
def binsMvd (mvx mvy : Int) : List Bin :=
  [rb .mvd 0 (decide (mvx.natAbs > 0)), rb .mvd 0 (decide (mvy.natAbs > 0))]
  ++ mvdGreater1 mvx ++ mvdGreater1 mvy ++ mvdTail mvx ++ mvdTail mvy

/-- Bins whose first is in context `inc0` of `g` and whose others are in context `inc1`. -/
def regularThen (g : Group) (inc0 inc1 : Nat) : List Bool → List Bin
  | [] => []
  | b :: bs => rb g inc0 b :: bs.map (rb g inc1)

/-- DELTA_QP after the wrap (42_syntax_elements.md R212). -/
def binsDeltaQp (c : ConfigReg) (dqp : Int) : List Bin :=
  let d := wrapDeltaQp c.qpBdOffsetY.toNat dqp
  regularThen .deltaQp 0 1 (binTU (min d.natAbs 5) 5)
  ++ (if 5 ≤ d.natAbs then epAll (binEGk (d.natAbs - 5) 0) else [])
  ++ (if 0 < d.natAbs then [.ep (decide (d < 0))] else [])

/-- QT_CBF (42_syntax_elements.md R213). -/
def binsQtCbf (v pl : Bool) (ci : Nat) : Except Cause (List Bin) :=
  unlessFault (decide (4 < ci)) .valueRange (.ok [rb .qtCbf (5 * pl.toNat + ci) v])

/-- TRANS_SUBDIV (42_syntax_elements.md R215). -/
def binsTransSubdiv (v : Bool) (ci : Nat) : Except Cause (List Bin) :=
  unlessFault (decide (2 < ci)) .valueRange (.ok [rb .transSubdiv ci v])

/-- An unsigned filter magnitude of group `g` (42_syntax_elements.md R217). -/
def binsUvlc (g : Group) (val : Nat) : List Bin :=
  rb g 0 (decide (val > 0)) :: (if val > 0 then (binU (val - 1)).map (rb g 1) else [])

/-- A signed filter magnitude of group `g` (42_syntax_elements.md R218). -/
def binsSvlc (g : Group) (val : Int) : Except Cause (List Bin) :=
  unlessFault (decide (val = -256)) .valueRange
    (.ok (rb g 0 (decide (val ≠ 0)) ::
      (if val ≠ 0 then rb g 1 (decide (val < 0)) :: (binU (val.natAbs - 1)).map (rb g 2) else [])))

def effectSplitFlag (v atMax avL avA : Bool) (dL dA dC : Nat) : State → Except Cause State :=
  coding fun _ => binsSplitFlag v atMax avL avA dL dA dC

def effectSkipFlag (v avL skL avA skA : Bool) : State → Except Cause State :=
  coding fun _ => .ok (binsSkipFlag v avL skL avA skA)

/-- MERGE_FLAG (42_syntax_elements.md R203). -/
def effectMergeFlag (v : Bool) : State → Except Cause State := coding fun _ => .ok [rb .mergeFlag 0 v]

def effectMergeIdx (idx nc : Nat) : State → Except Cause State := coding fun _ => binsMergeIdx idx nc

def effectPartSize (part : Nat) (intra atMin : Bool) (log2Cb : Nat) (ampOk : Bool) : State → Except Cause State :=
  coding fun s => binsPartSize s.config part intra atMin log2Cb ampOk

/-- PRED_MODE (42_syntax_elements.md R206). -/
def effectPredMode (v : Bool) : State → Except Cause State := coding fun _ => .ok [rb .predMode 0 v]

def effectIntraDirLuma (mode c0 c1 c2 : Nat) : State → Except Cause State :=
  coding fun _ => binsIntraDirLuma mode c0 c1 c2

def effectIntraDirChroma (code : Nat) : State → Except Cause State := coding fun s => binsIntraDirChroma s.config code

def effectInterDir (dir ctd : Nat) (small : Bool) : State → Except Cause State := coding fun _ => binsInterDir dir ctd small

def effectRefIdx (ri nr : Nat) : State → Except Cause State := coding fun _ => binsRefIdx ri nr

def effectMvd (mvx mvy : Int) : State → Except Cause State := coding fun _ => .ok (binsMvd mvx mvy)

def effectDeltaQp (dqp : Int) : State → Except Cause State := coding fun s => .ok (binsDeltaQp s.config dqp)

def effectQtCbf (v pl : Bool) (ci : Nat) : State → Except Cause State := coding fun _ => binsQtCbf v pl ci

/-- QT_ROOT_CBF (42_syntax_elements.md R214). -/
def effectQtRootCbf (v : Bool) : State → Except Cause State := coding fun _ => .ok [rb .qtRootCbf 0 v]

def effectTransSubdiv (v : Bool) (ci : Nat) : State → Except Cause State := coding fun _ => binsTransSubdiv v ci

/-- TERM_BIN (42_syntax_elements.md R220). -/
def effectTermBin (v : Bool) : State → Except Cause State := coding fun _ => .ok [.trm v]

/-- ALF_FLAG (42_syntax_elements.md R216). -/
def effectAlfFlag (v : Bool) : State → Except Cause State := coding fun _ => .ok [rb .alfFlag 0 v]

def effectAlfUvlc (val : Nat) : State → Except Cause State := coding fun _ => .ok (binsUvlc .alfUvlc val)

def effectAlfSvlc (val : Int) : State → Except Cause State := coding fun _ => binsSvlc .alfSvlc val

/-- SAO_FLAG (42_syntax_elements.md R216). -/
def effectSaoFlag (v : Bool) : State → Except Cause State := coding fun _ => .ok [rb .saoFlag 0 v]

def effectSaoUvlc (val : Nat) : State → Except Cause State := coding fun _ => .ok (binsUvlc .saoUvlc val)

def effectSaoSvlc (val : Int) : State → Except Cause State := coding fun _ => binsSvlc .saoSvlc val

def execSplitFlag (v atMax avL avA : Bool) (dL dA dC : Nat) (s : State) : Out :=
  command (opcodeOf (.splitFlag v atMax avL avA dL dA dC)) (effectSplitFlag v atMax avL avA dL dA dC) s

def execSkipFlag (v avL skL avA skA : Bool) (s : State) : Out :=
  command (opcodeOf (.skipFlag v avL skL avA skA)) (effectSkipFlag v avL skL avA skA) s

def execMergeFlag (v : Bool) (s : State) : Out := command (opcodeOf (.mergeFlag v)) (effectMergeFlag v) s

def execMergeIdx (idx nc : Nat) (s : State) : Out := command (opcodeOf (.mergeIdx idx nc)) (effectMergeIdx idx nc) s

def execPartSize (part : Nat) (intra atMin : Bool) (log2Cb : Nat) (ampOk : Bool) (s : State) : Out :=
  command (opcodeOf (.partSize part intra atMin log2Cb ampOk)) (effectPartSize part intra atMin log2Cb ampOk) s

def execPredMode (v : Bool) (s : State) : Out := command (opcodeOf (.predMode v)) (effectPredMode v) s

def execIntraDirLuma (mode c0 c1 c2 : Nat) (s : State) : Out :=
  command (opcodeOf (.intraDirLuma mode c0 c1 c2)) (effectIntraDirLuma mode c0 c1 c2) s

def execIntraDirChroma (code : Nat) (s : State) : Out :=
  command (opcodeOf (.intraDirChroma code)) (effectIntraDirChroma code) s

def execInterDir (dir ctd : Nat) (small : Bool) (s : State) : Out :=
  command (opcodeOf (.interDir dir ctd small)) (effectInterDir dir ctd small) s

def execRefIdx (ri nr : Nat) (s : State) : Out := command (opcodeOf (.refIdx ri nr)) (effectRefIdx ri nr) s

def execMvd (mvx mvy : Int) (s : State) : Out := command (opcodeOf (.mvd mvx mvy)) (effectMvd mvx mvy) s

def execDeltaQp (dqp : Int) (s : State) : Out := command (opcodeOf (.deltaQp dqp)) (effectDeltaQp dqp) s

def execQtCbf (v pl : Bool) (ci : Nat) (s : State) : Out := command (opcodeOf (.qtCbf v pl ci)) (effectQtCbf v pl ci) s

def execQtRootCbf (v : Bool) (s : State) : Out := command (opcodeOf (.qtRootCbf v)) (effectQtRootCbf v) s

def execTransSubdiv (v : Bool) (ci : Nat) (s : State) : Out :=
  command (opcodeOf (.transSubdiv v ci)) (effectTransSubdiv v ci) s

def execTermBin (v : Bool) (s : State) : Out := command (opcodeOf (.termBin v)) (effectTermBin v) s

def execAlfFlag (v : Bool) (s : State) : Out := command (opcodeOf (.alfFlag v)) (effectAlfFlag v) s

def execAlfUvlc (val : Nat) (s : State) : Out := command (opcodeOf (.alfUvlc val)) (effectAlfUvlc val) s

def execAlfSvlc (val : Int) (s : State) : Out := command (opcodeOf (.alfSvlc val)) (effectAlfSvlc val) s

def execSaoFlag (v : Bool) (s : State) : Out := command (opcodeOf (.saoFlag v)) (effectSaoFlag v) s

def execSaoUvlc (val : Nat) (s : State) : Out := command (opcodeOf (.saoUvlc val)) (effectSaoUvlc val) s

def execSaoSvlc (val : Int) (s : State) : Out := command (opcodeOf (.saoSvlc val)) (effectSaoSvlc val) s

end Sys2Proof.Machine
end

