-- ==== Sys2Proof/Machine/Dispatch.lean ====
section
/-! DEFINITION. One arm per command: its meaning. -/

namespace Sys2Proof.Machine

def exec (i : Instr) (s : State) : Host.Outcome State Fault Refusal :=
  match i with
  | .resetEntropy st qp useRec => Sys2Proof.Machine.execResetEntropy st qp useRec s
  | .determineInitIndex st qp => Sys2Proof.Machine.execDetermineInitIndex st qp s
  | .updateContextTables st qp useRec fin => Sys2Proof.Machine.execUpdateContextTables st qp useRec fin s
  | .endSegment => Sys2Proof.Machine.execEndSegment s
  | .setConfig sbhEn ampEn lmEn disInter4x4 qpBdOffsetY maxLog2Tb => Sys2Proof.Machine.execSetConfig sbhEn ampEn lmEn disInter4x4 qpBdOffsetY maxLog2Tb s
  | .store slot => Sys2Proof.Machine.execStore slot s
  | .load slot => Sys2Proof.Machine.execLoad slot s
  | .loadPartial slot group => Sys2Proof.Machine.execLoadPartial slot group s
  | .snapWrite slot idx ps mps => Sys2Proof.Machine.execSnapWrite slot idx ps mps s
  | .splitFlag v atMax avL avA dL dA dC => Sys2Proof.Machine.execSplitFlag v atMax avL avA dL dA dC s
  | .skipFlag v avL skL avA skA => Sys2Proof.Machine.execSkipFlag v avL skL avA skA s
  | .mergeFlag v => Sys2Proof.Machine.execMergeFlag v s
  | .mergeIdx idx nc => Sys2Proof.Machine.execMergeIdx idx nc s
  | .partSize part intra atMin log2Cb ampOk => Sys2Proof.Machine.execPartSize part intra atMin log2Cb ampOk s
  | .predMode v => Sys2Proof.Machine.execPredMode v s
  | .intraDirLuma mode c0 c1 c2 => Sys2Proof.Machine.execIntraDirLuma mode c0 c1 c2 s
  | .intraDirChroma code => Sys2Proof.Machine.execIntraDirChroma code s
  | .interDir dir ctd small => Sys2Proof.Machine.execInterDir dir ctd small s
  | .refIdx ri nr => Sys2Proof.Machine.execRefIdx ri nr s
  | .mvd mvx mvy => Sys2Proof.Machine.execMvd mvx mvy s
  | .deltaQp dqp => Sys2Proof.Machine.execDeltaQp dqp s
  | .qtCbf v pl ci => Sys2Proof.Machine.execQtCbf v pl ci s
  | .qtRootCbf v => Sys2Proof.Machine.execQtRootCbf v s
  | .transSubdiv v ci => Sys2Proof.Machine.execTransSubdiv v ci s
  | .termBin v => Sys2Proof.Machine.execTermBin v s
  | .alfFlag v => Sys2Proof.Machine.execAlfFlag v s
  | .alfUvlc val => Sys2Proof.Machine.execAlfUvlc val s
  | .alfSvlc val => Sys2Proof.Machine.execAlfSvlc val s
  | .saoFlag v => Sys2Proof.Machine.execSaoFlag v s
  | .saoUvlc val => Sys2Proof.Machine.execSaoUvlc val s
  | .saoSvlc val => Sys2Proof.Machine.execSaoSvlc val s
  | .coefWrite idx val => Sys2Proof.Machine.execCoefWrite idx val s
  | .codeCoeff l2 pl scan ll => Sys2Proof.Machine.execCodeCoeff l2 pl scan ll s
  | .estRates l2 pl => Sys2Proof.Machine.execEstRates l2 pl s

end Sys2Proof.Machine
end

