-- ==== Sys2Proof/Machine/Fetch.lean ====
section
/-! DEFINITION. Taking one word from the command port: decode it, then run the command, or take the fault of a word that
is no command (30_encoding.md R91, R92, R96 steps 1 to 3). -/

namespace Sys2Proof.Machine

open Sys2Proof

/-- One command word taken from the port. A rejected word makes no check at all (60_exceptions.md R334). -/
def issue (w : CmdWord) (s : State) : Out :=
  match decode w with
  | .ok i => exec i s
  | .error e => command (opcodeByte w).toNat (fun _ => .error (causeOfDecodeError e)) s

/-- The next input of the host, with the port after it: a command runs, a hardware reset resets. With nothing to take
the block is idle and holds all its state (60_exceptions.md R345) [DEDUCED, safe: log 2]. -/
def takeInput (s : State) : Out :=
  match s.pending with
  | [] => .next s
  | .hardwareReset :: rest => .next { s with pending := rest }.hardwareReset
  | .command w :: rest => issue w { s with pending := rest }

/-- The command word that `w` (with `nbits` bits) stands for. -/
def fetchWord (nbits w : Nat) : CmdWord := BitVec.ofNat 64 (w % 2 ^ nbits)

end Sys2Proof.Machine
end

