-- ==== Sys2Proof/Machine/Step.lean ====
section
/-! DEFINITION. One step of the block: it takes one input of the host and completes it (10_state.md R30; 20_memory.md R74). -/

namespace Sys2Proof.Machine

def step (s : State) : Host.Outcome State Fault Refusal := takeInput s

/-- The state with the command word `w` next at the command port (log 1). -/
def State.withFetchWord (s : State) (nbits w : Nat) : State :=
  { s with pending := .command (fetchWord nbits w) :: s.pending }

end Sys2Proof.Machine
end

