-- ==== Sys2Proof/Machine/Assembler.lean ====
section
/-! DEFINITION. The textual syntax for commands (30_encoding.md R97) and word assembly (R98): a tool of the host, no part
of a step. -/

namespace Sys2Proof

/-- A field of a command: its name, its lowest bit and its width (30_encoding.md R94). -/
abbrev AsmField := String × Nat × Nat

/-- The mnemonics, their opcodes and their fields (30_encoding.md R93, R94). -/
def asmTable : List (String × Nat × List AsmField) :=
  [("RESET_ENTROPY", 0x01, [("ST", 0, 2), ("QP", 8, 8), ("REC", 16, 1)]),
   ("DETERMINE_INIT_INDEX", 0x02, [("ST", 0, 2), ("QP", 8, 8)]),
   ("UPDATE_CONTEXT_TABLES", 0x03, [("ST", 0, 2), ("QP", 8, 8), ("REC", 16, 1), ("FIN", 17, 1)]),
   ("END_SEGMENT", 0x04, []),
   ("SET_CONFIG", 0x08, [("SBH_EN", 0, 1), ("AMP_EN", 1, 1), ("LM_EN", 2, 1), ("DIS_INTER4X4", 3, 1),
     ("QP_BD_OFFSET_Y", 8, 6), ("MAX_LOG2_TB", 16, 3)])]
  ++ [("STORE", 0x10, [("SLOT", 0, 8)]), ("LOAD", 0x11, [("SLOT", 0, 8)]),
   ("LOAD_PARTIAL", 0x12, [("SLOT", 0, 8), ("GROUP", 8, 5)]),
   ("SNAP_WRITE", 0x13, [("SLOT", 0, 8), ("IDX", 16, 9), ("PS", 32, 6), ("MPS", 40, 1)])]
  ++ [("SPLIT_FLAG", 0x20, [("V", 0, 1), ("ATMAX", 1, 1), ("AVL", 2, 1), ("AVA", 3, 1), ("DL", 4, 3), ("DA", 7, 3),
     ("DC", 10, 3)]),
   ("SKIP_FLAG", 0x21, [("V", 0, 1), ("AVL", 1, 1), ("SKL", 2, 1), ("AVA", 3, 1), ("SKA", 4, 1)]),
   ("MERGE_FLAG", 0x22, [("V", 0, 1)]), ("MERGE_IDX", 0x23, [("IDX", 0, 3), ("NC", 4, 3)]),
   ("PART_SIZE", 0x24, [("PART", 0, 3), ("INTRA", 3, 1), ("ATMIN", 4, 1), ("LOG2CB", 5, 3), ("AMPOK", 8, 1)]),
   ("PRED_MODE", 0x25, [("V", 0, 1)]),
   ("INTRA_DIR_LUMA", 0x26, [("MODE", 0, 6), ("C0", 8, 6), ("C1", 16, 6), ("C2", 24, 6)]),
   ("INTRA_DIR_CHROMA", 0x27, [("CODE", 0, 3)]),
   ("INTER_DIR", 0x28, [("DIR", 0, 2), ("CTD", 2, 2), ("SMALL", 4, 1)])]
  ++ [("REF_IDX", 0x29, [("RI", 0, 4), ("NR", 4, 5)]), ("MVD", 0x2A, [("MVX", 0, 16), ("MVY", 16, 16)]),
   ("DELTA_QP", 0x2B, [("DQP", 0, 8)]), ("QT_CBF", 0x2C, [("V", 0, 1), ("PL", 1, 1), ("CI", 2, 3)]),
   ("QT_ROOT_CBF", 0x2D, [("V", 0, 1)]), ("TRANS_SUBDIV", 0x2E, [("V", 0, 1), ("CI", 1, 2)]),
   ("TERM_BIN", 0x2F, [("V", 0, 1)])]
  ++ [("ALF_FLAG", 0x30, [("V", 0, 1)]), ("ALF_UVLC", 0x31, [("VAL", 0, 8)]), ("ALF_SVLC", 0x32, [("VAL", 0, 9)]),
   ("SAO_FLAG", 0x33, [("V", 0, 1)]), ("SAO_UVLC", 0x34, [("VAL", 0, 8)]), ("SAO_SVLC", 0x35, [("VAL", 0, 9)]),
   ("COEF_WRITE", 0x40, [("IDX", 0, 10), ("VAL", 16, 16)]),
   ("CODE_COEFF", 0x41, [("L2", 0, 3), ("PL", 3, 1), ("SCAN", 4, 2), ("LL", 6, 1)]),
   ("EST_RATES", 0x50, [("L2", 0, 3), ("PL", 3, 1)])]

/-- The value of a digit in base 16. -/
def digitValue (c : Char) : Option Nat :=
  if '0' ≤ c ∧ c ≤ '9' then some (c.toNat - 48)
  else if 'a' ≤ c ∧ c ≤ 'f' then some (c.toNat - 87)
  else if 'A' ≤ c ∧ c ≤ 'F' then some (c.toNat - 55)
  else none

/-- Digits in the given base, after the value `acc`. -/
def parseDigits (base : Nat) : List Char → Nat → Option Nat
  | [], acc => some acc
  | c :: cs, acc =>
    match digitValue c with
    | some d => if d < base then parseDigits base cs (base * acc + d) else none
    | none => none

/-- A number without sign: hexadecimal with a 0x prefix, else decimal (30_encoding.md R97). -/
def parseUnsigned : List Char → Option Nat
  | '0' :: 'x' :: c :: cs => parseDigits 16 (c :: cs) 0
  | c :: cs => parseDigits 10 (c :: cs) 0
  | [] => none

/-- A number, or a slice type letter (30_encoding.md R97). -/
def parseValue (field : String) : List Char → Option Int
  | '-' :: cs => (parseUnsigned cs).map fun n => -(n : Int)
  | ['I'] => if field = "ST" then some 0 else none
  | ['P'] => if field = "ST" then some 1 else none
  | ['B'] => if field = "ST" then some 2 else none
  | cs => (parseUnsigned cs).map fun n => (n : Int)

/-- The parts of a text between the occurrences of `sep`. -/
def splitAtChar (sep : Char) : List Char → List (List Char)
  | [] => [[]]
  | c :: cs =>
    match splitAtChar sep cs with
    | [] => [[c]]
    | p :: ps => if c = sep then [] :: p :: ps else (c :: p) :: ps

/-- One `FIELD=value` pair in place (30_encoding.md R97, R98). R97 gives a sign to signed fields only and does not say what
a negative number for an unsigned field means: it is cut to the field's width like any other
[DESIGN CHOICE, safe: log 20]. -/
def asmFieldBits (fields : List AsmField) (cs : List Char) : Option Nat :=
  match splitAtChar '=' cs with
  | [name, val] =>
    match fields.find? fun f => f.1 == String.ofList name with
    | some f => (parseValue f.1 val).map fun v => placeS v f.2.1 f.2.2
    | none => none
  | _ => none

/-- The pairs of one command. The values of a field given twice are combined by OR [DESIGN CHOICE, safe: log 20]. -/
def asmPayload (fields : List AsmField) : List (List Char) → Option Nat
  | [] => some 0
  | p :: ps =>
    match asmFieldBits fields p, asmPayload fields ps with
    | some a, some b => some (a ||| b)
    | _, _ => none

/-- One command as text: the mnemonic, then `FIELD=value` pairs separated by commas; an omitted field is 0
(30_encoding.md R97, R98). -/
def assembleChars (cs : List Char) : Option CmdWord :=
  let name := String.ofList (cs.takeWhile (· ≠ ' '))
  let rest := (cs.dropWhile (· ≠ ' ')).filter (· ≠ ' ')
  match asmTable.find? fun r => r.1 == name with
  | some r =>
    (asmPayload r.2.2 (if rest = [] then [] else splitAtChar ',' rest)).map fun p =>
      BitVec.ofNat 64 (r.2.1 * 2 ^ 56 + p)
  | none => none

/-- One command as text (30_encoding.md R97). -/
def assemble (text : String) : Option CmdWord := assembleChars text.toList

end Sys2Proof
end

