-- ==== Sys2Proof/Machine/Ports.lean ====
section
/-! DEFINITION. What the outside reads: the REG read map (20_memory.md R72, R73) and the records of the BIN stream (R75). -/

namespace Sys2Proof.Machine

open Sys2Proof

/-- Word `k` of a table of pairs: entry k / 2, bin value k % 2 (20_memory.md R72). -/
def pairWord (t : List (Cost × Cost)) (k : Nat) : RegWord :=
  if k % 2 = 0 then (t.getD (k / 2) (0, 0)).1 else (t.getD (k / 2) (0, 0)).2

/-- The estimator words 0x200 to 0x2C1 (20_memory.md R72). -/
def EstTables.word (t : EstTables) (a : Nat) : RegWord :=
  if a < 0x214 then pairWord t.cbf (a - 0x200)
  else if a < 0x216 then pairWord t.rootCbf (a - 0x214)
  else if a < 0x21E then pairWord t.sigGroup (a - 0x216)
  else if a < 0x272 then pairWord t.sig (a - 0x21E)
  else if a < 0x2A2 then pairWord t.gt1 (a - 0x272)
  else if a < 0x2AE then pairWord t.gt2 (a - 0x2A2)
  else if a < 0x2B8 then t.lastX.getD (a - 0x2AE) 0
  else t.lastY.getD (a - 0x2B8) 0

/-- A read of REG word `addr` (20_memory.md R72). An address not listed reads as 0. While BANK_VALID = 0 a context
word, and before the first EST_RATES an estimator word, is a free value
(93_implementation_defined.md U1, U3) [DESIGN CHOICE, safe: log 7]. -/
def State.regRead (s : State) (addr : BitVec 12) : RegWord :=
  let a := addr.toNat
  if a = 0x000 then s.statusWord
  else if a = 0x001 then s.fault.word
  else if a = 0x002 then s.config.word
  else if a = 0x003 then s.slice.word
  else if a = 0x004 then s.initChoiceWord
  else if a = 0x005 then s.initCostP
  else if a = 0x006 then s.initCostB
  else if a = 0x007 then s.cmdcnt
  else if a = 0x008 then s.snapValidWord
  else if 0x100 ≤ a ∧ a < 0x100 + s.build.numCtx then
    if s.bankValid then (s.ctx.getD (a - 0x100) Ctx.atReset).word
    else BitVec.ofNat 32 (Config.unspecifiedCtx s.completions.length (a - 0x100)).toNat
  else if 0x200 ≤ a ∧ a < 0x2C2 then
    if s.estComputed then s.est.word a else Config.unspecifiedEst s.completions.length a
  else 0

/-- The 32-bit record of an event (20_memory.md R75). -/
def BinEvent.record : BinEvent → RegWord
  | .start => BitVec.ofNat 32 0
  | .finish => BitVec.ofNat 32 1
  | .reg bin ctxIdx pStateIdx valMps =>
    BitVec.ofNat 32 (2 + bitIn bin 4 + ctxIdx.toNat * 2 ^ 5 + pStateIdx.toNat * 2 ^ 14 + bitIn valMps 20)
  | .ep bin => BitVec.ofNat 32 (3 + bitIn bin 4)
  | .trm bin => BitVec.ofNat 32 (4 + bitIn bin 4)
  | .copyTo slot => BitVec.ofNat 32 (5 + slot.toNat * 2 ^ 4)
  | .copyFrom slot => BitVec.ofNat 32 (6 + slot.toNat * 2 ^ 4)

/-- The four bytes of a 32-bit word, where a transport carries it as bytes: byte 0 holds bits 7:0 (20_memory.md R78). -/
def bytesOfRegWord (w : RegWord) : List (BitVec 8) := littleEndian 4 w.toNat

/-- Four bytes as a 32-bit word, byte 0 in bits 7:0 (20_memory.md R78). -/
def regWordOfBytes (b0 b1 b2 b3 : BitVec 8) : RegWord := b3 ++ b2 ++ b1 ++ b0

/-- A REG read over a byte transport (20_memory.md R72, R78). -/
def State.regReadBytes (s : State) (addr : BitVec 12) : List (BitVec 8) := bytesOfRegWord (s.regRead addr)

/-- An event over a byte transport (20_memory.md R75, R78). -/
def BinEvent.recordBytes (e : BinEvent) : List (BitVec 8) := bytesOfRegWord e.record

/-- The bit a command's completion carries to the host, read from the state after it (60_exceptions.md R337). -/
def State.completionBit (s : State) : Bool := s.faulted

end Sys2Proof.Machine
end

