-- ==== Sys2Proof/Safety.lean ====
section
/-! DEFINITION. The terms claims are stated in: when the block takes a command, what a command that codes bins or raises a
fault leaves, the invariants of the state, and the tables of the spec that statements quote. -/

namespace Sys2Proof

/-- The commands whose effect is to code bins (42_syntax_elements.md R200; 43_residual.md R261). -/
def Instr.codesBins : Instr → Bool
  | .resetEntropy _ _ _ | .determineInitIndex _ _ | .updateContextTables _ _ _ _ | .endSegment => false
  | .setConfig _ _ _ _ _ _ | .store _ | .load _ | .loadPartial _ _ | .snapWrite _ _ _ _ => false
  | .coefWrite _ _ | .estRates _ _ => false
  | .splitFlag _ _ _ _ _ _ _ | .skipFlag _ _ _ _ _ | .mergeFlag _ | .mergeIdx _ _ | .partSize _ _ _ _ _ => true
  | .predMode _ | .intraDirLuma _ _ _ _ | .intraDirChroma _ | .interDir _ _ _ | .refIdx _ _ | .mvd _ _ => true
  | .deltaQp _ | .qtCbf _ _ _ | .qtRootCbf _ | .transSubdiv _ _ | .termBin _ | .alfFlag _ | .alfUvlc _ => true
  | .alfSvlc _ | .saoFlag _ | .saoUvlc _ | .saoSvlc _ | .codeCoeff _ _ _ _ => true

/-- The commands that run without a valid bank (10_state.md R33; 40_context_bank.md R130, R146; 43_residual.md R260). -/
def Instr.needsNoBank : Instr → Bool
  | .resetEntropy _ _ _ | .setConfig _ _ _ _ _ _ | .load _ | .snapWrite _ _ _ _ | .coefWrite _ _ => true
  | .determineInitIndex _ _ | .updateContextTables _ _ _ _ | .endSegment | .store _ | .loadPartial _ _ => false
  | .splitFlag _ _ _ _ _ _ _ | .skipFlag _ _ _ _ _ | .mergeFlag _ | .mergeIdx _ _ | .partSize _ _ _ _ _ => false
  | .predMode _ | .intraDirLuma _ _ _ _ | .intraDirChroma _ | .interDir _ _ _ | .refIdx _ _ | .mvd _ _ => false
  | .deltaQp _ | .qtCbf _ _ _ | .qtRootCbf _ | .transSubdiv _ _ | .termBin _ | .alfFlag _ | .alfUvlc _ => false
  | .alfSvlc _ | .saoFlag _ | .saoUvlc _ | .saoSvlc _ | .codeCoeff _ _ _ _ | .estRates _ _ => false

/-- A syntax-element command with its value at zero: what is left is what the decoder knows (42_syntax_elements.md R219). -/
def Instr.withoutValue : Instr → Instr
  | .splitFlag _ atMax avL avA dL dA dC => .splitFlag false atMax avL avA dL dA dC
  | .skipFlag _ avL skL avA skA => .skipFlag false avL skL avA skA
  | .mergeFlag _ => .mergeFlag false
  | .mergeIdx _ nc => .mergeIdx 0 nc
  | .partSize _ intra atMin log2Cb ampOk => .partSize 0 intra atMin log2Cb ampOk
  | .predMode _ => .predMode false
  | .intraDirLuma _ c0 c1 c2 => .intraDirLuma 0 c0 c1 c2
  | .intraDirChroma _ => .intraDirChroma 0
  | .interDir _ ctd small => .interDir 0 ctd small
  | .refIdx _ nr => .refIdx 0 nr
  | .mvd _ _ => .mvd 0 0
  | .deltaQp _ => .deltaQp 0
  | .qtCbf _ pl ci => .qtCbf false pl ci
  | .qtRootCbf _ => .qtRootCbf false
  | .transSubdiv _ ci => .transSubdiv false ci
  | .termBin _ => .termBin false
  | .alfFlag _ => .alfFlag false
  | .alfUvlc _ => .alfUvlc 0
  | .alfSvlc _ => .alfSvlc 0
  | .saoFlag _ => .saoFlag false
  | .saoUvlc _ => .saoUvlc 0
  | .saoSvlc _ => .saoSvlc 0
  | .resetEntropy st qp useRec => .resetEntropy st qp useRec
  | .determineInitIndex st qp => .determineInitIndex st qp
  | .updateContextTables st qp useRec fin => .updateContextTables st qp useRec fin
  | .endSegment => .endSegment
  | .setConfig sbhEn ampEn lmEn dis qpBd maxTb => .setConfig sbhEn ampEn lmEn dis qpBd maxTb
  | .store slot => .store slot
  | .load slot => .load slot
  | .loadPartial slot group => .loadPartial slot group
  | .snapWrite slot idx ps mps => .snapWrite slot idx ps mps
  | .coefWrite idx val => .coefWrite idx val
  | .codeCoeff l2 pl scan ll => .codeCoeff l2 pl scan ll
  | .estRates l2 pl => .estRates l2 pl

/-- The slice type field of a command that has one is 3 (30_encoding.md R96 step 4). -/
def Instr.sliceTypeIs3 : Instr → Bool
  | .resetEntropy st _ _ => decide (3 ≤ st)
  | .determineInitIndex st _ => decide (3 ≤ st)
  | .updateContextTables st _ _ _ => decide (3 ≤ st)
  | _ => false

/-- The slot a command needs valid (40_context_bank.md R144 to R146). -/
def Instr.readsSlot : Instr → Option Nat
  | .load slot | .loadPartial slot _ | .snapWrite slot _ _ _ => some slot
  | _ => none

end Sys2Proof

namespace Sys2Proof.Machine

open Sys2Proof

/-- The block takes every command: it is not faulted, and its capacity check passed (60_exceptions.md R334). -/
def State.takes (s : State) : Prop := s.faulted = false ∧ s.fault.cause ≠ .capacity

/-- The block takes commands and its bank is valid (10_state.md R33). -/
def State.ready (s : State) : Prop := s.takes ∧ s.bankValid = true

/-- The state after a command with opcode `op` that faults with cause `c`: what 60_exceptions.md R332 writes, CMDCNT and
the completion, nothing else (R331, R333). -/
def State.afterFault (s : State) (op : Nat) (c : Cause) : State :=
  { s with
    fault := if s.faulted then s.fault else ⟨c, BitVec.ofNat 8 op⟩
    faulted := true
    faultSticky := true
    cmdcnt := s.cmdcnt + 1
    completions := s.completions ++ [true] }

/-- The state after a command that commits and codes the bins `bins`: CTX, the BIN stream, EST_VALID (cleared by a regular
bin, 44_rate_estimator.md R314), CMDCNT and the completion, nothing else. -/
def State.afterBins (s : State) (bins : List Bin) : State :=
  { s with
    ctx := (codeBins bins s.ctx).1
    bin := s.bin ++ (codeBins bins s.ctx).2
    estValid := s.estValid && !bins.any Bin.isReg
    cmdcnt := s.cmdcnt + 1
    completions := s.completions ++ [s.faulted] }

/-- The state after a command that a faulted block rejects (60_exceptions.md R334). -/
def State.afterRejection (s : State) : State :=
  { s with cmdcnt := s.cmdcnt + 1, completions := s.completions ++ [s.faulted] }

/-- A context in the range the spec gives it (10_state.md R32). -/
def Ctx.inRange (x : Ctx) : Prop := x.pStateIdx.toNat ≤ 62

/-- A bank of `n` contexts, every one in range (10_state.md R31, R32). -/
def bankOk (n : Nat) (bank : List Ctx) : Prop := bank.length = n ∧ ∀ x ∈ bank, x.inRange

/-- The shape of the state: what every field holds in every state a run reaches. -/
structure State.Inv (s : State) : Prop where
  build : s.build.legal = true
  ctx : bankOk s.build.numCtx s.ctx
  slots : s.snap.length = s.build.numSnapshots
  slotBanks : ∀ sl ∈ s.snap, bankOk s.build.numCtx sl.ctx
  /-- a slot becomes valid only through STORE, which needs a valid bank (40_context_bank.md R146) -/
  slotsNeedBank : ∀ sl ∈ s.snap, sl.valid = true → s.bankValid = true
  coef : s.coef.wf
  /-- the legal values of CONFIG (10_state.md R37) -/
  config : s.config.qpBdOffsetY.toNat ≤ 48 ∧ 2 ≤ s.config.maxLog2Tb.toNat ∧ s.config.maxLog2Tb.toNat ≤ 5
  /-- SLICE_TYPE, INIT_TYPE and INIT_CHOICE.TABLE are 0, 1 or 2 (10_state.md R38, R39) -/
  tables : s.slice.sliceType.toNat ≤ 2 ∧ s.slice.initType.toNat ≤ 2 ∧ s.initTable.toNat ≤ 2

/-- The fault registers agree (10_state.md R45; 60_exceptions.md R330, R332, R334). -/
structure State.FaultInv (s : State) : Prop where
  /-- FAULT_STICKY is set by any fault and cleared by hardware reset only -/
  sticky : s.faulted = true → s.faultSticky = true
  /-- a set FAULT_STICKY has a recorded cause -/
  cause : s.faultSticky = true ↔ s.fault.cause ≠ .none
  /-- a block whose capacity check failed stays faulted -/
  capacity : s.fault.cause = .capacity → s.faulted = true
  /-- the capacity check is the only source of that cause (70_reset_and_hazards.md R363) -/
  capacityBuild : s.fault.cause = .capacity ↔ s.build.maxNumCtx < s.build.numCtx

/-- EST_VALID means what 44_rate_estimator.md R314 says: the tables are those EST_RATES would compute now, for the L2 and
PL of the last one. -/
structure State.EstInv (s : State) : Prop where
  fresh : s.estValid = true → ∃ l2 pl, badBlockSize l2 pl = false ∧ s.est = estimate s.build s.ctx l2 pl
  computed : s.estValid = true → s.estComputed = true ∧ s.bankValid = true

/-- Commands in order, one after the other. -/
def runAll : List Instr → State → Option State
  | [], s => some s
  | i :: is, s =>
    match exec i s with
    | .next t => runAll is t
    | .fault _ => none
    | .refused _ => none

/-- A REG event (20_memory.md R75). -/
def BinEvent.isReg : BinEvent → Bool
  | .reg _ _ _ _ => true
  | _ => false

/-- The opcodes of 30_encoding.md R93. -/
def r93Opcodes : List Nat :=
  [0x01, 0x02, 0x03, 0x04, 0x08, 0x10, 0x11, 0x12, 0x13, 0x20, 0x21, 0x22, 0x23, 0x24, 0x25, 0x26, 0x27, 0x28, 0x29]
  ++ [0x2A, 0x2B, 0x2C, 0x2D, 0x2E, 0x2F, 0x30, 0x31, 0x32, 0x33, 0x34, 0x35, 0x40, 0x41, 0x50]

/-- The masks of defined bits of 30_encoding.md R95, in the order of `r93Opcodes`. -/
def r95Masks : List Nat :=
  [0x0001FF03, 0x0000FF03, 0x0003FF03, 0x00000000, 0x00073F0F, 0x000000FF, 0x000000FF, 0x00001FFF]
  ++ [0x0000013F01FF00FF, 0x00001FFF, 0x0000001F, 0x00000001, 0x00000077, 0x000001FF, 0x00000001, 0x3F3F3F3F]
  ++ [0x00000007, 0x0000001F, 0x000001FF, 0xFFFFFFFF, 0x000000FF, 0x0000001F, 0x00000001, 0x00000007, 0x00000001]
  ++ [0x00000001, 0x000000FF, 0x000001FF, 0x00000001, 0x000000FF, 0x000001FF, 0xFFFF03FF, 0x0000007F, 0x0000000F]

/-- Bit `b` of the operand bits is defined for opcode `op` (30_encoding.md R95). -/
def definedBit (op b : Nat) : Bool := (r95Masks.getD (r93Opcodes.idxOf op) 0).testBit b

/-- The scan positions of the nonzero coefficients of sub-block `i`, descending (43_residual.md R262, R272). -/
def Block.nonzeros (k : Block) (i : Nat) : List Nat :=
  ((List.range 16).reverse.map fun n => 16 * i + n).filter fun p => decide (k.coefAt p ≠ 0)

/-- In every sub-block whose nonzero coefficients span SBH_THRESHOLD positions, the magnitudes sum to an odd number exactly
when the coefficient at the lowest nonzero scan position is negative (43_residual.md R275, R276, R281). -/
def Block.hiddenSignsFit (k : Block) : Prop :=
  ∀ i < k.ns * k.ns, k.nonzeros i ≠ [] →
    k.build.sbhThreshold ≤ (k.nonzeros i).headD 0 - (k.nonzeros i).getLastD 0 →
      (((k.nonzeros i).map fun p => (k.coefAt p).natAbs).sum % 2 = 1 ↔ k.coefAt ((k.nonzeros i).getLastD 0) < 0)

/-- The bin strings of the table of 42_syntax_elements.md R205. `amp` and `bin2` choose the column of an inter CU: bin 2 is
present at the minimum size unless 4×4 is off. Absent entries are partitions the column does not have. -/
def r205Bins (intra atMin amp bin2 : Bool) (part : Nat) : Option (List Bin) :=
  match intra, part with
  | true, 0 => some (if atMin then [.reg 8 true] else [])
  | true, 3 => if atMin then some [.reg 8 false] else none
  | true, _ => none
  | false, 0 => some [.reg 8 true]
  | false, 1 => some ([.reg 8 false, .reg 9 true] ++ if amp then [.reg 11 true] else [])
  | false, 2 => some ([.reg 8 false, .reg 9 false] ++
      if bin2 then [.reg 10 true] else if amp then [.reg 11 true] else [])
  | false, 3 => if bin2 then some [.reg 8 false, .reg 9 false, .reg 10 false] else none
  | false, 4 => if amp then some [.reg 8 false, .reg 9 true, .reg 11 false, .ep false] else none
  | false, 5 => if amp then some [.reg 8 false, .reg 9 true, .reg 11 false, .ep true] else none
  | false, 6 => if amp then some [.reg 8 false, .reg 9 false, .reg 11 false, .ep false] else none
  | false, 7 => if amp then some [.reg 8 false, .reg 9 false, .reg 11 false, .ep true] else none
  | false, _ => none

/-- The bits of `v` from bit n-1 down to bit 0 as bypass bins (40_context_bank.md R136). -/
def epBitsOf (v n : Nat) : List Bin := (List.range n).reverse.map fun k => .ep (v.testBit k)

/-- The bits of `v` from bit n-1 down to bit 0. -/
def bitsDown (v n : Nat) : List Bool := (List.range n).reverse.map v.testBit

/-- The Exp-Golomb string of order k (41_binarization.md R182): `q` ones, where the values with `q` ones start at
2^k * (2^q - 1), a 0, and the distance from that start in k + q bits. -/
def r182Bins (v k : Nat) : List Bool :=
  let q := Nat.log2 (v / 2 ^ k + 1)
  List.replicate q true ++ false :: bitsDown (v - 2 ^ k * (2 ^ q - 1)) (k + q)

/-- The Golomb-Rice string (41_binarization.md R184): below 3 * 2^r the quotient in unary and the remainder in r bits; from
there on three ones before an Exp-Golomb prefix and suffix of order r. -/
def r184Bins (sym r : Nat) : List Bool :=
  if sym < 3 * 2 ^ r then List.replicate (sym / 2 ^ r) true ++ false :: bitsDown sym r
  else List.replicate 3 true ++ r182Bins (sym - 3 * 2 ^ r) r

/-! ### Residual coding read off the coefficients (43_residual.md)

No working state is carried from bin to bin: every flag, context and parameter is given by the coefficients it depends on. -/

/-- What the rules of one CODE_COEFF read: `coeffs x y` is the coefficient in column x and row y (43_residual.md R261). -/
structure Residual where
  build : Build
  l2 : Nat
  chroma : Bool
  scan : Nat
  hideOk : Bool
  coeffs : Nat → Nat → Int

/-- `scan(n, SCAN)` (43_residual.md R263): anti-diagonals with x rising, rows, or columns. -/
def r263Scan (n scan : Nat) : List (Nat × Nat) :=
  if scan = 0 then
    (List.range (2 * n - 1)).flatMap fun d =>
      ((List.range n).filter fun x => decide (x ≤ d ∧ d < x + n)).map fun x => (x, d - x)
  else (List.range (n * n)).map fun j => if scan = 1 then (j % n, j / n) else (j / n, j % n)

/-- Sub-block i, in units of sub-blocks (43_residual.md R262, R264). -/
def Residual.sub (k : Residual) (i : Nat) : Nat × Nat := (r263Scan (2 ^ (k.l2 - 2)) k.scan).getD i (0, 0)

/-- Position n of sub-block i, in coefficients (43_residual.md R264). -/
def Residual.pos (k : Residual) (i n : Nat) : Nat × Nat :=
  let q := (r263Scan 4 k.scan).getD n (0, 0)
  (4 * (k.sub i).1 + q.1, 4 * (k.sub i).2 + q.2)

/-- The coefficient at position n of sub-block i. -/
def Residual.at (k : Residual) (i n : Nat) : Int := k.coeffs (k.pos i n).1 (k.pos i n).2

/-- The positions of the nonzero coefficients of sub-block i, descending: S of 43_residual.md R272. -/
def Residual.nonzero (k : Residual) (i : Nat) : List Nat :=
  (List.range 16).reverse.filter fun n => decide (k.at i n ≠ 0)

/-- `csbf(sx, sy)` (43_residual.md R262): a sub-block of the block with a nonzero coefficient. -/
def Residual.coded (k : Residual) (sx sy : Nat) : Bool :=
  decide (sx < 2 ^ (k.l2 - 2) ∧ sy < 2 ^ (k.l2 - 2)) &&
    (List.range 16).any fun m => decide (k.coeffs (4 * sx + m % 4) (4 * sy + m / 4) ≠ 0)

/-- The last sub-block with a nonzero coefficient, if there is one (43_residual.md R262). -/
def Residual.lastSub? (k : Residual) : Option Nat :=
  (List.range (4 ^ (k.l2 - 2))).reverse.find? fun i => decide (k.nonzero i ≠ [])

/-- One coordinate of the last position, prefix and suffix (43_residual.md R265, R266), LAST_X from context 88 and LAST_Y
from 106. -/
def Residual.lastCoord (k : Residual) (base v : Nat) : List Bin × List Bin :=
  let g := ([0, 1, 2, 3, 4, 4, 5, 5, 6, 6, 6, 6, 7, 7, 7, 7] ++ List.replicate 8 8 ++ List.replicate 8 9).getD v 0
  let start := [0, 1, 2, 3, 4, 6, 8, 12, 16, 24].getD g 0
  let ctx := fun j =>
    base + if k.chroma then 15 + j / 2 ^ (k.l2 - 2) else 3 * (k.l2 - 2) + (k.l2 - 1) / 4 + j / 2 ^ ((k.l2 + 1) / 4)
  (((List.range g).map fun j => .reg (ctx j) true) ++ (if g < 2 * k.l2 - 1 then [.reg (ctx g) false] else []),
    if 3 < g then epBitsOf (v - start) (g / 2 - 1) else [])

/-- The last position (43_residual.md R265): prefixes, then suffixes; the scans of LAST_SWAP swap the coordinates. -/
def Residual.lastBins (k : Residual) (x y : Nat) : List Bin :=
  let swap := decide (k.scan = 2 ∨ (k.scan = 1 ∧ k.build.lastSwap = .horAndVert))
  let u := k.lastCoord 88 (if swap then y else x)
  let v := k.lastCoord 106 (if swap then x else y)
  u.1 ++ v.1 ++ u.2 ++ v.2

/-- The context of a significance flag at (x, y), in bins of SIG (43_residual.md R269, R270). -/
def Residual.sigCtx (k : Residual) (x y : Nat) : Nat :=
  let right := k.coded (x / 4 + 1) (y / 4)
  let below := k.coded (x / 4) (y / 4 + 1)
  let near := fun d => if d = 0 then 2 else if d = 1 then 1 else 0
  let pattern :=
    match right, below with
    | false, false => if x % 4 + y % 4 = 0 then 2 else if x % 4 + y % 4 < 3 then 1 else 0
    | true, false => near (y % 4)
    | false, true => near (x % 4)
    | true, true => 2
  (if k.chroma then 27 else 0) +
    if k.l2 = 2 then [0, 1, 4, 5, 2, 3, 4, 5, 6, 6, 8, 8, 7, 7, 8].getD (4 * y + x) 0
    else if x = 0 ∧ y = 0 then 0
    else if k.chroma then pattern + (if k.l2 = 3 then 9 else 12)
    else pattern + (if x < 4 ∧ y < 4 then 0 else 3) + (if k.l2 = 3 then (if k.scan = 0 then 9 else 15) else 21)

/-- The coded-sub-block flag and the significance flags of sub-block i, where `last` is the last sub-block with a nonzero
coefficient (43_residual.md R262, R268, R271). -/
def Residual.flagBins (k : Residual) (last i : Nat) : List Bin :=
  let sx := (k.sub i).1
  let sy := (k.sub i).2
  let flagged := decide (0 < i ∧ i < last)
  let top := if i = last then (k.nonzero i).headD 0 else 16
  let positions :=
    if flagged = true ∧ k.nonzero i = [] then []
    else (List.range top).reverse.filter fun n => !(flagged && decide (n = 0 ∧ k.nonzero i = [0]))
  (if flagged then
    [.reg (42 + (if k.coded (sx + 1) sy ∨ k.coded sx (sy + 1) then 1 else 0) + (if k.chroma then 2 else 0)) (k.coded sx sy)]
   else []) ++
  positions.map fun n => .reg (46 + k.sigCtx (k.pos i n).1 (k.pos i n).2) (decide (k.at i n ≠ 0))

/-- The magnitudes of the nonzero coefficients of sub-block i, in coding order (43_residual.md R262). -/
def Residual.magnitudes (k : Residual) (i : Nat) : List Nat := (k.nonzero i).map fun n => (k.at i n).natAbs

/-- Those that get a greater-than-1 flag (43_residual.md R273). -/
def Residual.flagged (k : Residual) (i : Nat) : List Nat := (k.magnitudes i).take k.build.gt1MaxPerGroup

/-- ctxSet of sub-block i (43_residual.md R279): the sub-block with coefficients that is coded before it decides. -/
def Residual.ctxSet (k : Residual) (last i : Nat) : Nat :=
  let before := (List.range (last + 1)).find? fun j => decide (i < j ∧ k.nonzero j ≠ [])
  (if 0 < i ∧ k.chroma = false then 2 else 0) +
    match before with
    | some j => if (k.flagged j).any (fun a => decide (1 < a)) then 1 else 0
    | none => 0

/-- The magnitudes that get a remaining level, each with its base level (43_residual.md R277). -/
def Residual.levels (k : Residual) (i : Nat) : List (Nat × Nat) :=
  let first := (k.flagged i).findIdx? fun a => decide (1 < a)
  (((k.magnitudes i).zipIdx).map fun p =>
    (p.1, if p.2 < k.build.gt1MaxPerGroup then (if some p.2 = first then 3 else 2) else 1)).filter fun p => decide (p.2 ≤ p.1)

/-- cRice after the remaining levels of the magnitudes given (43_residual.md R278). -/
def Residual.riceAfter (k : Residual) (as : List Nat) : Nat :=
  as.foldl (fun r a => if 3 * 2 ^ r < a then min (r + 1) k.build.riceMax else r) 0

/-- The magnitudes whose remaining levels come before sub-block i and count for its cRice (43_residual.md R278). -/
def Residual.riceBefore (k : Residual) (last i : Nat) : List Nat :=
  match k.build.riceReset with
  | .perSubset => []
  | .perBlock => ((List.range (last + 1)).reverse.filter fun j => decide (i < j)).flatMap fun j => (k.levels j).map Prod.fst

/-- The levels of sub-block i (43_residual.md R272 to R278): greater-than-1 flags, the greater-than-2 flag, signs, remaining
levels. -/
def Residual.levelBins (k : Residual) (last i : Nat) : List Bin :=
  let set := k.ctxSet last i
  let signs := (k.nonzero i).map fun n => decide (k.at i n < 0)
  let hidden := k.hideOk && decide (k.build.sbhThreshold ≤ (k.nonzero i).headD 0 - (k.nonzero i).getLastD 0)
  List.flatten
    [((k.flagged i).zipIdx).map fun p =>
        .reg (124 + 4 * set + (if ((k.flagged i).take p.2).any (fun a => decide (1 < a)) then 0 else min (p.2 + 1) 3)
          + (if k.chroma then 16 else 0)) (decide (1 < p.1)),
      (((k.flagged i).filter fun a => decide (1 < a)).take 1).map fun a =>
        .reg (148 + set + (if k.chroma then 4 else 0)) (decide (2 < a)),
      (if hidden then signs.dropLast else signs).map .ep,
      ((k.levels i).zipIdx).flatMap fun p =>
        (r184Bins (p.1.1 - p.1.2) (k.riceAfter (k.riceBefore last i ++ ((k.levels i).take p.2).map Prod.fst))).map .ep]

/-- The bins of a block (43_residual.md R262): none for an all-zero one; else the last position and, from the last sub-block
with a nonzero coefficient down to sub-block 0, flags and levels. -/
def Residual.bins (k : Residual) : List Bin :=
  match k.lastSub? with
  | none => []
  | some last =>
    let p := k.pos last ((k.nonzero last).headD 0)
    k.lastBins p.1 p.2 ++
      (List.range (last + 1)).reverse.flatMap fun i =>
        k.flagBins last i ++ if k.nonzero i = [] then [] else k.levelBins last i

/-- What the rules read of one CODE_COEFF in state `s` (43_residual.md R261). -/
def State.residual (s : State) (l2 : Nat) (pl : Bool) (scan : Nat) (ll : Bool) : Residual where
  build := s.build
  l2 := l2
  chroma := pl
  scan := scan
  hideOk := s.config.sbhEn && !ll
  coeffs := fun x y => (s.coef.read (y * 2 ^ l2 + x)).toInt

/-- The contexts CODE_COEFF may use, by plane: those of SIG_GROUP, SIG, LAST_X, LAST_Y, GT1 and GT2 (43_residual.md R266,
R268, R270, R273, R274). -/
def residualCtx (chroma : Bool) (j : Nat) : Bool :=
  if chroma then
    decide (44 ≤ j ∧ j ≤ 45) || decide (73 ≤ j ∧ j ≤ 87) || decide (103 ≤ j ∧ j ≤ 105) || decide (121 ≤ j ∧ j ≤ 123)
      || decide (140 ≤ j ∧ j ≤ 147) || decide (152 ≤ j ∧ j ≤ 153)
  else
    decide (42 ≤ j ∧ j ≤ 43) || decide (46 ≤ j ∧ j ≤ 72) || decide (88 ≤ j ∧ j ≤ 102) || decide (106 ≤ j ∧ j ≤ 120)
      || decide (124 ≤ j ∧ j ≤ 139) || decide (148 ≤ j ∧ j ≤ 151)

end Sys2Proof.Machine
end

