-- ==== Sys2Proof/Certificates/Slice0/Obligations.lean ====
section
/-! DEFINITION. The statements for the provers. Every statement about a next state gives the whole next state or its frame.
`s.takes`, `s.ready`, `s.afterBins`, `s.afterFault` and `s.afterRejection` are written out in Safety.lean. -/

open Sys2Proof Sys2Proof.Machine

/-! ### Encoding (30_encoding.md) -/

/-- Decoding an encoded well-formed command gives it back, with every operand at every value its field admits. -/
def Obligations.DecodeOfEncode : Prop :=
  ∀ i : Instr, i.wf = true → decode (encode i) = .ok i

/-- Every word that decodes is the encoding of the well-formed command it decodes to: no two words mean one command. -/
def Obligations.EncodeOfDecode : Prop :=
  ∀ (w : CmdWord) (i : Instr), decode w = .ok i → encode i = w ∧ i.wf = true

/-- The decoder accepts exactly the words that have an opcode of R93 and no bit outside its mask of R95, as a command of that
opcode. It refuses every other word and says which of the two the word breaks. -/
def Obligations.DecoderAcceptsExactly : Prop :=
  ∀ w : CmdWord,
    (decode w = .error .illegalOpcode ↔ w.toNat / 2 ^ 56 ∉ r93Opcodes) ∧
    (decode w = .error .reservedBits ↔
      w.toNat / 2 ^ 56 ∈ r93Opcodes ∧ ∃ b < 56, w.toNat.testBit b = true ∧ definedBit (w.toNat / 2 ^ 56) b = false) ∧
    ((∃ i, decode w = .ok i ∧ opcodeOf i = w.toNat / 2 ^ 56) ↔
      w.toNat / 2 ^ 56 ∈ r93Opcodes ∧ ∀ b < 56, w.toNat.testBit b = true → definedBit (w.toNat / 2 ^ 56) b = true)

/-- Words written out from the fields of R94: one of every family. -/
def Obligations.WordsOfTheSpecDecode : Prop :=
  decode 0x0100000000012001 = .ok (.resetEntropy 1 32 true) ∧
  decode 0x0800000000050001 = .ok (.setConfig true false false false 0 5) ∧
  decode 0x13000105000D0000 = .ok (.snapWrite 0 13 5 true) ∧
  decode 0x2000000000000425 = .ok (.splitFlag true false true false 2 0 1) ∧
  decode 0x2A000000FFFD0001 = .ok (.mvd 1 (-3)) ∧
  decode 0x40000000FFFD0004 = .ok (.coefWrite 4 (-3)) ∧
  decode 0x4100000000000042 = .ok (.codeCoeff 2 false 0 true) ∧
  decode 0x500000000000000C = .ok (.estRates 4 true)

/-- A word that is no command faults and does nothing else, in every state that does not reject it: ILLEGAL_OPCODE for an
opcode outside R93, RESERVED_BITS for a listed opcode with a reserved bit set, whatever else is wrong with the command. -/
def Obligations.WordsThatAreNoCommandFault : Prop :=
  ∀ (s : State) (w : CmdWord) (rest : List HostInput),
    s.pending = .command w :: rest →
    s.fault.cause ≠ .capacity → (s.faulted = true → w.toNat / 2 ^ 56 = 0x01) →
    (w.toNat / 2 ^ 56 ∉ r93Opcodes →
      step s = .next ({ s with pending := rest }.afterFault (w.toNat / 2 ^ 56) .illegalOpcode)) ∧
    (∀ b < 56, w.toNat / 2 ^ 56 ∈ r93Opcodes → w.toNat.testBit b = true → definedBit (w.toNat / 2 ^ 56) b = false →
      step s = .next ({ s with pending := rest }.afterFault (w.toNat / 2 ^ 56) .reservedBits))

/-! ### Taking commands, faults, reset (60_exceptions.md, 70_reset_and_hazards.md) -/

/-- When the word at the port decodes to a command, the step is that command's meaning, run on the state whose port has
moved past the word. -/
def Obligations.StepRunsTheDecodedCommand : Prop :=
  ∀ (s : State) (w : CmdWord) (rest : List HostInput) (i : Instr),
    s.pending = .command w :: rest → decode w = .ok i → step s = exec i { s with pending := rest }

/-- The block never halts itself: every step from every state answers a next state. -/
def Obligations.BlockNeverHalts : Prop :=
  ∀ s : State, ∃ t, step s = .next t

/-- Every command taken, whether it executes, faults or is rejected, and whether or not it decodes, counts in CMDCNT
(0 after reset, modulo 2^32) and completes once with the FAULTED bit after it. The port moves on by one. -/
def Obligations.EveryCommandCountsAndCompletes : Prop :=
  State.reset.cmdcnt = 0 ∧
  ∀ (s : State) (w : CmdWord) (rest : List HostInput),
    s.pending = .command w :: rest →
      ∃ t, step s = .next t ∧ t.cmdcnt = s.cmdcnt + 1 ∧ t.cmdcnt.toNat = (s.cmdcnt.toNat + 1) % 2 ^ 32 ∧
        t.completions = s.completions ++ [t.faulted] ∧ t.pending = rest

/-- While FAULTED every word whose opcode is not RESET_ENTROPY's is rejected, and after a failed capacity check every word
is: nothing changes but CMDCNT and the completion. -/
def Obligations.FaultedBlockRejects : Prop :=
  ∀ (s : State) (w : CmdWord) (rest : List HostInput),
    s.pending = .command w :: rest →
    (s.faulted = true ∧ w.toNat / 2 ^ 56 ≠ 0x01) ∨ s.fault.cause = .capacity →
      step s = .next { s with pending := rest }.afterRejection

/-- Faults are precise: a command that is not rejected and completes with FAULTED = 1 has changed nothing but FAULT (kept
when FAULTED was already 1), FAULTED, FAULT_STICKY, CMDCNT and the completions. -/
def Obligations.FaultsArePrecise : Prop :=
  ∀ (i : Instr) (s t : State),
    s.fault.cause ≠ .capacity → (s.faulted = true → opcodeOf i = 0x01) →
    exec i s = .next t → t.faulted = true →
      ∃ c, c ≠ .none ∧ c ≠ .capacity ∧ t = s.afterFault (opcodeOf i) c

/-- The only command that leaves the faulted state is a RESET_ENTROPY that commits. It keeps FAULT and FAULT_STICKY,
re-initialises the bank and emits START. -/
def Obligations.OnlyResetEntropyRecovers : Prop :=
  ∀ (i : Instr) (s t : State),
    exec i s = .next t → s.faulted = true → t.faulted = false →
      ∃ st qp useRec, i = .resetEntropy st qp useRec ∧ st ≤ 2 ∧ t.fault = s.fault ∧ t.faultSticky = s.faultSticky ∧
        t.bankValid = true ∧ t.ctx = initBank s.build (s.tableFor st useRec) qp ∧ t.bin = s.bin ++ [.start]

/-- The reset values of R47 that the spec gives, for every build that passes the capacity check: read through the REG
port, and the coefficient buffer. Reset emits no event. (CTX, SNAP and EST are UNSPECIFIED: nothing is said of them.) -/
def Obligations.ResetValues : Prop :=
  (∀ b : Build, b.numCtx ≤ b.maxNumCtx → b.maxLog2Tb = 5 →
    (State.resetOf b).regRead 0x000 = 0 ∧ (State.resetOf b).regRead 0x001 = 0 ∧
    (State.resetOf b).regRead 0x002 = 0x00050000 ∧ (State.resetOf b).regRead 0x003 = 0 ∧
    (State.resetOf b).regRead 0x004 = 0 ∧ (State.resetOf b).regRead 0x005 = 0 ∧ (State.resetOf b).regRead 0x006 = 0 ∧
    (State.resetOf b).regRead 0x007 = 0 ∧ (∀ sl ∈ (State.resetOf b).snap, sl.valid = false) ∧
    (∀ a, (State.resetOf b).coef.read a = 0) ∧ (State.resetOf b).bin = []) ∧
  State.reset = State.resetOf Build.default ∧ Build.default.numCtx ≤ Build.default.maxNumCtx ∧ Build.default.maxLog2Tb = 5

/-- The capacity check at the end of a hardware reset: a bank above MAX_NUM_CTX comes out FAULTED with cause CAPACITY, and
then every command is rejected. -/
def Obligations.CapacityCheck : Prop :=
  ∀ b : Build,
    (b.maxNumCtx < b.numCtx →
      (State.resetOf b).regRead 0x000 = 0x00000006 ∧ (State.resetOf b).regRead 0x001 = 0x0000000B ∧
      ∀ (w : CmdWord) (rest : List HostInput),
        step { State.resetOf b with pending := .command w :: rest } =
          .next { State.resetOf b with pending := rest }.afterRejection) ∧
    (b.numCtx ≤ b.maxNumCtx → (State.resetOf b).regRead 0x000 = 0 ∧ (State.resetOf b).regRead 0x001 = 0)

/-- A hardware reset at the port leaves the reset state of the same build. It emits no event and completes no command,
and it leaves what the host has still to send. -/
def Obligations.HardwareReset : Prop :=
  ∀ (s : State) (rest : List HostInput), s.pending = .hardwareReset :: rest →
    step s = .next { State.resetOf s.build with pending := rest, bin := s.bin, completions := s.completions }

/-- The checks that come before a command's own: slice type 3 faults with BAD_SLICE_TYPE, whatever the bank
(RESET_ENTROPY is checked in the faulted state too); then, before the bank is valid, every command that reads or writes
CTX, but RESET_ENTROPY and LOAD, and END_SEGMENT and TERM_BIN too, faults with NOT_INITIALISED. -/
def Obligations.ChecksBeforeTheEffect : Prop :=
  ∀ (i : Instr) (s : State), s.fault.cause ≠ .capacity → (s.faulted = true → opcodeOf i = 0x01) →
    (i.sliceTypeIs3 = true → exec i s = .next (s.afterFault (opcodeOf i) .badSliceType)) ∧
    (i.sliceTypeIs3 = false → s.bankValid = false → i.needsNoBank = false →
      exec i s = .next (s.afterFault (opcodeOf i) .notInitialised))

/-- Which commands write which part of the state. FAULT is written only by the first fault of an episode, and no command
clears FAULT_STICKY. -/
def Obligations.WritersOfTheState : Prop :=
  ∀ (i : Instr) (s t : State), exec i s = .next t →
    t.build = s.build ∧ t.pending = s.pending ∧
    (t.coef ≠ s.coef → ∃ idx val, i = .coefWrite idx val) ∧
    (t.config ≠ s.config → ∃ a b c d q m, i = .setConfig a b c d q m) ∧
    (t.slice ≠ s.slice → (∃ st qp r, i = .resetEntropy st qp r) ∨ ∃ st qp r f, i = .updateContextTables st qp r f) ∧
    (t.initTable ≠ s.initTable ∨ t.initChoiceValid ≠ s.initChoiceValid ∨ t.initCostP ≠ s.initCostP ∨
        t.initCostB ≠ s.initCostB → ∃ st qp, i = .determineInitIndex st qp) ∧
    (t.snap ≠ s.snap → (∃ k, i = .store k) ∨ ∃ k j p m, i = .snapWrite k j p m) ∧
    (t.est ≠ s.est ∨ t.estComputed ≠ s.estComputed → ∃ l2 pl, i = .estRates l2 pl) ∧
    (t.bankValid ≠ s.bankValid → s.bankValid = false ∧ ((∃ st qp r, i = .resetEntropy st qp r) ∨ ∃ k, i = .load k)) ∧
    (t.ctx ≠ s.ctx → i.codesBins = true ∨ (∃ st qp r, i = .resetEntropy st qp r) ∨
        (∃ st qp r f, i = .updateContextTables st qp r f) ∨ (∃ k, i = .load k) ∨ ∃ k g, i = .loadPartial k g) ∧
    (t.fault ≠ s.fault → s.faulted = false ∧ t.faulted = true ∧ t.fault.opcode = BitVec.ofNat 8 (opcodeOf i)) ∧
    (t.faultSticky ≠ s.faultSticky → t.faultSticky = true ∧ t.faulted = true) ∧
    (∃ es, t.bin = s.bin ++ es)

/-! ### Regular bins and initialisation (40_context_bank.md) -/

/-- Coding one bin and coding several. A regular bin emits the context it saw before the update, and the context makes the
transition of the table of R135; bypass and terminating bins write no context; bins are coded in order, each seeing the
updates of those before it. -/
def Obligations.BinCoding : Prop :=
  (∀ (i : Nat) (b : Bool) (bank : List Ctx) (x : Ctx), bank[i]? = some x → x.inRange →
    let lps : List Nat :=
      [0, 0, 1, 2, 2, 4, 4, 5, 6, 7, 8, 9, 9, 11, 11, 12, 13, 13, 15, 15, 16, 16, 18, 18, 19, 19, 21, 21, 22, 22, 23, 24,
       24, 25, 26, 26, 27, 27, 28, 29, 29, 30, 30, 30, 31, 32, 32, 33, 33, 33, 34, 34, 35, 35, 35, 36, 36, 36, 37, 37,
       37, 38, 38]
    ∃ y : Ctx,
      codeBin (.reg i b) bank = (bank.set i y, .reg b (BitVec.ofNat 9 i) x.pStateIdx x.valMps) ∧ y.inRange ∧
      (b = x.valMps → y.pStateIdx.toNat = min (x.pStateIdx.toNat + 1) 62 ∧ y.valMps = x.valMps) ∧
      (b ≠ x.valMps → some y.pStateIdx.toNat = lps[x.pStateIdx.toNat]? ∧
        y.valMps = if x.pStateIdx = 0 then !x.valMps else x.valMps)) ∧
  (∀ b bank, codeBin (.ep b) bank = (bank, .ep b) ∧ codeBin (.trm b) bank = (bank, .trm b)) ∧
  (∀ xs ys bank, codeBins (xs ++ ys) bank =
    ((codeBins ys (codeBins xs bank).1).1, (codeBins xs bank).2 ++ (codeBins ys (codeBins xs bank).1).2)) ∧
  (∀ x bank, codeBins [x] bank = ((codeBin x bank).1, [(codeBin x bank).2]))

/-- Initialisation from an 8-bit value and QP gives a state in 0..62, by the formula of R131: the signed distance of `pre`
from the middle. -/
def Obligations.InitStateFormula : Prop :=
  ∀ (iv : BitVec 8) (qp : Int),
    (initState iv qp).inRange ∧
    ∃ pre : Int, 1 ≤ pre ∧ pre ≤ 126 ∧
      pre = max 1 (min 126 (((5 * (iv.toNat / 16 : Nat) - 45 : Int) * max 0 (min 51 qp)) / 16
        + (8 * (iv.toNat % 16 : Nat) - 16 : Int))) ∧
      ((initState iv qp).valMps = true ↔ 64 ≤ pre) ∧
      ((initState iv qp).pStateIdx.toNat : Int) = if 64 ≤ pre then pre - 64 else 63 - pre

/-- RESET_ENTROPY, in every state but after a failed capacity check: the bank is initialised from the table of R132,
SLICE records the command, BANK_VALID is set, FAULTED and EST_VALID are cleared, START is emitted, and nothing else
changes. Slice type 3 faults. -/
def Obligations.ResetEntropyEffect : Prop :=
  ∀ (st : Nat) (qp : Int) (useRec : Bool) (s : State), s.fault.cause ≠ .capacity →
    (3 ≤ st → exec (.resetEntropy st qp useRec) s = .next (s.afterFault 0x01 .badSliceType)) ∧
    (st ≤ 2 →
      let t := if st = 0 then 0 else if useRec = true ∧ s.initChoiceValid = true then s.initTable.toNat else st
      exec (.resetEntropy st qp useRec) s = .next { s with
        ctx := (List.range s.build.numCtx).map fun i => initState (s.build.initValueAt t i) qp
        slice := ⟨BitVec.ofNat 2 st, BitVec.ofInt 8 qp, BitVec.ofNat 2 t⟩
        bankValid := true
        faulted := false
        estValid := false
        bin := s.bin ++ [.start]
        cmdcnt := s.cmdcnt + 1
        completions := s.completions ++ [false] })

/-- UPDATE_CONTEXT_TABLES: slice type 3 faults, then a bank that is not valid; else TRM(1), FINISH if FIN, the same
re-initialisation, START. -/
def Obligations.UpdateContextTablesEffect : Prop :=
  ∀ (st : Nat) (qp : Int) (useRec fin : Bool) (s : State), s.takes →
    (3 ≤ st → exec (.updateContextTables st qp useRec fin) s = .next (s.afterFault 0x03 .badSliceType)) ∧
    (st ≤ 2 → s.bankValid = false →
      exec (.updateContextTables st qp useRec fin) s = .next (s.afterFault 0x03 .notInitialised)) ∧
    (st ≤ 2 → s.bankValid = true →
      let t := if st = 0 then 0 else if useRec = true ∧ s.initChoiceValid = true then s.initTable.toNat else st
      exec (.updateContextTables st qp useRec fin) s = .next { s with
        ctx := (List.range s.build.numCtx).map fun i => initState (s.build.initValueAt t i) qp
        slice := ⟨BitVec.ofNat 2 st, BitVec.ofInt 8 qp, BitVec.ofNat 2 t⟩
        estValid := false
        bin := s.bin ++ (if fin then [.trm true, .finish, .start] else [.trm true, .start])
        cmdcnt := s.cmdcnt + 1
        completions := s.completions ++ [false] })

/-- END_SEGMENT emits TRM(1) and FINISH, TERM_BIN emits TRM(V); neither changes a context or a flag; both need a valid
bank. -/
def Obligations.EndSegmentAndTermBin : Prop :=
  ∀ s : State, s.takes →
    (s.bankValid = false → exec .endSegment s = .next (s.afterFault 0x04 .notInitialised) ∧
      ∀ v, exec (.termBin v) s = .next (s.afterFault 0x2F .notInitialised)) ∧
    (s.bankValid = true →
      exec .endSegment s = .next { s with
        bin := s.bin ++ [.trm true, .finish], cmdcnt := s.cmdcnt + 1, completions := s.completions ++ [false] } ∧
      ∀ v, exec (.termBin v) s = .next { s with
        bin := s.bin ++ [.trm v], cmdcnt := s.cmdcnt + 1, completions := s.completions ++ [false] })

/-- SET_CONFIG, with or without a valid bank: legal values go to CONFIG and nothing else changes; an illegal value faults
with VALUE_RANGE. The word of CONFIG reads back its fields, its reserved bits 0. -/
def Obligations.SetConfigEffect : Prop :=
  ∀ (sbh amp lm dis : Bool) (q m : Nat) (s : State), s.takes →
    (q ≤ 48 ∧ 2 ≤ m ∧ m ≤ 5 →
      ∃ t, exec (.setConfig sbh amp lm dis q m) s = .next t ∧
        t = { s with
          config := ⟨sbh, amp, lm, dis, BitVec.ofNat 6 q, BitVec.ofNat 3 m⟩
          cmdcnt := s.cmdcnt + 1
          completions := s.completions ++ [false] } ∧
        (t.regRead 0x002).toNat = sbh.toNat + 2 * amp.toNat + 4 * lm.toNat + 8 * dis.toNat + 2 ^ 8 * q + 2 ^ 16 * m) ∧
    (48 < q ∨ m < 2 ∨ 5 < m →
      exec (.setConfig sbh amp lm dis q m) s = .next (s.afterFault 0x08 .valueRange))

/-- DETERMINE_INIT_INDEX: slice type 3 faults, then a bank that is not valid; for an I slice it records table 0; for a P
or B slice it computes the two costs over the whole bank and records the cheaper table, the slice's own on a tie in the
default build. The cost of a bin in a state is EB[s][0] where it is the MPS and EB[s][1] where it is not. CTX and EST_VALID
stay, no event. That INIT_COST keeps a cost modulo 2^32 while the choice compares the unbounded costs is the model's choice
(log 19). -/
def Obligations.DetermineInitIndexEffect : Prop :=
  ∀ (st : Nat) (qp : Int) (s : State), s.takes → bankOk s.build.numCtx s.ctx → s.build.initTie = .own →
    let bits := fun (x : Ctx) (v : Bool) =>
      if v = x.valMps then (s.build.eb.getD x.pStateIdx.toNat (0, 0)).1 else (s.build.eb.getD x.pStateIdx.toNat (0, 0)).2
    let cost := fun t => ((List.range s.build.numCtx).map fun i =>
      let x := ctxAt s.ctx i
      let c := initState (s.build.initValueAt t i) qp
      let pL := s.build.probLpsQ16.getD x.pStateIdx.toNat 0
      let p0 := if x.valMps then pL else 65536 - pL
      let p1 := if x.valMps then 65536 - pL else pL
      (p0 * bits c false + p1 * bits c true) / 2 ^ 16).sum
    (3 ≤ st → exec (.determineInitIndex st qp) s = .next (s.afterFault 0x02 .badSliceType)) ∧
    (st ≤ 2 → s.bankValid = false → exec (.determineInitIndex st qp) s = .next (s.afterFault 0x02 .notInitialised)) ∧
    (st = 0 → s.bankValid = true → exec (.determineInitIndex st qp) s = .next { s with
      initTable := 0, initChoiceValid := true, cmdcnt := s.cmdcnt + 1, completions := s.completions ++ [false] }) ∧
    (st = 1 ∨ st = 2 → s.bankValid = true → exec (.determineInitIndex st qp) s = .next { s with
      initCostP := BitVec.ofNat 32 (cost 1)
      initCostB := BitVec.ofNat 32 (cost 2)
      initTable := BitVec.ofNat 2 (if cost (3 - st) < cost st then 3 - st else st)
      initChoiceValid := true
      cmdcnt := s.cmdcnt + 1
      completions := s.completions ++ [false] })

/-! ### Snapshots (40_context_bank.md) -/

/-- STORE copies the bank into the slot, makes the slot valid and emits COPY_TO; a bank that is not valid faults, then a
slot beyond the store. -/
def Obligations.StoreEffect : Prop :=
  ∀ (k : Nat) (s : State), s.takes →
    (s.bankValid = false → exec (.store k) s = .next (s.afterFault 0x10 .notInitialised)) ∧
    (s.bankValid = true → k < s.build.numSnapshots → exec (.store k) s = .next { s with
      snap := s.snap.set k ⟨true, s.ctx⟩
      bin := s.bin ++ [.copyTo (BitVec.ofNat 8 k)]
      cmdcnt := s.cmdcnt + 1
      completions := s.completions ++ [false] }) ∧
    (s.bankValid = true → s.build.numSnapshots ≤ k → exec (.store k) s = .next (s.afterFault 0x10 .badSlot))

/-- LOAD copies a valid slot into the bank, with or without a valid bank, and emits COPY_FROM; a slot beyond the store
or not valid faults. SLICE, INIT_CHOICE and CONFIG are not restored, and the slot keeps its contents. -/
def Obligations.LoadEffect : Prop :=
  ∀ (k : Nat) (s : State), s.takes →
    (∀ bank, k < s.build.numSnapshots → s.snap[k]? = some ⟨true, bank⟩ → exec (.load k) s = .next { s with
      ctx := bank
      bankValid := true
      estValid := false
      bin := s.bin ++ [.copyFrom (BitVec.ofNat 8 k)]
      cmdcnt := s.cmdcnt + 1
      completions := s.completions ++ [false] }) ∧
    (s.build.numSnapshots ≤ k ∨ (∀ sl, s.snap[k]? = some sl → sl.valid = false) →
      exec (.load k) s = .next (s.afterFault 0x11 .badSlot))

/-- LOAD_PARTIAL copies one group: context i comes from the slot exactly when it lies in the group. Sizes and bases are
those of R31. A bank that is not valid faults, then a slot that is not there or not valid, or a group above 26. -/
def Obligations.LoadPartialEffect : Prop :=
  ∀ (k g : Nat) (s : State), s.takes → 166 ≤ s.build.numCtx → bankOk s.build.numCtx s.ctx →
    let sizes : List Nat := [3, 3, 1, 1, 4, 1, 1, 2, 5, 2, 2, 3, 10, 1, 3, 4, 42, 18, 18, 24, 6, 1, 2, 3, 1, 2, 3]
    (s.bankValid = false → exec (.loadPartial k g) s = .next (s.afterFault 0x12 .notInitialised)) ∧
    (∀ bank, s.bankValid = true → bankOk s.build.numCtx bank → k < s.build.numSnapshots → s.snap[k]? = some ⟨true, bank⟩ → g ≤ 26 →
      ∃ ctx', exec (.loadPartial k g) s = .next { s with
          ctx := ctx'
          estValid := false
          bin := s.bin ++ [.copyFrom (BitVec.ofNat 8 k)]
          cmdcnt := s.cmdcnt + 1
          completions := s.completions ++ [false] } ∧
        ctx'.length = s.build.numCtx ∧
        ∀ i < s.build.numCtx, ctx'[i]? =
          if (sizes.take g).sum ≤ i ∧ i < (sizes.take (g + 1)).sum then bank[i]? else s.ctx[i]?) ∧
    (s.bankValid = true → s.build.numSnapshots ≤ k ∨ (∀ sl, s.snap[k]? = some sl → sl.valid = false) ∨ 26 < g →
      exec (.loadPartial k g) s = .next (s.afterFault 0x12 .badSlot))

/-- SNAP_WRITE overwrites one entry of a valid slot; CTX and every flag stay and no event is emitted. -/
def Obligations.SnapWriteEffect : Prop :=
  ∀ (k idx ps : Nat) (mps : Bool) (s : State), s.takes →
    (∀ bank, k < s.build.numSnapshots → s.snap[k]? = some ⟨true, bank⟩ →
      (idx < s.build.numCtx ∧ ps ≤ 62 → exec (.snapWrite k idx ps mps) s = .next { s with
        snap := s.snap.set k ⟨true, bank.set idx ⟨BitVec.ofNat 6 ps, mps⟩⟩
        cmdcnt := s.cmdcnt + 1
        completions := s.completions ++ [false] }) ∧
      (s.build.numCtx ≤ idx ∨ 62 < ps → exec (.snapWrite k idx ps mps) s = .next (s.afterFault 0x13 .valueRange))) ∧
    (s.build.numSnapshots ≤ k ∨ (∀ sl, s.snap[k]? = some sl → sl.valid = false) →
      exec (.snapWrite k idx ps mps) s = .next (s.afterFault 0x13 .badSlot))

/-- STORE k followed at once by LOAD k leaves CTX as it was, emits COPY_TO(k) and COPY_FROM(k), and clears EST_VALID.
Every sequence of commands then emits the same events as it would have before, and ends in the same bank, the same COEF,
CONFIG and SLICE and the same fault registers, unless it holds a LOAD, LOAD_PARTIAL or SNAP_WRITE of slot k, which need the
slot valid. -/
def Obligations.StoreThenLoadRestores : Prop :=
  ∀ (k : Nat) (s : State), s.ready → s.Inv → k < s.build.numSnapshots →
    ∃ t, runAll [.store k, .load k] s = some t ∧ t.ctx = s.ctx ∧
      t.bin = s.bin ++ [.copyTo (BitVec.ofNat 8 k), .copyFrom (BitVec.ofNat 8 k)] ∧
      t.estValid = false ∧ t.bankValid = true ∧ t.faulted = false ∧
      ∀ is : List Instr, (∀ i ∈ is, i.readsSlot ≠ some k) →
        ∃ u v es, runAll is s = some u ∧ runAll is t = some v ∧
          u.bin = s.bin ++ es ∧ v.bin = t.bin ++ es ∧ u.ctx = v.ctx ∧ u.bankValid = v.bankValid ∧ u.coef = v.coef ∧
          u.config = v.config ∧ u.slice = v.slice ∧ u.faulted = v.faulted ∧ u.fault = v.fault

/-- The host carries a bank from one instance to another: STORE k, one SNAP_WRITE k per context read from the other
instance, LOAD k, and the receiving block's CTX is the other's. -/
def Obligations.BankTravelsBetweenInstances : Prop :=
  ∀ (k : Nat) (a : List Ctx) (s : State), s.ready → s.Inv → bankOk s.build.numCtx a → k < s.build.numSnapshots →
    let writes : List Instr := a.zipIdx.map fun p => .snapWrite k p.2 p.1.pStateIdx.toNat p.1.valMps
    ∃ t, runAll (.store k :: (writes ++ [Instr.load k])) s = some t ∧
      t.ctx = a ∧ t.bankValid = true ∧ t.faulted = false ∧
      t.bin = s.bin ++ [.copyTo (BitVec.ofNat 8 k), .copyFrom (BitVec.ofNat 8 k)] ∧
      t.cmdcnt = s.cmdcnt + BitVec.ofNat 32 (s.build.numCtx + 2)

/-! ### Syntax elements (42_syntax_elements.md) -/

/-- The commands that code their flag in one dedicated context. -/
def Obligations.SingleContextFlags : Prop :=
  ∀ (v : Bool) (s : State), s.ready →
    ∀ p ∈ [(Instr.mergeFlag v, 6), (.predMode v, 12), (.qtRootCbf v, 38), (.alfFlag v, 154), (.saoFlag v, 160)],
      exec p.1 s = .next { s with
        ctx := s.ctx.set p.2 ((ctxAt s.ctx p.2).update v)
        bin := s.bin ++ [.reg v (BitVec.ofNat 9 p.2) (ctxAt s.ctx p.2).pStateIdx (ctxAt s.ctx p.2).valMps]
        estValid := false
        cmdcnt := s.cmdcnt + 1
        completions := s.completions ++ [false] }

/-- SPLIT_FLAG and SKIP_FLAG: the context is the number of available neighbours that are deeper, or skipped; at the
maximum depth SPLIT_FLAG emits nothing and V = 1 faults. -/
def Obligations.NeighbourCountFlags : Prop :=
  ∀ s : State, s.ready →
    (∀ (v avL avA : Bool) (dL dA dC : Nat),
      exec (.splitFlag v false avL avA dL dA dC) s = .next (s.afterBins
        [.reg (([(avL, dL), (avA, dA)].filter fun n => n.1 && decide (dC < n.2)).length) v])) ∧
    (∀ (avL avA : Bool) (dL dA dC : Nat),
      exec (.splitFlag false true avL avA dL dA dC) s = .next (s.afterBins []) ∧
      exec (.splitFlag true true avL avA dL dA dC) s = .next (s.afterFault 0x20 .badCombination)) ∧
    (∀ v avL skL avA skA : Bool,
      exec (.skipFlag v avL skL avA skA) s = .next (s.afterBins
        [.reg (3 + ([(avL, skL), (avA, skA)].filter fun n => n.1 && n.2).length) v]))

/-- QT_CBF codes V in context 28 + 5 * PL + CI, TRANS_SUBDIV in context 39 + CI; a context index out of range faults. -/
def Obligations.TransformTreeFlags : Prop :=
  ∀ (v pl : Bool) (ci : Nat) (s : State), s.ready →
    (ci ≤ 4 → exec (.qtCbf v pl ci) s = .next (s.afterBins [.reg (28 + (if pl then 5 else 0) + ci) v])) ∧
    (4 < ci → exec (.qtCbf v pl ci) s = .next (s.afterFault 0x2C .valueRange)) ∧
    (ci ≤ 2 → exec (.transSubdiv v ci) s = .next (s.afterBins [.reg (39 + ci) v])) ∧
    (2 < ci → exec (.transSubdiv v ci) s = .next (s.afterFault 0x2E .valueRange))

/-- MERGE_IDX and REF_IDX: truncated unary capped at the candidate count minus one, the first bin (MERGE_IDX) or the first
two (REF_IDX) context-coded, the others bypass. -/
def Obligations.TruncatedUnaryIndexes : Prop :=
  ∀ (v n : Nat) (s : State), s.ready →
    let tu := List.replicate v true ++ (if v < n - 1 then [false] else [])
    (n < 1 ∨ 5 < n → exec (.mergeIdx v n) s = .next (s.afterFault 0x23 .valueRange)) ∧
    (1 ≤ n ∧ n ≤ 5 ∧ n ≤ v → exec (.mergeIdx v n) s = .next (s.afterFault 0x23 .badCombination)) ∧
    (1 ≤ n ∧ n ≤ 5 ∧ v < n → exec (.mergeIdx v n) s =
      .next (s.afterBins ((tu.take 1).map (.reg 7) ++ (tu.drop 1).map .ep))) ∧
    (n < 1 ∨ 16 < n → exec (.refIdx v n) s = .next (s.afterFault 0x29 .valueRange)) ∧
    (1 ≤ n ∧ n ≤ 16 ∧ n ≤ v → exec (.refIdx v n) s = .next (s.afterFault 0x29 .badCombination)) ∧
    (1 ≤ n ∧ n ≤ 16 ∧ v < n → exec (.refIdx v n) s =
      .next (s.afterBins ((tu.take 1).map (.reg 21) ++ ((tu.drop 1).take 1).map (.reg 22) ++ (tu.drop 2).map .ep)))

/-- PART_SIZE follows the table of R205, column by column; a partition the column does not have faults. -/
def Obligations.PartSizeFollowsTheTable : Prop :=
  ∀ (part log2Cb : Nat) (intra atMin ampOk : Bool) (s : State), s.ready → part < 8 →
    let amp := s.config.ampEn && ampOk && !atMin
    let bin2 := atMin && !(decide (log2Cb = 3) && s.config.disInter4x4)
    (log2Cb < 3 ∨ 6 < log2Cb → exec (.partSize part intra atMin log2Cb ampOk) s = .next (s.afterFault 0x24 .valueRange)) ∧
    (3 ≤ log2Cb ∧ log2Cb ≤ 6 →
      exec (.partSize part intra atMin log2Cb ampOk) s =
        match r205Bins intra atMin amp bin2 part with
        | some bins => .next (s.afterBins bins)
        | none => .next (s.afterFault 0x24 .badCombination))

/-- INTRA_DIR_LUMA: a mode among the three distinct candidates is the flag 1 and TU(k, 2) in bypass bins; another mode
is the flag 0 and, in five bypass bins, the mode less the number of candidates below it, which is below 32. -/
def Obligations.IntraLumaModes : Prop :=
  ∀ (mode c0 c1 c2 : Nat) (s : State), s.ready →
    (34 < mode ∨ 34 < c0 ∨ 34 < c1 ∨ 34 < c2 →
      exec (.intraDirLuma mode c0 c1 c2) s = .next (s.afterFault 0x26 .valueRange)) ∧
    (mode ≤ 34 ∧ c0 ≤ 34 ∧ c1 ≤ 34 ∧ c2 ≤ 34 →
      (c0 = c1 ∨ c0 = c2 ∨ c1 = c2 →
        exec (.intraDirLuma mode c0 c1 c2) s = .next (s.afterFault 0x26 .badCombination)) ∧
      (c0 ≠ c1 ∧ c0 ≠ c2 ∧ c1 ≠ c2 →
        (mode = c0 → exec (.intraDirLuma mode c0 c1 c2) s = .next (s.afterBins [.reg 13 true, .ep false])) ∧
        (mode = c1 → exec (.intraDirLuma mode c0 c1 c2) s = .next (s.afterBins [.reg 13 true, .ep true, .ep false])) ∧
        (mode = c2 → exec (.intraDirLuma mode c0 c1 c2) s = .next (s.afterBins [.reg 13 true, .ep true, .ep true])) ∧
        (mode ≠ c0 ∧ mode ≠ c1 ∧ mode ≠ c2 →
          let below := ([c0, c1, c2].filter fun c => decide (c < mode)).length
          mode - below < 32 ∧ below ≤ mode ∧
          exec (.intraDirLuma mode c0 c1 c2) s = .next (s.afterBins (.reg 13 false :: epBitsOf (mode - below) 5)))))

/-- INTRA_DIR_CHROMA: DM is one bin; with LM enabled a second bin tells LM from the explicit directions, which end in two
bypass bins. LM without LM_EN, and a code above 5, fault. -/
def Obligations.IntraChromaModes : Prop :=
  ∀ (code : Nat) (s : State), s.ready →
    (5 < code → exec (.intraDirChroma code) s = .next (s.afterFault 0x27 .valueRange)) ∧
    (exec (.intraDirChroma 4) s = .next (s.afterBins [.reg 14 false])) ∧
    (s.config.lmEn = false → exec (.intraDirChroma 5) s = .next (s.afterFault 0x27 .badCombination)) ∧
    (s.config.lmEn = true → exec (.intraDirChroma 5) s = .next (s.afterBins [.reg 14 true, .reg 15 false])) ∧
    (code < 4 → exec (.intraDirChroma code) s = .next (s.afterBins
      (.reg 14 true :: ((if s.config.lmEn then [.reg 15 true] else []) ++ epBitsOf code 2))))

/-- INTER_DIR: unless the PU is small, a bi-prediction flag in the context of the CU depth; unless bi-predicted, the list
flag in context 20. Bi-prediction of a small PU, and DIR = 3, fault. -/
def Obligations.InterDirections : Prop :=
  ∀ (dir ctd : Nat) (s : State), s.ready →
    (3 ≤ dir → ∀ small, exec (.interDir dir ctd small) s = .next (s.afterFault 0x28 .valueRange)) ∧
    exec (.interDir 2 ctd true) s = .next (s.afterFault 0x28 .badCombination) ∧
    exec (.interDir 2 ctd false) s = .next (s.afterBins [.reg (16 + ctd) true]) ∧
    (∀ list1 : Bool,
      exec (.interDir list1.toNat ctd false) s = .next (s.afterBins [.reg (16 + ctd) false, .reg 20 list1]) ∧
      exec (.interDir list1.toNat ctd true) s = .next (s.afterBins [.reg 20 list1]))

/-- MVD: the two greater-0 flags, the greater-1 flags of the nonzero components, then per nonzero component the EG1 code
of the magnitude above 1, written out in r182Bins, and the sign. -/
def Obligations.MvdBins : Prop :=
  ∀ (x y : Int) (s : State), s.ready →
    let gt1 : Int → List Bin := fun v => if v = 0 then [] else [.reg 24 (decide (1 < v.natAbs))]
    let tail : Int → List Bin := fun v => if v = 0 then [] else
      (if 1 < v.natAbs then (r182Bins (v.natAbs - 2) 1).map Bin.ep else []) ++ [Bin.ep (decide (v < 0))]
    exec (.mvd x y) s = .next (s.afterBins
      (List.flatten [[.reg 23 (decide (x ≠ 0)), .reg 23 (decide (y ≠ 0))], gt1 x, gt1 y, tail x, tail y]))

/-- The value of every syntax element is recovered from its events: two commands of one kind that differ only in the
value, run without a fault from one state, emit the same events only if they are the same command. A delta-QP is
recovered modulo the 52 + o values it wraps into. -/
def Obligations.SyntaxValuesAreRecoverable : Prop :=
  ∀ (i j : Instr) (s t u : State), i.wf = true → j.wf = true → s.ready → i.codesBins = true → opcodeOf i ≠ 0x41 →
    i.withoutValue = j.withoutValue → exec i s = .next t → exec j s = .next u →
    t.faulted = false → u.faulted = false → t.bin = u.bin →
      i = j ∨ ∃ d e : Int, i = .deltaQp d ∧ j = .deltaQp e ∧ (d - e) % (52 + s.config.qpBdOffsetY.toNat) = 0

/-- DELTA_QP wraps its value into the 52 + o values from -26 - o/2 on, keeping values of that range, and codes the
magnitude by TU(5) and EG0, written out in r182Bins, and then the sign of a nonzero value. -/
def Obligations.DeltaQpBins : Prop :=
  ∀ (dqp : Int) (s : State), s.ready →
    ∃ d : Int,
      (-26 - (s.config.qpBdOffsetY.toNat / 2 : Nat) ≤ d ∧
        d < 26 + s.config.qpBdOffsetY.toNat - (s.config.qpBdOffsetY.toNat / 2 : Nat)) ∧
      (∃ n : Int, d = dqp + n * (52 + s.config.qpBdOffsetY.toNat)) ∧
      exec (.deltaQp dqp) s = .next (s.afterBins
        (List.flatten [[.reg 25 (decide (d ≠ 0))],
          List.replicate (min d.natAbs 5 - 1) (.reg 26 true),
          if 0 < d.natAbs ∧ d.natAbs < 5 then [.reg 26 false] else [],
          if 5 ≤ d.natAbs then (r182Bins (d.natAbs - 5) 0).map .ep else [],
          if d ≠ 0 then [.ep (decide (d < 0))] else []]))

/-- The filter magnitudes: a first bin that says nonzero, for the signed form a sign bin, then the magnitude less one in
unary with a terminating 0, each in its own context. -256 faults. -/
def Obligations.FilterMagnitudes : Prop :=
  ∀ s : State, s.ready →
    (∀ val : Nat, ∀ p ∈ [(Instr.alfUvlc val, 155), (.saoUvlc val, 161)],
      exec p.1 s = .next (s.afterBins
        (if val = 0 then [.reg p.2 false]
         else .reg p.2 true :: (List.replicate (val - 1) (Bin.reg (p.2 + 1) true) ++ [Bin.reg (p.2 + 1) false])))) ∧
    (∀ val : Int, ∀ p ∈ [(Instr.alfSvlc val, 157), (.saoSvlc val, 163)],
      (val = -256 → exec p.1 s = .next (s.afterFault (opcodeOf p.1) .valueRange)) ∧
      (val ≠ -256 → exec p.1 s = .next (s.afterBins
        (if val = 0 then [.reg p.2 false]
         else .reg p.2 true :: .reg (p.2 + 1) (decide (val < 0)) ::
          (List.replicate (val.natAbs - 1) (Bin.reg (p.2 + 2) true) ++ [Bin.reg (p.2 + 2) false])))))

/-- Every regular bin of a well-formed command that codes bins lies in the bank. -/
def Obligations.RegularBinsStayInTheBank : Prop :=
  ∀ (i : Instr) (s t : State), i.wf = true → i.codesBins = true → exec i s = .next t →
    ∃ es, t.bin = s.bin ++ es ∧ ∀ e ∈ es, ∀ b j p m, e = .reg b j p m → j.toNat < 166

/-- The events and the new contexts of a command that codes bins depend only on CTX, CONFIG, COEF and the command (and
on the build, and on whether the block takes it). -/
def Obligations.BinsDependOnlyOnTheirInputs : Prop :=
  ∀ (i : Instr) (s u s' u' : State), i.codesBins = true →
    u.build = s.build → u.ctx = s.ctx → u.config = s.config → u.coef = s.coef →
    s.takes → u.takes → u.bankValid = s.bankValid →
    exec i s = .next s' → exec i u = .next u' →
      s'.ctx = u'.ctx ∧ s'.faulted = u'.faulted ∧ ∃ es, s'.bin = s.bin ++ es ∧ u'.bin = u.bin ++ es

/-! ### Binarizers (41_binarization.md) -/

/-- The inverses recover the value: TU for every value up to the maximum, EGk and GR for every value and parameter. -/
def Obligations.BinarizersInvert : Prop :=
  (∀ s cMax, s ≤ cMax → invTU (binTU s cMax) cMax = s) ∧
  (∀ v k, invEGk (binEGk v k) k = v) ∧
  (∀ sym r, invGR (grBins sym r) r = sym)

/-- The bound of 32 bins, for every parameter up to 4: below the symbol named here the code has at most 32 bins, from that
symbol on it has more and raises BIN_COUNT. No symbol up to 32767, so no 16-bit coefficient, reaches it. -/
def Obligations.GolombRiceBound : Prop :=
  ∀ sym r : Nat, r ≤ 4 →
    let smallest := [32770, 32772, 65544, 65552, 131104].getD r 0
    32767 < smallest ∧ (2 ≤ r → 65535 < smallest) ∧
    (sym < smallest → (grBins sym r).length ≤ 32 ∧ binGR 32 sym r = .ok (grBins sym r)) ∧
    (smallest ≤ sym → 32 < (grBins sym r).length ∧ binGR 32 sym r = .error .binCount)

/-! ### Residual coding (43_residual.md) -/

/-- COEF_WRITE completes in every state that takes it, with or without a valid bank: it writes one entry of the buffer and
changes nothing else, and every other entry reads as before. The buffer is in its canonical form, and stays in it; that form
is the model's choice (log 11). -/
def Obligations.CoefWriteEffect : Prop :=
  ∀ (idx : Nat) (val : Int) (s : State), s.takes → s.coef.wf → idx < 1024 → -32768 ≤ val → val ≤ 32767 →
    ∃ m, exec (.coefWrite idx val) s = .next { s with
        coef := m, cmdcnt := s.cmdcnt + 1, completions := s.completions ++ [false] } ∧
      m.wf ∧ (m.read idx).toInt = val ∧ ∀ a, a ≠ idx → m.read a = s.coef.read a

/-- The geometry CODE_COEFF and EST_RATES reject, CODE_COEFF in a valid bank before it reads a coefficient. -/
def Obligations.BadGeometryFaults : Prop :=
  ∀ (l2 scan : Nat) (pl ll : Bool) (s : State), s.ready →
    (l2 < 2 ∨ 5 < l2 ∨ s.config.maxLog2Tb.toNat < l2 ∨ (pl = true ∧ 4 < l2) ∨ 3 ≤ scan →
      exec (.codeCoeff l2 pl scan ll) s = .next (s.afterFault 0x41 .badGeometry)) ∧
    (l2 < 2 ∨ 5 < l2 ∨ (pl = true ∧ 4 < l2) →
      exec (.estRates l2 pl) s = .next (s.afterFault 0x50 .badGeometry))

/-- CODE_COEFF completes on every block whose geometry is accepted and whose hidden signs (where hiding is permitted) fit
their parity: it codes the bins of the block, none for an all-zero block. No coefficient can raise BIN_COUNT. -/
def Obligations.CodeCoeffCompletes : Prop :=
  ∀ (l2 scan : Nat) (pl ll : Bool) (s : State), s.ready →
    32 ≤ s.build.grMaxBins → s.build.riceMax ≤ 4 →
    2 ≤ l2 → l2 ≤ s.config.maxLog2Tb.toNat → l2 ≤ 5 → (pl = true → l2 ≤ 4) → scan ≤ 2 →
    (s.config.sbhEn = true ∧ ll = false → (s.block l2 pl scan ll).hiddenSignsFit) →
      ∃ bins, (s.block l2 pl scan ll).bins = .ok bins ∧
        exec (.codeCoeff l2 pl scan ll) s = .next (s.afterBins bins) ∧
        ((∀ x < 2 ^ l2, ∀ y < 2 ^ l2, s.coef.read (y * 2 ^ l2 + x) = 0) → bins = [])

/-- A sub-block whose hidden sign does not fit the parity of its magnitudes faults the whole command with SBH_PARITY:
nothing is emitted and no context changes. In every block CODE_COEFF commits, in every build, every hidden sign fits. -/
def Obligations.HiddenSignMismatchFaults : Prop :=
  ∀ (l2 scan : Nat) (pl : Bool) (s : State), s.ready → s.config.sbhEn = true →
    (32 ≤ s.build.grMaxBins → s.build.riceMax ≤ 4 →
      2 ≤ l2 → l2 ≤ s.config.maxLog2Tb.toNat → l2 ≤ 5 → (pl = true → l2 ≤ 4) → scan ≤ 2 →
      ¬ (s.block l2 pl scan false).hiddenSignsFit →
        exec (.codeCoeff l2 pl scan false) s = .next (s.afterFault 0x41 .sbhParity)) ∧
    (∀ t, exec (.codeCoeff l2 pl scan false) s = .next t → t.faulted = false → (s.block l2 pl scan false).hiddenSignsFit)

/-- A block whose only nonzero coefficient is the DC one, of value v: last position (0, 0), then the greater-than-1
flag, the greater-than-2 flag of a magnitude above 1, the sign, and the Golomb-Rice code of a magnitude above 2, written out
in r184Bins. -/
def Obligations.DcBlockBins : Prop :=
  ∀ (l2 scan : Nat) (pl ll : Bool) (v : Int) (s : State), s.ready →
    32 ≤ s.build.grMaxBins → 1 ≤ s.build.gt1MaxPerGroup → 1 ≤ s.build.sbhThreshold →
    2 ≤ l2 → l2 ≤ s.config.maxLog2Tb.toNat → l2 ≤ 5 → (pl = true → l2 ≤ 4) → scan ≤ 2 → v ≠ 0 →
    (s.coef.read 0).toInt = v → (∀ a < 4 ^ l2, a ≠ 0 → s.coef.read a = 0) →
      let inc := if pl then 15 else 3 * (l2 - 2) + (l2 - 1) / 4
      exec (.codeCoeff l2 pl scan ll) s = .next (s.afterBins
        (List.flatten [[.reg (88 + inc) false, .reg (106 + inc) false, .reg (if pl then 141 else 125) (decide (1 < v.natAbs))],
          if 1 < v.natAbs then [.reg (if pl then 152 else 148) (decide (2 < v.natAbs))] else [],
          [.ep (decide (v < 0))],
          if 2 < v.natAbs then (r184Bins (v.natAbs - 3) 0).map .ep else []]))

/-- The bins of a block determine its coefficients, hidden signs included: two blocks of one geometry with the same bins
hold the same coefficients. -/
def Obligations.BlockIsRecoverable : Prop :=
  ∀ (k m : Block) (bins : List Bin), 2 ≤ k.l2 → k.l2 ≤ 5 → k.scan ≤ 2 →
    m.build = k.build → m.l2 = k.l2 → m.chroma = k.chroma → m.scan = k.scan → m.hideOk = k.hideOk →
    k.bins = .ok bins → m.bins = .ok bins →
      ∀ x < 2 ^ k.l2, ∀ y < 2 ^ k.l2, k.at x y = m.at x y

/-- The bins of a block, each with its context, are those that `Residual.bins` reads off the coefficients: scan, last
position with its suffixes, coded-sub-block and significance flags, greater-than-1 and greater-than-2 flags in the context
set of the sub-block before, signs, and remaining levels with the parameter of the levels before. Every regular bin lies in
the context ranges of its plane, and no bin is a terminating one. -/
def Obligations.ResidualContextsByPlane : Prop :=
  ∀ (l2 scan : Nat) (pl ll : Bool) (s : State) (bins : List Bin),
    2 ≤ l2 → l2 ≤ 5 → (pl = true → l2 ≤ 4) → scan ≤ 2 →
    (s.block l2 pl scan ll).bins = .ok bins →
      bins = (s.residual l2 pl scan ll).bins ∧
      ∀ x ∈ bins, (∃ j b, x = .reg j b ∧ residualCtx pl j = true) ∨ ∃ b, x = .ep b

/-! ### Rate estimator (44_rate_estimator.md) -/

/-- EST_RATES fills every table from the live bank; the prefix cost of group g is the cost of g ones and, below the
maximum, a zero, in the contexts of R266. The cost of a bin is EB[s][0] where it is the MPS of its context and EB[s][1]
where it is not. CTX is unchanged and no event is emitted. -/
def Obligations.EstRatesEffect : Prop :=
  ∀ (l2 : Nat) (pl : Bool) (s : State), s.ready → 2 ≤ l2 → l2 ≤ 5 → (pl = true → l2 ≤ 4) →
    let bits := fun (i : Nat) (v : Bool) =>
      let x := ctxAt s.ctx i
      if v = x.valMps then (s.build.eb.getD x.pStateIdx.toNat (0, 0)).1 else (s.build.eb.getD x.pStateIdx.toNat (0, 0)).2
    let pairs := fun base size => (List.range size).map fun c =>
      (BitVec.ofNat 32 (bits (base + c) false), BitVec.ofNat 32 (bits (base + c) true))
    let cMax := 2 * l2 - 1
    let inc := fun j => if pl then 15 + j / 2 ^ (l2 - 2) else 3 * (l2 - 2) + (l2 - 1) / 4 + j / 2 ^ ((l2 + 1) / 4)
    let cost := fun base g => if cMax < g then 0 else
      ((List.range g).map fun j => bits (base + inc j) true).sum + (if g < cMax then bits (base + inc g) false else 0)
    exec (.estRates l2 pl) s = .next { s with
      est := ⟨pairs 28 10, pairs 38 1, pairs 42 4, pairs 46 42, pairs 124 24, pairs 148 6,
        (List.range 10).map fun g => BitVec.ofNat 32 (cost 88 g),
        (List.range 10).map fun g => BitVec.ofNat 32 (cost 106 g)⟩
      estComputed := true
      estValid := true
      cmdcnt := s.cmdcnt + 1
      completions := s.completions ++ [false] }

/-- EST_VALID is set by EST_RATES and cleared by every committed command that writes a context: the four that write the
bank, always, and every command that codes a regular bin. No other command changes it, nor does a command that faults or
is rejected. After hardware reset it is 0. -/
def Obligations.EstValidFollowsTheBank : Prop :=
  State.reset.estValid = false ∧
  ∀ (i : Instr) (s t : State) (es : List BinEvent), exec i s = .next t → t.bin = s.bin ++ es →
    let writesBank := (∃ st qp r, i = .resetEntropy st qp r) ∨ (∃ st qp r f, i = .updateContextTables st qp r f) ∨
      (∃ k, i = .load k) ∨ ∃ k g, i = .loadPartial k g
    (s.fault.cause = .capacity ∨ t.faulted = true → t.estValid = s.estValid) ∧
    (s.fault.cause ≠ .capacity → t.faulted = false →
      (∀ l2 pl, i = .estRates l2 pl → t.estValid = true) ∧
      (writesBank → t.estValid = false) ∧
      (¬ writesBank → (∀ l2 pl, i ≠ .estRates l2 pl) → t.estValid = (s.estValid && !es.any BinEvent.isReg)))

/-- EST_VALID means that the tables are what EST_RATES would compute now: every step keeps it so. -/
def Obligations.StepKeepsEstimatorFresh : Prop :=
  ∀ s t : State, s.EstInv → step s = .next t → t.EstInv

/-! ### Ports (20_memory.md) -/

/-- The REG map, address by address: the registers, SNAP_VALID, the contexts of a valid bank, every estimator word once
computed (a pair for each context of its group: the cost of a 0, then of a 1), and 0 at every address not listed. As bytes a
word goes out low byte first. -/
def Obligations.RegMap : Prop :=
  ∀ (s : State) (a : BitVec 12), s.Inv →
    (a = 0x000 → (s.regRead a).toNat = s.bankValid.toNat + 2 * s.faulted.toNat + 4 * s.faultSticky.toNat
      + 8 * s.estValid.toNat + 16 * s.initChoiceValid.toNat) ∧
    (a = 0x001 → (s.regRead a).toNat = s.fault.cause.code.toNat + 2 ^ 8 * s.fault.opcode.toNat) ∧
    (a = 0x002 → (s.regRead a).toNat = s.config.sbhEn.toNat + 2 * s.config.ampEn.toNat + 4 * s.config.lmEn.toNat
      + 8 * s.config.disInter4x4.toNat + 2 ^ 8 * s.config.qpBdOffsetY.toNat + 2 ^ 16 * s.config.maxLog2Tb.toNat) ∧
    (a = 0x003 → (s.regRead a).toNat = s.slice.sliceType.toNat + 2 ^ 8 * s.slice.qp.toNat + 2 ^ 16 * s.slice.initType.toNat) ∧
    (a = 0x004 → (s.regRead a).toNat = s.initTable.toNat + 2 ^ 8 * s.initChoiceValid.toNat) ∧
    (a = 0x005 → s.regRead a = s.initCostP) ∧ (a = 0x006 → s.regRead a = s.initCostB) ∧
    (a = 0x007 → s.regRead a = s.cmdcnt) ∧
    (a = 0x008 → ∀ k < 32, (s.regRead a).getLsbD k = ((s.snap[k]?.map Slot.valid).getD false)) ∧
    (∀ i < s.build.numCtx, a.toNat = 0x100 + i → s.bankValid = true →
      (s.regRead a).toNat = (ctxAt s.ctx i).pStateIdx.toNat + 2 ^ 6 * (ctxAt s.ctx i).valMps.toNat) ∧
    (s.estComputed = true →
      (∀ t ∈ [(0x200, 10, s.est.cbf), (0x214, 1, s.est.rootCbf), (0x216, 4, s.est.sigGroup), (0x21E, 42, s.est.sig),
          (0x272, 24, s.est.gt1), (0x2A2, 6, s.est.gt2)],
        ∀ c < t.2.1, ∀ b : Bool, a.toNat = t.1 + 2 * c + b.toNat →
          s.regRead a = if b then (t.2.2.getD c (0, 0)).2 else (t.2.2.getD c (0, 0)).1) ∧
      (∀ t ∈ [(0x2AE, s.est.lastX), (0x2B8, s.est.lastY)], ∀ g < 10, a.toNat = t.1 + g → s.regRead a = t.2.getD g 0)) ∧
    ((0x009 ≤ a.toNat ∧ a.toNat < 0x100) ∨ (0x100 + s.build.numCtx ≤ a.toNat ∧ a.toNat < 0x200) ∨ 0x2C2 ≤ a.toNat →
      s.regRead a = 0) ∧
    (∃ b0 b1 b2 b3 : BitVec 8, s.regReadBytes a = [b0, b1, b2, b3] ∧
      (s.regRead a).toNat = b0.toNat + 2 ^ 8 * b1.toNat + 2 ^ 16 * b2.toNat + 2 ^ 24 * b3.toNat)

/-- The record of an event, kind by kind: its kind in bits 3:0, its fields in place, every other bit 0. Different events have
different records, and as bytes a record goes out low byte first. -/
def Obligations.EventRecords : Prop :=
  BinEvent.start.record.toNat = 0 ∧ BinEvent.finish.record.toNat = 1 ∧
  (∀ b j p m, (BinEvent.reg b j p m).record.toNat =
    2 + 2 ^ 4 * b.toNat + 2 ^ 5 * j.toNat + 2 ^ 14 * p.toNat + 2 ^ 20 * m.toNat) ∧
  (∀ b, (BinEvent.ep b).record.toNat = 3 + 2 ^ 4 * b.toNat) ∧
  (∀ b, (BinEvent.trm b).record.toNat = 4 + 2 ^ 4 * b.toNat) ∧
  (∀ k, (BinEvent.copyTo k).record.toNat = 5 + 2 ^ 4 * k.toNat) ∧
  (∀ k, (BinEvent.copyFrom k).record.toNat = 6 + 2 ^ 4 * k.toNat) ∧
  (∀ e f : BinEvent, e.record = f.record → e = f) ∧
  (∀ e : BinEvent, ∃ b0 b1 b2 b3 : BitVec 8, e.recordBytes = [b0, b1, b2, b3] ∧
    e.record.toNat = b0.toNat + 2 ^ 8 * b1.toNat + 2 ^ 16 * b2.toNat + 2 ^ 24 * b3.toNat)

/-! ### Invariants -/

/-- The state after hardware reset of a legal build meets every invariant. -/
def Obligations.ResetMeetsTheInvariants : Prop :=
  ∀ b : Build, b.legal = true →
    (State.resetOf b).Inv ∧ (State.resetOf b).FaultInv ∧ (State.resetOf b).EstInv ∧
    State.reset.Inv ∧ State.reset.FaultInv ∧ State.reset.EstInv

/-- Every step keeps the shape of the state: bank and slots of the right size with every pStateIdx in 0..62, the
coefficient buffer in canonical form, CONFIG and the table numbers legal, valid slots only beside a valid bank. -/
def Obligations.StepKeepsTheStateShape : Prop :=
  ∀ s t : State, s.Inv → step s = .next t → t.Inv

/-- Every step keeps the fault registers in agreement. -/
def Obligations.StepKeepsFaultRegisters : Prop :=
  ∀ s t : State, s.FaultInv → step s = .next t → t.FaultInv
end

