-- ==== Sys2Proof/Laws/Binarize.lean ====
section
/-! SUPPORT. The binarizers: the loops of 41_binarization.md in closed form, and the strings of R182 and R184. -/

namespace Sys2Proof.Machine

open Sys2Proof

theorem binFL_eq_bitsDown (v n : Nat) : binFL v n = bitsDown v n := by
  induction n with
  | zero => rfl
  | succ n ih => simp [binFL, bitsDown, List.range_succ, ih]

@[simp] theorem bitsDown_length (v n : Nat) : (bitsDown v n).length = n := by simp [bitsDown]

theorem epBins_eq_epBitsOf (v n : Nat) : epBins v n = epBitsOf v n := by
  simp [epBins, epAll, binFL_eq_bitsDown, bitsDown, epBitsOf, Function.comp_def]

/-- What the loop of EGk gives: a prefix of `q` ones, and the distance from the first value with that prefix. -/
theorem binEGLoop_eq {fuel v k : Nat} (h : v < fuel) : ∃ q c, binEGLoop fuel v k = List.replicate q true ++ false :: binFL c (k + q) ∧
    v + 2 ^ k = 2 ^ (k + q) + c ∧ c < 2 ^ (k + q) := by
  induction fuel generalizing v k with
  | zero => omega
  | succ n ih =>
    have hp := Nat.two_pow_pos k
    unfold binEGLoop
    split
    · obtain ⟨q, c, h1, h2, h3⟩ := ih (v := v - 2 ^ k) (k := k + 1) (by omega)
      rw [show k + 1 + q = k + (q + 1) by omega] at h1 h2 h3
      refine ⟨q + 1, c, by rw [h1]; rfl, ?_, h3⟩
      rw [Nat.pow_succ] at h2
      omega
    · exact ⟨0, v, by simp, by simp [Nat.add_comm], by simpa using Nat.lt_of_not_le ‹_›⟩

/-- The prefix of R182 from the value it starts at. -/
theorem r182Bins_of {v k q c : Nat} (h : v + 2 ^ k = 2 ^ (k + q) + c) (hc : c < 2 ^ (k + q)) :
    r182Bins v k = List.replicate q true ++ false :: bitsDown c (k + q) := by
  have hp := Nat.two_pow_pos k
  have hq : v / 2 ^ k + 1 = 2 ^ q + c / 2 ^ k := by
    have : (v + 2 ^ k) / 2 ^ k = (2 ^ q * 2 ^ k + c) / 2 ^ k := by rw [h, Nat.pow_add, Nat.mul_comm]
    rwa [Nat.add_div_right _ hp, Nat.mul_comm, Nat.mul_add_div hp] at this
  have hlt : c / 2 ^ k < 2 ^ q := by rwa [Nat.div_lt_iff_lt_mul hp, Nat.mul_comm, ← Nat.pow_add]
  have hlog : Nat.log2 (v / 2 ^ k + 1) = q := by
    have h1 := Nat.two_pow_pos q
    rw [hq]
    generalize c / 2 ^ k = d at hlt
    rw [Nat.log2_eq_iff (by omega), Nat.pow_succ]
    omega
  have hs : v - 2 ^ k * (2 ^ q - 1) = c := by
    rw [Nat.mul_sub, ← Nat.pow_add]
    have := Nat.pow_le_pow_right (n := 2) (by omega) (show k ≤ k + q by omega)
    omega
  simp only [r182Bins, hlog, hs]

/-- EGk is the string of R182. -/
theorem binEGk_eq_r182Bins (v k : Nat) : binEGk v k = r182Bins v k := by
  obtain ⟨q, c, h1, h2, h3⟩ := binEGLoop_eq (k := k) (Nat.lt_succ_self v)
  rw [binEGk, h1, r182Bins_of h2 h3, binFL_eq_bitsDown]

/-- What the escape loop of GR gives: the suffix length `len + q`, and the distance from the first value with that length. -/
theorem escapeLoop_eq {fuel c len : Nat} (h : c < fuel) :
    ∃ q c', escapeLoop fuel c len = (c', len + q) ∧ c + 2 ^ len = 2 ^ (len + q) + c' ∧ c' < 2 ^ (len + q) := by
  induction fuel generalizing c len with
  | zero => omega
  | succ n ih =>
    have hp := Nat.two_pow_pos len
    unfold escapeLoop
    split
    · obtain ⟨q, c', h1, h2, h3⟩ := ih (c := c - 2 ^ len) (len := len + 1) (by omega)
      rw [show len + 1 + q = len + (q + 1) by omega] at h1 h2 h3
      refine ⟨q + 1, c', h1, ?_, h3⟩
      rw [Nat.pow_succ] at h2
      omega
    · exact ⟨0, c, rfl, by simp [Nat.add_comm], by simpa using Nat.lt_of_not_le ‹_›⟩

/-- GR is the string of R184. -/
theorem grBins_eq_r184Bins (sym r : Nat) : grBins sym r = r184Bins sym r := by
  unfold grBins r184Bins
  split
  · simp [binFL_eq_bitsDown]
  · obtain ⟨q, c, h1, h2, h3⟩ := escapeLoop_eq (fuel := sym + 1) (c := sym - 3 * 2 ^ r) (len := r) (by omega)
    rw [r182Bins_of h2 h3]
    simp only [h1, binFL_eq_bitsDown]
    rw [show 3 + (r + q) + 1 - r - 1 = 3 + q by omega, List.replicate_add]
    simp

/-- GR within its bound is that string. -/
theorem binGR_ok {maxBins sym r : Nat} {bs : List Bool} (h : binGR maxBins sym r = .ok bs) : bs = r184Bins sym r := by
  unfold binGR at h
  split at h
  · cases h
  · exact (Except.ok.inj h).symm.trans (grBins_eq_r184Bins sym r)

theorem r184Bins_length_of_lt {sym r : Nat} (h : sym < 3 * 2 ^ r) : (r184Bins sym r).length = sym / 2 ^ r + 1 + r := by
  simp [r184Bins, h]
  omega

/-- The length of a GR string past the truncated part, from its suffix length. -/
theorem r184Bins_length {sym r q c : Nat} (h : sym = 3 * 2 ^ r + (2 ^ (r + q) - 2 ^ r) + c) (hc : c < 2 ^ (r + q)) :
    (r184Bins sym r).length = 4 + r + 2 * q := by
  have := Nat.pow_le_pow_right (n := 2) (by omega) (show r ≤ r + q by omega)
  rw [r184Bins, if_neg (by omega), r182Bins_of (q := q) (c := c) (by omega) hc]
  simp
  omega

end Sys2Proof.Machine
end

