-- ==== Sys2Proof/Laws/Bins.lean ====
section
/-! SUPPORT. Coding bins: what a string of bins does to the bank and to the stream, said once. -/

namespace Sys2Proof.Machine

open Sys2Proof

@[simp] theorem codeBins_nil (bank : List Ctx) : codeBins [] bank = (bank, []) := rfl

theorem codeBins_cons (x : Bin) (xs : List Bin) (bank : List Ctx) : codeBins (x :: xs) bank =
    ((codeBins xs (codeBin x bank).1).1, (codeBin x bank).2 :: (codeBins xs (codeBin x bank).1).2) := rfl

/-- A string of bins is coded in order: the second part sees the updates of the first. -/
theorem codeBins_append (xs ys : List Bin) (bank : List Ctx) : codeBins (xs ++ ys) bank =
    ((codeBins ys (codeBins xs bank).1).1, (codeBins xs bank).2 ++ (codeBins ys (codeBins xs bank).1).2) := by
  induction xs generalizing bank with
  | nil => rfl
  | cons x xs ih => simp [codeBins_cons, ih]

/-! ### The bank -/

@[simp] theorem codeBin_length (x : Bin) (bank : List Ctx) : (codeBin x bank).1.length = bank.length := by
  cases x <;> simp [codeBin]

@[simp] theorem codeBins_length (xs : List Bin) (bank : List Ctx) : (codeBins xs bank).1.length = bank.length := by
  induction xs generalizing bank with
  | nil => rfl
  | cons x xs ih => simp [codeBins_cons, ih]

theorem codeBin_of_not_isReg {x : Bin} (h : x.isReg = false) (bank : List Ctx) : (codeBin x bank).1 = bank := by
  cases x <;> simp_all [codeBin, Bin.isReg]

/-- Bypass and terminating bins leave the bank alone (40_context_bank.md R136). -/
theorem codeBins_of_no_reg {xs : List Bin} (h : xs.any Bin.isReg = false) (bank : List Ctx) :
    (codeBins xs bank).1 = bank := by
  induction xs generalizing bank with
  | nil => rfl
  | cons x xs ih =>
    simp only [List.any_cons, Bool.or_eq_false_iff] at h
    simp [codeBins_cons, ih h.2, codeBin_of_not_isReg h.1]

theorem transIdxLps_le (n : Nat) : transIdxLps.getD n 0 ≤ 38 := by
  rcases Nat.lt_or_ge n 63 with h | h
  · exact (by decide : ∀ n < 63, transIdxLps.getD n 0 ≤ 38) n h
  · rw [List.getD_eq_default _ _ (by simpa [transIdxLps] using h)]
    omega

/-- Every transition ends in a state of the table (40_context_bank.md R135). -/
theorem Ctx.update_inRange (x : Ctx) (b : Bool) : (x.update b).inRange := by
  unfold Ctx.update Ctx.inRange
  split
  · simp only [transIdxMps, BitVec.toNat_ofNat]
    omega
  · simp only [BitVec.toNat_ofNat]
    have := transIdxLps_le x.pStateIdx.toNat
    omega

theorem codeBin_inRange {bank : List Ctx} (h : ∀ x ∈ bank, x.inRange) (x : Bin) : ∀ y ∈ (codeBin x bank).1, y.inRange := by
  cases x with
  | reg i b =>
    intro y hy
    rcases List.mem_or_eq_of_mem_set hy with hy | rfl
    · exact h y hy
    · exact Ctx.update_inRange _ _
  | ep b => exact h
  | trm b => exact h

/-- Coding bins keeps the bank's size and the range of every context (10_state.md R32). -/
theorem codeBins_bankOk {n : Nat} {bank : List Ctx} (h : bankOk n bank) (xs : List Bin) :
    bankOk n (codeBins xs bank).1 := by
  refine ⟨by simp [h.1], ?_⟩
  have h2 := h.2
  clear h
  induction xs generalizing bank with
  | nil => exact h2
  | cons x xs ih => exact ih (codeBin_inRange h2 x)

/-! ### The stream -/

@[simp] theorem codeBins_events_length (xs : List Bin) (bank : List Ctx) : (codeBins xs bank).2.length = xs.length := by
  induction xs generalizing bank with
  | nil => rfl
  | cons x xs ih => simp [codeBins_cons, ih]

theorem codeBin_isReg (x : Bin) (bank : List Ctx) : (codeBin x bank).2.isReg = x.isReg := by
  cases x <;> rfl

/-- A REG event is emitted exactly when a regular bin is coded. -/
theorem codeBins_any_isReg (xs : List Bin) (bank : List Ctx) :
    (codeBins xs bank).2.any BinEvent.isReg = xs.any Bin.isReg := by
  induction xs generalizing bank with
  | nil => rfl
  | cons x xs ih => simp [codeBins_cons, ih, codeBin_isReg]

/-- Every REG event carries the context index of some regular bin. -/
theorem codeBins_reg_event {xs : List Bin} {bank : List Ctx} {b : Bool} {j : BitVec 9} {p : BitVec 6} {m : Bool}
    (h : BinEvent.reg b j p m ∈ (codeBins xs bank).2) : ∃ i, Bin.reg i b ∈ xs ∧ j = BitVec.ofNat 9 i := by
  induction xs generalizing bank with
  | nil => simp at h
  | cons x xs ih =>
    rcases List.mem_cons.1 h with h | h
    · cases x with
      | reg i b' =>
        simp only [codeBin, BinEvent.reg.injEq] at h
        exact ⟨i, by simp [h.1], h.2.1⟩
      | ep b' => simp [codeBin] at h
      | trm b' => simp [codeBin] at h
    · obtain ⟨i, hi, hj⟩ := ih h
      exact ⟨i, by simp [hi], hj⟩

end Sys2Proof.Machine
end

