-- ==== Sys2Proof/Laws/State.lean ====
section
/-! SUPPORT. What each update of the state does to each field, one lemma a field, so that no proof unfolds a record update. -/

namespace Sys2Proof.Machine

open Sys2Proof

variable (s : State)

/-! ### `State.complete`: the end of every command -/

@[simp] theorem State.complete_build : (s.complete).build = s.build := rfl
@[simp] theorem State.complete_pending : (s.complete).pending = s.pending := rfl
@[simp] theorem State.complete_ctx : (s.complete).ctx = s.ctx := rfl
@[simp] theorem State.complete_snap : (s.complete).snap = s.snap := rfl
@[simp] theorem State.complete_coef : (s.complete).coef = s.coef := rfl
@[simp] theorem State.complete_config : (s.complete).config = s.config := rfl
@[simp] theorem State.complete_slice : (s.complete).slice = s.slice := rfl
@[simp] theorem State.complete_initTable : (s.complete).initTable = s.initTable := rfl
@[simp] theorem State.complete_initCostP : (s.complete).initCostP = s.initCostP := rfl
@[simp] theorem State.complete_initCostB : (s.complete).initCostB = s.initCostB := rfl
@[simp] theorem State.complete_fault : (s.complete).fault = s.fault := rfl
@[simp] theorem State.complete_cmdcnt : (s.complete).cmdcnt = s.cmdcnt + 1 := rfl
@[simp] theorem State.complete_est : (s.complete).est = s.est := rfl
@[simp] theorem State.complete_estComputed : (s.complete).estComputed = s.estComputed := rfl
@[simp] theorem State.complete_bankValid : (s.complete).bankValid = s.bankValid := rfl
@[simp] theorem State.complete_faulted : (s.complete).faulted = s.faulted := rfl
@[simp] theorem State.complete_faultSticky : (s.complete).faultSticky = s.faultSticky := rfl
@[simp] theorem State.complete_estValid : (s.complete).estValid = s.estValid := rfl
@[simp] theorem State.complete_initChoiceValid : (s.complete).initChoiceValid = s.initChoiceValid := rfl
@[simp] theorem State.complete_bin : (s.complete).bin = s.bin := rfl
@[simp] theorem State.complete_completions : (s.complete).completions = s.completions ++ [s.faulted] := rfl

/-! ### `State.takeFault`: taking a fault -/

@[simp] theorem State.takeFault_build (op : Nat) (c : Cause) : (s.takeFault op c).build = s.build := rfl
@[simp] theorem State.takeFault_pending (op : Nat) (c : Cause) : (s.takeFault op c).pending = s.pending := rfl
@[simp] theorem State.takeFault_ctx (op : Nat) (c : Cause) : (s.takeFault op c).ctx = s.ctx := rfl
@[simp] theorem State.takeFault_snap (op : Nat) (c : Cause) : (s.takeFault op c).snap = s.snap := rfl
@[simp] theorem State.takeFault_coef (op : Nat) (c : Cause) : (s.takeFault op c).coef = s.coef := rfl
@[simp] theorem State.takeFault_config (op : Nat) (c : Cause) : (s.takeFault op c).config = s.config := rfl
@[simp] theorem State.takeFault_slice (op : Nat) (c : Cause) : (s.takeFault op c).slice = s.slice := rfl
@[simp] theorem State.takeFault_initTable (op : Nat) (c : Cause) : (s.takeFault op c).initTable = s.initTable := rfl
@[simp] theorem State.takeFault_initCostP (op : Nat) (c : Cause) : (s.takeFault op c).initCostP = s.initCostP := rfl
@[simp] theorem State.takeFault_initCostB (op : Nat) (c : Cause) : (s.takeFault op c).initCostB = s.initCostB := rfl
@[simp] theorem State.takeFault_fault (op : Nat) (c : Cause) : (s.takeFault op c).fault =
    if s.faulted then s.fault else ⟨c, BitVec.ofNat 8 op⟩ := rfl
@[simp] theorem State.takeFault_cmdcnt (op : Nat) (c : Cause) : (s.takeFault op c).cmdcnt = s.cmdcnt := rfl
@[simp] theorem State.takeFault_est (op : Nat) (c : Cause) : (s.takeFault op c).est = s.est := rfl
@[simp] theorem State.takeFault_estComputed (op : Nat) (c : Cause) : (s.takeFault op c).estComputed =
    s.estComputed := rfl
@[simp] theorem State.takeFault_bankValid (op : Nat) (c : Cause) : (s.takeFault op c).bankValid = s.bankValid := rfl
@[simp] theorem State.takeFault_faulted (op : Nat) (c : Cause) : (s.takeFault op c).faulted = true := rfl
@[simp] theorem State.takeFault_faultSticky (op : Nat) (c : Cause) : (s.takeFault op c).faultSticky = true := rfl
@[simp] theorem State.takeFault_estValid (op : Nat) (c : Cause) : (s.takeFault op c).estValid = s.estValid := rfl
@[simp] theorem State.takeFault_initChoiceValid (op : Nat) (c : Cause) : (s.takeFault op c).initChoiceValid =
    s.initChoiceValid := rfl
@[simp] theorem State.takeFault_bin (op : Nat) (c : Cause) : (s.takeFault op c).bin = s.bin := rfl
@[simp] theorem State.takeFault_completions (op : Nat) (c : Cause) : (s.takeFault op c).completions =
    s.completions := rfl

/-! ### `State.code`: coding bins -/

@[simp] theorem State.code_build (bins : List Bin) : (s.code bins).build = s.build := rfl
@[simp] theorem State.code_pending (bins : List Bin) : (s.code bins).pending = s.pending := rfl
@[simp] theorem State.code_ctx (bins : List Bin) : (s.code bins).ctx = (codeBins bins s.ctx).1 := rfl
@[simp] theorem State.code_snap (bins : List Bin) : (s.code bins).snap = s.snap := rfl
@[simp] theorem State.code_coef (bins : List Bin) : (s.code bins).coef = s.coef := rfl
@[simp] theorem State.code_config (bins : List Bin) : (s.code bins).config = s.config := rfl
@[simp] theorem State.code_slice (bins : List Bin) : (s.code bins).slice = s.slice := rfl
@[simp] theorem State.code_initTable (bins : List Bin) : (s.code bins).initTable = s.initTable := rfl
@[simp] theorem State.code_initCostP (bins : List Bin) : (s.code bins).initCostP = s.initCostP := rfl
@[simp] theorem State.code_initCostB (bins : List Bin) : (s.code bins).initCostB = s.initCostB := rfl
@[simp] theorem State.code_fault (bins : List Bin) : (s.code bins).fault = s.fault := rfl
@[simp] theorem State.code_cmdcnt (bins : List Bin) : (s.code bins).cmdcnt = s.cmdcnt := rfl
@[simp] theorem State.code_est (bins : List Bin) : (s.code bins).est = s.est := rfl
@[simp] theorem State.code_estComputed (bins : List Bin) : (s.code bins).estComputed = s.estComputed := rfl
@[simp] theorem State.code_bankValid (bins : List Bin) : (s.code bins).bankValid = s.bankValid := rfl
@[simp] theorem State.code_faulted (bins : List Bin) : (s.code bins).faulted = s.faulted := rfl
@[simp] theorem State.code_faultSticky (bins : List Bin) : (s.code bins).faultSticky = s.faultSticky := rfl
@[simp] theorem State.code_estValid (bins : List Bin) : (s.code bins).estValid = estValidAfter s.estValid bins := rfl
@[simp] theorem State.code_initChoiceValid (bins : List Bin) : (s.code bins).initChoiceValid = s.initChoiceValid := rfl
@[simp] theorem State.code_bin (bins : List Bin) : (s.code bins).bin = s.bin ++ (codeBins bins s.ctx).2 := rfl
@[simp] theorem State.code_completions (bins : List Bin) : (s.code bins).completions = s.completions := rfl

/-! ### `State.emit`: emitting events -/

@[simp] theorem State.emit_build (es : List BinEvent) : (s.emit es).build = s.build := rfl
@[simp] theorem State.emit_pending (es : List BinEvent) : (s.emit es).pending = s.pending := rfl
@[simp] theorem State.emit_ctx (es : List BinEvent) : (s.emit es).ctx = s.ctx := rfl
@[simp] theorem State.emit_snap (es : List BinEvent) : (s.emit es).snap = s.snap := rfl
@[simp] theorem State.emit_coef (es : List BinEvent) : (s.emit es).coef = s.coef := rfl
@[simp] theorem State.emit_config (es : List BinEvent) : (s.emit es).config = s.config := rfl
@[simp] theorem State.emit_slice (es : List BinEvent) : (s.emit es).slice = s.slice := rfl
@[simp] theorem State.emit_initTable (es : List BinEvent) : (s.emit es).initTable = s.initTable := rfl
@[simp] theorem State.emit_initCostP (es : List BinEvent) : (s.emit es).initCostP = s.initCostP := rfl
@[simp] theorem State.emit_initCostB (es : List BinEvent) : (s.emit es).initCostB = s.initCostB := rfl
@[simp] theorem State.emit_fault (es : List BinEvent) : (s.emit es).fault = s.fault := rfl
@[simp] theorem State.emit_cmdcnt (es : List BinEvent) : (s.emit es).cmdcnt = s.cmdcnt := rfl
@[simp] theorem State.emit_est (es : List BinEvent) : (s.emit es).est = s.est := rfl
@[simp] theorem State.emit_estComputed (es : List BinEvent) : (s.emit es).estComputed = s.estComputed := rfl
@[simp] theorem State.emit_bankValid (es : List BinEvent) : (s.emit es).bankValid = s.bankValid := rfl
@[simp] theorem State.emit_faulted (es : List BinEvent) : (s.emit es).faulted = s.faulted := rfl
@[simp] theorem State.emit_faultSticky (es : List BinEvent) : (s.emit es).faultSticky = s.faultSticky := rfl
@[simp] theorem State.emit_estValid (es : List BinEvent) : (s.emit es).estValid = s.estValid := rfl
@[simp] theorem State.emit_initChoiceValid (es : List BinEvent) : (s.emit es).initChoiceValid = s.initChoiceValid := rfl
@[simp] theorem State.emit_bin (es : List BinEvent) : (s.emit es).bin = s.bin ++ es := rfl
@[simp] theorem State.emit_completions (es : List BinEvent) : (s.emit es).completions = s.completions := rfl

/-! ### `State.setSlot`: writing a slot -/

@[simp] theorem State.setSlot_build (k : Nat) (bank : List Ctx) : (s.setSlot k bank).build = s.build := rfl
@[simp] theorem State.setSlot_pending (k : Nat) (bank : List Ctx) : (s.setSlot k bank).pending = s.pending := rfl
@[simp] theorem State.setSlot_ctx (k : Nat) (bank : List Ctx) : (s.setSlot k bank).ctx = s.ctx := rfl
@[simp] theorem State.setSlot_snap (k : Nat) (bank : List Ctx) : (s.setSlot k bank).snap =
    s.snap.set k ⟨true, bank⟩ := rfl
@[simp] theorem State.setSlot_coef (k : Nat) (bank : List Ctx) : (s.setSlot k bank).coef = s.coef := rfl
@[simp] theorem State.setSlot_config (k : Nat) (bank : List Ctx) : (s.setSlot k bank).config = s.config := rfl
@[simp] theorem State.setSlot_slice (k : Nat) (bank : List Ctx) : (s.setSlot k bank).slice = s.slice := rfl
@[simp] theorem State.setSlot_initTable (k : Nat) (bank : List Ctx) : (s.setSlot k bank).initTable = s.initTable := rfl
@[simp] theorem State.setSlot_initCostP (k : Nat) (bank : List Ctx) : (s.setSlot k bank).initCostP = s.initCostP := rfl
@[simp] theorem State.setSlot_initCostB (k : Nat) (bank : List Ctx) : (s.setSlot k bank).initCostB = s.initCostB := rfl
@[simp] theorem State.setSlot_fault (k : Nat) (bank : List Ctx) : (s.setSlot k bank).fault = s.fault := rfl
@[simp] theorem State.setSlot_cmdcnt (k : Nat) (bank : List Ctx) : (s.setSlot k bank).cmdcnt = s.cmdcnt := rfl
@[simp] theorem State.setSlot_est (k : Nat) (bank : List Ctx) : (s.setSlot k bank).est = s.est := rfl
@[simp] theorem State.setSlot_estComputed (k : Nat) (bank : List Ctx) : (s.setSlot k bank).estComputed =
    s.estComputed := rfl
@[simp] theorem State.setSlot_bankValid (k : Nat) (bank : List Ctx) : (s.setSlot k bank).bankValid = s.bankValid := rfl
@[simp] theorem State.setSlot_faulted (k : Nat) (bank : List Ctx) : (s.setSlot k bank).faulted = s.faulted := rfl
@[simp] theorem State.setSlot_faultSticky (k : Nat) (bank : List Ctx) : (s.setSlot k bank).faultSticky =
    s.faultSticky := rfl
@[simp] theorem State.setSlot_estValid (k : Nat) (bank : List Ctx) : (s.setSlot k bank).estValid = s.estValid := rfl
@[simp] theorem State.setSlot_initChoiceValid (k : Nat) (bank : List Ctx) : (s.setSlot k bank).initChoiceValid =
    s.initChoiceValid := rfl
@[simp] theorem State.setSlot_bin (k : Nat) (bank : List Ctx) : (s.setSlot k bank).bin = s.bin := rfl
@[simp] theorem State.setSlot_completions (k : Nat) (bank : List Ctx) : (s.setSlot k bank).completions =
    s.completions := rfl

/-! ### `State.setBank`: writing the bank -/

@[simp] theorem State.setBank_build (bank : List Ctx) : (s.setBank bank).build = s.build := rfl
@[simp] theorem State.setBank_pending (bank : List Ctx) : (s.setBank bank).pending = s.pending := rfl
@[simp] theorem State.setBank_ctx (bank : List Ctx) : (s.setBank bank).ctx = bank := rfl
@[simp] theorem State.setBank_snap (bank : List Ctx) : (s.setBank bank).snap = s.snap := rfl
@[simp] theorem State.setBank_coef (bank : List Ctx) : (s.setBank bank).coef = s.coef := rfl
@[simp] theorem State.setBank_config (bank : List Ctx) : (s.setBank bank).config = s.config := rfl
@[simp] theorem State.setBank_slice (bank : List Ctx) : (s.setBank bank).slice = s.slice := rfl
@[simp] theorem State.setBank_initTable (bank : List Ctx) : (s.setBank bank).initTable = s.initTable := rfl
@[simp] theorem State.setBank_initCostP (bank : List Ctx) : (s.setBank bank).initCostP = s.initCostP := rfl
@[simp] theorem State.setBank_initCostB (bank : List Ctx) : (s.setBank bank).initCostB = s.initCostB := rfl
@[simp] theorem State.setBank_fault (bank : List Ctx) : (s.setBank bank).fault = s.fault := rfl
@[simp] theorem State.setBank_cmdcnt (bank : List Ctx) : (s.setBank bank).cmdcnt = s.cmdcnt := rfl
@[simp] theorem State.setBank_est (bank : List Ctx) : (s.setBank bank).est = s.est := rfl
@[simp] theorem State.setBank_estComputed (bank : List Ctx) : (s.setBank bank).estComputed = s.estComputed := rfl
@[simp] theorem State.setBank_bankValid (bank : List Ctx) : (s.setBank bank).bankValid = true := rfl
@[simp] theorem State.setBank_faulted (bank : List Ctx) : (s.setBank bank).faulted = s.faulted := rfl
@[simp] theorem State.setBank_faultSticky (bank : List Ctx) : (s.setBank bank).faultSticky = s.faultSticky := rfl
@[simp] theorem State.setBank_estValid (bank : List Ctx) : (s.setBank bank).estValid = false := rfl
@[simp] theorem State.setBank_initChoiceValid (bank : List Ctx) : (s.setBank bank).initChoiceValid =
    s.initChoiceValid := rfl
@[simp] theorem State.setBank_bin (bank : List Ctx) : (s.setBank bank).bin = s.bin := rfl
@[simp] theorem State.setBank_completions (bank : List Ctx) : (s.setBank bank).completions = s.completions := rfl

/-! ### `State.reinit`: re-initialising the bank -/

@[simp] theorem State.reinit_build (st : Nat) (qp : Int) (useRec : Bool) : (s.reinit st qp useRec).build =
    s.build := rfl
@[simp] theorem State.reinit_pending (st : Nat) (qp : Int) (useRec : Bool) : (s.reinit st qp useRec).pending =
    s.pending := rfl
@[simp] theorem State.reinit_ctx (st : Nat) (qp : Int) (useRec : Bool) : (s.reinit st qp useRec).ctx =
    initBank s.build (s.tableFor st useRec) qp := rfl
@[simp] theorem State.reinit_snap (st : Nat) (qp : Int) (useRec : Bool) : (s.reinit st qp useRec).snap = s.snap := rfl
@[simp] theorem State.reinit_coef (st : Nat) (qp : Int) (useRec : Bool) : (s.reinit st qp useRec).coef = s.coef := rfl
@[simp] theorem State.reinit_config (st : Nat) (qp : Int) (useRec : Bool) : (s.reinit st qp useRec).config =
    s.config := rfl
@[simp] theorem State.reinit_slice (st : Nat) (qp : Int) (useRec : Bool) : (s.reinit st qp useRec).slice =
    ⟨BitVec.ofNat 2 st, BitVec.ofInt 8 qp, BitVec.ofNat 2 (s.tableFor st useRec)⟩ := rfl
@[simp] theorem State.reinit_initTable (st : Nat) (qp : Int) (useRec : Bool) : (s.reinit st qp useRec).initTable =
    s.initTable := rfl
@[simp] theorem State.reinit_initCostP (st : Nat) (qp : Int) (useRec : Bool) : (s.reinit st qp useRec).initCostP =
    s.initCostP := rfl
@[simp] theorem State.reinit_initCostB (st : Nat) (qp : Int) (useRec : Bool) : (s.reinit st qp useRec).initCostB =
    s.initCostB := rfl
@[simp] theorem State.reinit_fault (st : Nat) (qp : Int) (useRec : Bool) : (s.reinit st qp useRec).fault =
    s.fault := rfl
@[simp] theorem State.reinit_cmdcnt (st : Nat) (qp : Int) (useRec : Bool) : (s.reinit st qp useRec).cmdcnt =
    s.cmdcnt := rfl
@[simp] theorem State.reinit_est (st : Nat) (qp : Int) (useRec : Bool) : (s.reinit st qp useRec).est = s.est := rfl
@[simp] theorem State.reinit_estComputed (st : Nat) (qp : Int) (useRec : Bool) : (s.reinit st qp useRec).estComputed =
    s.estComputed := rfl
@[simp] theorem State.reinit_bankValid (st : Nat) (qp : Int) (useRec : Bool) : (s.reinit st qp useRec).bankValid =
    true := rfl
@[simp] theorem State.reinit_faulted (st : Nat) (qp : Int) (useRec : Bool) : (s.reinit st qp useRec).faulted =
    s.faulted := rfl
@[simp] theorem State.reinit_faultSticky (st : Nat) (qp : Int) (useRec : Bool) : (s.reinit st qp useRec).faultSticky =
    s.faultSticky := rfl
@[simp] theorem State.reinit_estValid (st : Nat) (qp : Int) (useRec : Bool) : (s.reinit st qp useRec).estValid =
    false := rfl
@[simp] theorem State.reinit_initChoiceValid (st : Nat) (qp : Int) (useRec : Bool) : (s.reinit st qp useRec).initChoiceValid =
    s.initChoiceValid := rfl
@[simp] theorem State.reinit_bin (st : Nat) (qp : Int) (useRec : Bool) : (s.reinit st qp useRec).bin = s.bin := rfl
@[simp] theorem State.reinit_completions (st : Nat) (qp : Int) (useRec : Bool) : (s.reinit st qp useRec).completions =
    s.completions := rfl

/-! ### `State.leaveFaulted`: leaving the faulted state -/

@[simp] theorem State.leaveFaulted_build : (s.leaveFaulted).build = s.build := rfl
@[simp] theorem State.leaveFaulted_pending : (s.leaveFaulted).pending = s.pending := rfl
@[simp] theorem State.leaveFaulted_ctx : (s.leaveFaulted).ctx = s.ctx := rfl
@[simp] theorem State.leaveFaulted_snap : (s.leaveFaulted).snap = s.snap := rfl
@[simp] theorem State.leaveFaulted_coef : (s.leaveFaulted).coef = s.coef := rfl
@[simp] theorem State.leaveFaulted_config : (s.leaveFaulted).config = s.config := rfl
@[simp] theorem State.leaveFaulted_slice : (s.leaveFaulted).slice = s.slice := rfl
@[simp] theorem State.leaveFaulted_initTable : (s.leaveFaulted).initTable = s.initTable := rfl
@[simp] theorem State.leaveFaulted_initCostP : (s.leaveFaulted).initCostP = s.initCostP := rfl
@[simp] theorem State.leaveFaulted_initCostB : (s.leaveFaulted).initCostB = s.initCostB := rfl
@[simp] theorem State.leaveFaulted_fault : (s.leaveFaulted).fault = s.fault := rfl
@[simp] theorem State.leaveFaulted_cmdcnt : (s.leaveFaulted).cmdcnt = s.cmdcnt := rfl
@[simp] theorem State.leaveFaulted_est : (s.leaveFaulted).est = s.est := rfl
@[simp] theorem State.leaveFaulted_estComputed : (s.leaveFaulted).estComputed = s.estComputed := rfl
@[simp] theorem State.leaveFaulted_bankValid : (s.leaveFaulted).bankValid = s.bankValid := rfl
@[simp] theorem State.leaveFaulted_faulted : (s.leaveFaulted).faulted = false := rfl
@[simp] theorem State.leaveFaulted_faultSticky : (s.leaveFaulted).faultSticky = s.faultSticky := rfl
@[simp] theorem State.leaveFaulted_estValid : (s.leaveFaulted).estValid = s.estValid := rfl
@[simp] theorem State.leaveFaulted_initChoiceValid : (s.leaveFaulted).initChoiceValid = s.initChoiceValid := rfl
@[simp] theorem State.leaveFaulted_bin : (s.leaveFaulted).bin = s.bin := rfl
@[simp] theorem State.leaveFaulted_completions : (s.leaveFaulted).completions = s.completions := rfl

/-! ### `State.withFetchWord`: putting a word at the port -/

@[simp] theorem State.withFetchWord_build (nbits w : Nat) : (s.withFetchWord nbits w).build = s.build := rfl
@[simp] theorem State.withFetchWord_pending (nbits w : Nat) : (s.withFetchWord nbits w).pending =
    .command (fetchWord nbits w) :: s.pending := rfl
@[simp] theorem State.withFetchWord_ctx (nbits w : Nat) : (s.withFetchWord nbits w).ctx = s.ctx := rfl
@[simp] theorem State.withFetchWord_snap (nbits w : Nat) : (s.withFetchWord nbits w).snap = s.snap := rfl
@[simp] theorem State.withFetchWord_coef (nbits w : Nat) : (s.withFetchWord nbits w).coef = s.coef := rfl
@[simp] theorem State.withFetchWord_config (nbits w : Nat) : (s.withFetchWord nbits w).config = s.config := rfl
@[simp] theorem State.withFetchWord_slice (nbits w : Nat) : (s.withFetchWord nbits w).slice = s.slice := rfl
@[simp] theorem State.withFetchWord_initTable (nbits w : Nat) : (s.withFetchWord nbits w).initTable = s.initTable := rfl
@[simp] theorem State.withFetchWord_initCostP (nbits w : Nat) : (s.withFetchWord nbits w).initCostP = s.initCostP := rfl
@[simp] theorem State.withFetchWord_initCostB (nbits w : Nat) : (s.withFetchWord nbits w).initCostB = s.initCostB := rfl
@[simp] theorem State.withFetchWord_fault (nbits w : Nat) : (s.withFetchWord nbits w).fault = s.fault := rfl
@[simp] theorem State.withFetchWord_cmdcnt (nbits w : Nat) : (s.withFetchWord nbits w).cmdcnt = s.cmdcnt := rfl
@[simp] theorem State.withFetchWord_est (nbits w : Nat) : (s.withFetchWord nbits w).est = s.est := rfl
@[simp] theorem State.withFetchWord_estComputed (nbits w : Nat) : (s.withFetchWord nbits w).estComputed =
    s.estComputed := rfl
@[simp] theorem State.withFetchWord_bankValid (nbits w : Nat) : (s.withFetchWord nbits w).bankValid = s.bankValid := rfl
@[simp] theorem State.withFetchWord_faulted (nbits w : Nat) : (s.withFetchWord nbits w).faulted = s.faulted := rfl
@[simp] theorem State.withFetchWord_faultSticky (nbits w : Nat) : (s.withFetchWord nbits w).faultSticky =
    s.faultSticky := rfl
@[simp] theorem State.withFetchWord_estValid (nbits w : Nat) : (s.withFetchWord nbits w).estValid = s.estValid := rfl
@[simp] theorem State.withFetchWord_initChoiceValid (nbits w : Nat) : (s.withFetchWord nbits w).initChoiceValid =
    s.initChoiceValid := rfl
@[simp] theorem State.withFetchWord_bin (nbits w : Nat) : (s.withFetchWord nbits w).bin = s.bin := rfl
@[simp] theorem State.withFetchWord_completions (nbits w : Nat) : (s.withFetchWord nbits w).completions =
    s.completions := rfl

/-! ### `State.hardwareReset` -/

@[simp] theorem State.hardwareReset_build : s.hardwareReset.build = (State.resetOf s.build).build := rfl
@[simp] theorem State.hardwareReset_pending : s.hardwareReset.pending = s.pending := rfl
@[simp] theorem State.hardwareReset_ctx : s.hardwareReset.ctx = (State.resetOf s.build).ctx := rfl
@[simp] theorem State.hardwareReset_snap : s.hardwareReset.snap = (State.resetOf s.build).snap := rfl
@[simp] theorem State.hardwareReset_coef : s.hardwareReset.coef = (State.resetOf s.build).coef := rfl
@[simp] theorem State.hardwareReset_config : s.hardwareReset.config = (State.resetOf s.build).config := rfl
@[simp] theorem State.hardwareReset_slice : s.hardwareReset.slice = (State.resetOf s.build).slice := rfl
@[simp] theorem State.hardwareReset_initTable : s.hardwareReset.initTable = (State.resetOf s.build).initTable := rfl
@[simp] theorem State.hardwareReset_initCostP : s.hardwareReset.initCostP = (State.resetOf s.build).initCostP := rfl
@[simp] theorem State.hardwareReset_initCostB : s.hardwareReset.initCostB = (State.resetOf s.build).initCostB := rfl
@[simp] theorem State.hardwareReset_fault : s.hardwareReset.fault = (State.resetOf s.build).fault := rfl
@[simp] theorem State.hardwareReset_cmdcnt : s.hardwareReset.cmdcnt = (State.resetOf s.build).cmdcnt := rfl
@[simp] theorem State.hardwareReset_est : s.hardwareReset.est = (State.resetOf s.build).est := rfl
@[simp] theorem State.hardwareReset_estComputed : s.hardwareReset.estComputed = (State.resetOf s.build).estComputed := rfl
@[simp] theorem State.hardwareReset_bankValid : s.hardwareReset.bankValid = (State.resetOf s.build).bankValid := rfl
@[simp] theorem State.hardwareReset_faulted : s.hardwareReset.faulted = (State.resetOf s.build).faulted := rfl
@[simp] theorem State.hardwareReset_faultSticky : s.hardwareReset.faultSticky = (State.resetOf s.build).faultSticky := rfl
@[simp] theorem State.hardwareReset_estValid : s.hardwareReset.estValid = (State.resetOf s.build).estValid := rfl
@[simp] theorem State.hardwareReset_initChoiceValid : s.hardwareReset.initChoiceValid = (State.resetOf s.build).initChoiceValid := rfl
@[simp] theorem State.hardwareReset_bin : s.hardwareReset.bin = s.bin := rfl
@[simp] theorem State.hardwareReset_completions : s.hardwareReset.completions = s.completions := rfl

/-! ### `State.resetOf`, the fields statements name -/

@[simp] theorem State.resetOf_build (b : Build) : (State.resetOf b).build = b := rfl
@[simp] theorem State.resetOf_pending (b : Build) : (State.resetOf b).pending = [] := rfl
@[simp] theorem State.resetOf_ctx (b : Build) : (State.resetOf b).ctx = List.replicate b.numCtx Ctx.atReset := rfl
@[simp] theorem State.resetOf_coef (b : Build) : (State.resetOf b).coef = [] := rfl
@[simp] theorem State.resetOf_bankValid (b : Build) : (State.resetOf b).bankValid = false := rfl
@[simp] theorem State.resetOf_estValid (b : Build) : (State.resetOf b).estValid = false := rfl
@[simp] theorem State.resetOf_estComputed (b : Build) : (State.resetOf b).estComputed = false := rfl
@[simp] theorem State.resetOf_initChoiceValid (b : Build) : (State.resetOf b).initChoiceValid = false := rfl
@[simp] theorem State.resetOf_bin (b : Build) : (State.resetOf b).bin = [] := rfl
@[simp] theorem State.resetOf_completions (b : Build) : (State.resetOf b).completions = [] := rfl
@[simp] theorem State.resetOf_cmdcnt (b : Build) : (State.resetOf b).cmdcnt = 0 := rfl
@[simp] theorem State.resetOf_faulted (b : Build) : (State.resetOf b).faulted = decide (b.maxNumCtx < b.numCtx) := rfl
@[simp] theorem State.resetOf_faultSticky (b : Build) : (State.resetOf b).faultSticky = decide (b.maxNumCtx < b.numCtx) := rfl
@[simp] theorem State.resetOf_fault (b : Build) : (State.resetOf b).fault = if b.maxNumCtx < b.numCtx then ⟨.capacity, 0⟩ else ⟨.none, 0⟩ := rfl

end Sys2Proof.Machine
end

