-- ==== Sys2Proof/Laws/Command.lean ====
section
/-! SUPPORT. Every command in one form: `exec i` is the frame `command` around the effect of `i`, and what `command` can
do is said once. Proofs about a command cite these and unfold its effect only. -/

namespace Sys2Proof.Machine

open Sys2Proof

/-- The effect of a command, without the frame. -/
def effectOf : Instr → State → Except Cause State
  | .resetEntropy st qp useRec => effectResetEntropy st qp useRec
  | .determineInitIndex st qp => effectDetermineInitIndex st qp
  | .updateContextTables st qp useRec fin => effectUpdateContextTables st qp useRec fin
  | .endSegment => effectEndSegment
  | .setConfig sbhEn ampEn lmEn dis qpBd maxTb => effectSetConfig sbhEn ampEn lmEn dis qpBd maxTb
  | .store slot => effectStore slot
  | .load slot => effectLoad slot
  | .loadPartial slot group => effectLoadPartial slot group
  | .snapWrite slot idx ps mps => effectSnapWrite slot idx ps mps
  | .splitFlag v atMax avL avA dL dA dC => effectSplitFlag v atMax avL avA dL dA dC
  | .skipFlag v avL skL avA skA => effectSkipFlag v avL skL avA skA
  | .mergeFlag v => effectMergeFlag v
  | .mergeIdx idx nc => effectMergeIdx idx nc
  | .partSize part intra atMin log2Cb ampOk => effectPartSize part intra atMin log2Cb ampOk
  | .predMode v => effectPredMode v
  | .intraDirLuma mode c0 c1 c2 => effectIntraDirLuma mode c0 c1 c2
  | .intraDirChroma code => effectIntraDirChroma code
  | .interDir dir ctd small => effectInterDir dir ctd small
  | .refIdx ri nr => effectRefIdx ri nr
  | .mvd mvx mvy => effectMvd mvx mvy
  | .deltaQp dqp => effectDeltaQp dqp
  | .qtCbf v pl ci => effectQtCbf v pl ci
  | .qtRootCbf v => effectQtRootCbf v
  | .transSubdiv v ci => effectTransSubdiv v ci
  | .termBin v => effectTermBin v
  | .alfFlag v => effectAlfFlag v
  | .alfUvlc val => effectAlfUvlc val
  | .alfSvlc val => effectAlfSvlc val
  | .saoFlag v => effectSaoFlag v
  | .saoUvlc val => effectSaoUvlc val
  | .saoSvlc val => effectSaoSvlc val
  | .coefWrite idx val => effectCoefWrite idx val
  | .codeCoeff l2 pl scan ll => effectCodeCoeff l2 pl scan ll
  | .estRates l2 pl => effectEstRates l2 pl

theorem exec_eq_command (i : Instr) (s : State) : exec i s = command (opcodeOf i) (effectOf i) s := by
  cases i <;> rfl

/-- The bins of a command that codes bins; no bins for the others. -/
def binsOf : Instr → State → Except Cause (List Bin)
  | .splitFlag v atMax avL avA dL dA dC, _ => binsSplitFlag v atMax avL avA dL dA dC
  | .skipFlag v avL skL avA skA, _ => .ok (binsSkipFlag v avL skL avA skA)
  | .mergeFlag v, _ => .ok [rb .mergeFlag 0 v]
  | .mergeIdx idx nc, _ => binsMergeIdx idx nc
  | .partSize part intra atMin log2Cb ampOk, s => binsPartSize s.config part intra atMin log2Cb ampOk
  | .predMode v, _ => .ok [rb .predMode 0 v]
  | .intraDirLuma mode c0 c1 c2, _ => binsIntraDirLuma mode c0 c1 c2
  | .intraDirChroma code, s => binsIntraDirChroma s.config code
  | .interDir dir ctd small, _ => binsInterDir dir ctd small
  | .refIdx ri nr, _ => binsRefIdx ri nr
  | .mvd mvx mvy, _ => .ok (binsMvd mvx mvy)
  | .deltaQp dqp, s => .ok (binsDeltaQp s.config dqp)
  | .qtCbf v pl ci, _ => binsQtCbf v pl ci
  | .qtRootCbf v, _ => .ok [rb .qtRootCbf 0 v]
  | .transSubdiv v ci, _ => binsTransSubdiv v ci
  | .termBin v, _ => .ok [.trm v]
  | .alfFlag v, _ => .ok [rb .alfFlag 0 v]
  | .alfUvlc val, _ => .ok (binsUvlc .alfUvlc val)
  | .alfSvlc val, _ => binsSvlc .alfSvlc val
  | .saoFlag v, _ => .ok [rb .saoFlag 0 v]
  | .saoUvlc val, _ => .ok (binsUvlc .saoUvlc val)
  | .saoSvlc val, _ => binsSvlc .saoSvlc val
  | .codeCoeff l2 pl scan ll, s =>
    unlessFault (badGeometry s.config l2 pl scan) .badGeometry (s.block l2 pl scan ll).bins
  | .resetEntropy _ _ _, _ | .determineInitIndex _ _, _ | .updateContextTables _ _ _ _, _ | .endSegment, _ => .ok []
  | .setConfig _ _ _ _ _ _, _ | .store _, _ | .load _, _ | .loadPartial _ _, _ | .snapWrite _ _ _ _, _ => .ok []
  | .coefWrite _ _, _ | .estRates _ _, _ => .ok []

theorem effectOf_of_codesBins {i : Instr} (h : i.codesBins = true) : effectOf i = coding (binsOf i) := by
  cases i <;> first | rfl | simp [Instr.codesBins] at h

/-! ### `unlessFault`, `needBank`, `coding` -/

@[simp] theorem unlessFault_true {α : Type} (c : Cause) (r : Except Cause α) : unlessFault true c r = .error c := rfl

@[simp] theorem unlessFault_false {α : Type} (c : Cause) (r : Except Cause α) : unlessFault false c r = r := rfl

theorem unlessFault_ok {α : Type} {bad : Bool} {c : Cause} {r : Except Cause α} {x : α} :
    unlessFault bad c r = .ok x ↔ bad = false ∧ r = .ok x := by
  cases bad <;> simp

theorem unlessFault_error {α : Type} {bad : Bool} {c d : Cause} {r : Except Cause α} :
    unlessFault bad c r = .error d ↔ bad = true ∧ d = c ∨ bad = false ∧ r = .error d := by
  cases bad
  · simp
  · simpa using eq_comm

theorem needBank_of_valid {effect : State → Except Cause State} {s : State} (h : s.bankValid = true) :
    needBank effect s = effect s := by simp [needBank, h]

theorem needBank_of_invalid {effect : State → Except Cause State} {s : State} (h : s.bankValid = false) :
    needBank effect s = .error .notInitialised := by simp [needBank, h]

theorem needBank_ok {effect : State → Except Cause State} {s t : State} :
    needBank effect s = .ok t ↔ s.bankValid = true ∧ effect s = .ok t := by
  cases h : s.bankValid <;> simp [needBank, h]

theorem needBank_error {effect : State → Except Cause State} {s : State} {c : Cause} :
    needBank effect s = .error c ↔
      s.bankValid = false ∧ c = .notInitialised ∨ s.bankValid = true ∧ effect s = .error c := by
  cases h : s.bankValid
  · simpa [needBank, h] using eq_comm
  · simp [needBank, h]

/-- What a command that codes bins commits. -/
theorem coding_ok {bins : State → Except Cause (List Bin)} {s t : State} :
    coding bins s = .ok t ↔ s.bankValid = true ∧ ∃ bs, bins s = .ok bs ∧ t = s.code bs := by
  simp only [coding, needBank_ok]
  cases h : bins s
  · simp
  · simpa using fun _ => eq_comm

theorem coding_error {bins : State → Except Cause (List Bin)} {s : State} {c : Cause} :
    coding bins s = .error c ↔
      s.bankValid = false ∧ c = .notInitialised ∨ s.bankValid = true ∧ bins s = .error c := by
  simp only [coding, needBank_error]
  cases h : bins s <;> simp

/-! ### `command` -/

theorem rejects_iff {s : State} {op : Nat} :
    s.rejects op = true ↔ s.fault.cause = .capacity ∨ s.faulted = true ∧ op ≠ 1 := by
  simp [State.rejects]

/-- A block that is not faulted and passed its capacity check takes every command. -/
theorem State.takes.not_rejects {s : State} (h : s.takes) (op : Nat) : s.rejects op = false := by
  simp [State.rejects, h.1, h.2]

theorem command_of_rejects {s : State} {op : Nat} {effect : State → Except Cause State} (h : s.rejects op = true) :
    command op effect s = .next s.complete := by simp [command, h]

theorem command_of_ok {s t : State} {op : Nat} {effect : State → Except Cause State} (h : s.rejects op = false)
    (he : effect s = .ok t) : command op effect s = .next t.complete := by simp [command, h, he]

theorem command_of_error {s : State} {op : Nat} {effect : State → Except Cause State} {c : Cause}
    (h : s.rejects op = false) (he : effect s = .error c) :
    command op effect s = .next (s.takeFault op c).complete := by simp [command, h, he]

/-- Everything a command can do: it is rejected, commits whole, or faults (60_exceptions.md R331, R334). -/
theorem command_cases {s t : State} {op : Nat} {effect : State → Except Cause State}
    (h : command op effect s = .next t) :
    s.rejects op = true ∧ t = s.complete ∨
    s.rejects op = false ∧ (∃ u, effect s = .ok u ∧ t = u.complete) ∨
    s.rejects op = false ∧ ∃ c, effect s = .error c ∧ t = (s.takeFault op c).complete := by
  unfold command at h
  split at h
  · rename_i hr
    exact .inl ⟨hr, by simpa [eq_comm] using h⟩
  · rename_i hr
    have hr' : s.rejects op = false := by simpa using hr
    split at h
    · rename_i u hu
      exact .inr (.inl ⟨hr', u, hu, by simpa [eq_comm] using h⟩)
    · rename_i c hc
      exact .inr (.inr ⟨hr', c, hc, by simpa [eq_comm] using h⟩)

/-- A command always answers a next state (70_reset_and_hazards.md R373). -/
theorem command_next (op : Nat) (effect : State → Except Cause State) (s : State) :
    ∃ t, command op effect s = .next t := by
  unfold command
  split
  · exact ⟨_, rfl⟩
  · split <;> exact ⟨_, rfl⟩

theorem exec_next (i : Instr) (s : State) : ∃ t, exec i s = .next t := by
  rw [exec_eq_command]
  exact command_next _ _ _

theorem exec_cases {i : Instr} {s t : State} (h : exec i s = .next t) :
    s.rejects (opcodeOf i) = true ∧ t = s.complete ∨
    s.rejects (opcodeOf i) = false ∧ (∃ u, effectOf i s = .ok u ∧ t = u.complete) ∨
    s.rejects (opcodeOf i) = false ∧ ∃ c, effectOf i s = .error c ∧ t = (s.takeFault (opcodeOf i) c).complete :=
  command_cases (exec_eq_command i s ▸ h)

/-- What a step can do: nothing, a hardware reset, one command, or the fault of a word that is no command. -/
theorem step_cases {s t : State} (h : step s = .next t) :
    s.pending = [] ∧ t = s ∨
    (∃ rest, s.pending = .hardwareReset :: rest ∧ t = { s with pending := rest }.hardwareReset) ∨
    (∃ w rest i, s.pending = .command w :: rest ∧ decode w = .ok i ∧ exec i { s with pending := rest } = .next t) ∨
    (∃ w rest e, s.pending = .command w :: rest ∧ decode w = .error e ∧
      command (opcodeByte w).toNat (fun _ => .error (causeOfDecodeError e)) { s with pending := rest } = .next t) := by
  simp only [step, takeInput] at h
  split at h
  · rename_i hp
    exact .inl ⟨hp, by simpa [eq_comm] using h⟩
  · rename_i rest hp
    exact .inr (.inl ⟨rest, hp, by simpa [eq_comm] using h⟩)
  · rename_i w rest hp
    unfold issue at h
    split at h
    · rename_i i hi
      exact .inr (.inr (.inl ⟨w, rest, i, hp, hi, h⟩))
    · rename_i e he
      exact .inr (.inr (.inr ⟨w, rest, e, hp, he, h⟩))

/-! ### The states statements name -/

theorem State.afterFault_eq (s : State) (op : Nat) (c : Cause) : s.afterFault op c = (s.takeFault op c).complete := rfl

theorem State.afterBins_eq (s : State) (bins : List Bin) : s.afterBins bins = (s.code bins).complete := rfl

theorem State.afterRejection_eq (s : State) : s.afterRejection = s.complete := rfl

/-- A command that codes bins, on a ready block whose checks pass. -/
theorem exec_of_bins {i : Instr} {s : State} {bins : List Bin} (hi : i.codesBins = true) (hs : s.ready)
    (hb : binsOf i s = .ok bins) : exec i s = .next (s.afterBins bins) := by
  rw [exec_eq_command, command_of_ok (hs.1.not_rejects _)
    (by rw [effectOf_of_codesBins hi]; exact coding_ok.2 ⟨hs.2, bins, hb, rfl⟩)]
  rfl

/-- A command that codes bins, on a ready block where a check of its own fails. -/
theorem exec_of_bins_error {i : Instr} {s : State} {c : Cause} (hi : i.codesBins = true) (hs : s.ready)
    (hb : binsOf i s = .error c) : exec i s = .next (s.afterFault (opcodeOf i) c) := by
  rw [exec_eq_command, command_of_error (hs.1.not_rejects _)
    (by rw [effectOf_of_codesBins hi]; exact coding_error.2 (.inr ⟨hs.2, hb⟩))]
  rfl

end Sys2Proof.Machine
end

