-- ==== Sys2Proof/Laws/Decode.lean ====
section
/-! SUPPORT. Small facts of the encoding: masks as bits and as runs of bits, fields and their places, the size of a payload. -/

namespace Sys2Proof

/-! ### Masks -/

theorem nat_eq_zero_iff_testBit (n : Nat) : n = 0 ↔ ∀ b, n.testBit b = false :=
  ⟨fun h b => by simp [h], fun h => Nat.eq_of_testBit_eq fun b => by simp [h b]⟩

theorem testBit_payloadOnes (b : Nat) : (2 ^ 56 - 1 : Nat).testBit b = decide (b < 56) :=
  Nat.testBit_two_pow_sub_one 56 b

/-- No reserved bit is set: bit by bit. -/
theorem reservedBitsOf_eq_zero_iff {mask : Nat} (hm : mask < 2 ^ 56) (n : Nat) :
    reservedBitsOf mask n = 0 ↔ ∀ b < 56, n.testBit b = true → mask.testBit b = true := by
  simp only [reservedBitsOf, nat_eq_zero_iff_testBit, Nat.testBit_and, Nat.testBit_xor, testBit_payloadOnes]
  constructor
  · intro h b hb hn
    have := h b
    simp only [hn, hb, decide_true, Bool.true_and] at this
    revert this
    cases mask.testBit b <;> simp
  · intro h b
    by_cases hb : b < 56
    · cases hn : n.testBit b
      · simp
      · simp [h b hb hn, hb]
    · have : mask.testBit b = false :=
        Nat.testBit_lt_two_pow (Nat.lt_of_lt_of_le hm (Nat.pow_le_pow_right (by omega) (by omega)))
      simp [hb, this]

/-- The bits of a run of `width` bits from `lo` on. -/
def runMask (lo width : Nat) : Nat := (2 ^ width - 1) * 2 ^ lo

theorem and_runMask_eq_zero_iff (n lo width : Nat) : n &&& runMask lo width = 0 ↔ bitsAt n lo width = 0 := by
  have h : n &&& runMask lo width = bitsAt n lo width * 2 ^ lo := by
    apply Nat.eq_of_testBit_eq
    intro b
    simp only [runMask, bitsAt, Nat.testBit_and, Nat.testBit_mul_two_pow, Nat.testBit_two_pow_sub_one,
      Nat.testBit_mod_two_pow, Nat.testBit_div_two_pow]
    by_cases hb : lo ≤ b
    · simp [hb, Bool.and_comm]
    · simp [hb]
  rw [h, Nat.mul_eq_zero]
  simp

theorem and_or_eq_zero_iff (n a b : Nat) : n &&& (a ||| b) = 0 ↔ n &&& a = 0 ∧ n &&& b = 0 := by
  rw [Nat.and_or_distrib_left]
  exact Nat.or_eq_zero_iff

/-- The union of runs of bits. -/
def runsMask : List (Nat × Nat) → Nat
  | [] => 0
  | r :: rs => runMask r.1 r.2 ||| runsMask rs

/-- No reserved bit is set: run by run, for the runs of bits that make up the reserved bits. -/
theorem reservedBitsOf_runs {mask : Nat} (runs : List (Nat × Nat)) (h : mask ^^^ (2 ^ 56 - 1) = runsMask runs) (n : Nat) :
    reservedBitsOf mask n = 0 ↔ ∀ r ∈ runs, bitsAt n r.1 r.2 = 0 := by
  unfold reservedBitsOf
  rw [h]
  clear h
  induction runs with
  | nil => simp [runsMask]
  | cons r rs ih => rw [runsMask, and_or_eq_zero_iff, and_runMask_eq_zero_iff, ih]; simp

theorem row_ok {mask n : Nat} {i j : Instr} : row mask n i = .ok j ↔ reservedBitsOf mask n = 0 ∧ i = j := by
  unfold row
  split <;> simp_all

theorem row_error {mask n : Nat} {i : Instr} {e : DecodeError} :
    row mask n i = .error e ↔ reservedBitsOf mask n ≠ 0 ∧ e = .reservedBits := by
  unfold row
  split <;> simp_all [eq_comm]

/-! ### Fields -/

theorem flagAt_of_bitsAt {n lo : Nat} {v : Bool} (h : bitsAt n lo 1 = v.toNat) : flagAt n lo = v := by
  cases v <;> simp [flagAt, h]

theorem toNat_flagAt (n lo : Nat) : (flagAt n lo).toNat = bitsAt n lo 1 := by
  have h : bitsAt n lo 1 < 2 := Nat.mod_lt _ (by omega)
  unfold flagAt
  rcases (by omega : bitsAt n lo 1 = 0 ∨ bitsAt n lo 1 = 1) with h0 | h1
  · simp [h0]
  · simp [h1]

theorem bitsAt_lt (n lo width : Nat) : bitsAt n lo width < 2 ^ width := Nat.mod_lt _ (Nat.two_pow_pos _)

/-- A signed value and its two's-complement field. -/
theorem signExtend_toNat_emod {width : Nat} (hw : 0 < width) {v : Int} (hlo : -(2 ^ (width - 1)) ≤ v)
    (hhi : v < 2 ^ (width - 1)) : signExtend width (v % 2 ^ width).toNat = v := by
  obtain ⟨k, rfl⟩ : ∃ k, width = k + 1 := ⟨width - 1, by omega⟩
  have hp : (2 : Int) ^ (k + 1) = 2 * 2 ^ k := by ring
  have hpos : (0 : Int) < 2 ^ k := by positivity
  have hc : ((2 ^ k : Nat) : Int) = (2 : Int) ^ k := by push_cast; ring
  simp only [Nat.add_sub_cancel] at hlo hhi ⊢
  unfold signExtend
  simp only [Nat.add_sub_cancel]
  rcases Int.lt_or_le v 0 with hv | hv
  · have he : v % 2 ^ (k + 1) = v + 2 ^ (k + 1) := by
      rw [← Int.add_emod_right, Int.emod_eq_of_lt] <;> omega
    rw [he, if_neg (by omega)]
    omega
  · have he : v % 2 ^ (k + 1) = v := Int.emod_eq_of_lt hv (by omega)
    rw [he, if_pos (by omega)]
    omega

/-- A field read as signed, put back: the bits of the field. -/
theorem toNat_signExtend_emod {width v : Nat} (h : v < 2 ^ width) :
    (signExtend width v % 2 ^ width).toNat = v := by
  have hc : ((2 ^ width : Nat) : Int) = (2 : Int) ^ width := by push_cast; ring
  have hv : ((v : Int) % 2 ^ width) = v := Int.emod_eq_of_lt (by omega) (by omega)
  unfold signExtend
  split
  · rw [hv]
    omega
  · rw [Int.sub_emod_right, hv]
    omega

theorem signExtend_fits {width v : Nat} (hw : 0 < width) (h : v < 2 ^ width) : fitsS width (signExtend width v) = true := by
  obtain ⟨k, rfl⟩ : ∃ k, width = k + 1 := ⟨width - 1, by omega⟩
  have hp : (2 : Nat) ^ (k + 1) = 2 * 2 ^ k := by ring
  have hpi : (2 : Int) ^ (k + 1) = 2 * 2 ^ k := by ring
  have hc : ((2 ^ k : Nat) : Int) = (2 : Int) ^ k := by push_cast; ring
  unfold fitsS signExtend
  simp only [Nat.add_sub_cancel, decide_eq_true_eq]
  split <;> omega

/-! ### The word of a command -/

theorem placeU_le (v lo width : Nat) : placeU v lo width ≤ (2 ^ width - 1) * 2 ^ lo :=
  Nat.mul_le_mul_right _ (Nat.le_sub_one_of_lt (Nat.mod_lt _ (Nat.two_pow_pos _)))

theorem placeS_le (v : Int) (lo width : Nat) : placeS v lo width ≤ (2 ^ width - 1) * 2 ^ lo := by
  refine Nat.mul_le_mul_right _ ?_
  have hpos : (0 : Int) < 2 ^ width := by positivity
  have h1 := Int.emod_lt_of_pos v hpos
  have h0 := Int.emod_nonneg v (ne_of_gt hpos)
  have hc : ((2 ^ width : Nat) : Int) = (2 : Int) ^ width := by push_cast; ring
  omega

theorem placeB_le (v : Bool) (lo : Nat) : placeB v lo ≤ 2 ^ lo := by
  cases v <;> simp [placeB]

theorem payloadOf_lt (i : Instr) : payloadOf i < 2 ^ 41 := by
  cases i <;> grind [payloadOf, placeU_le, placeS_le, placeB_le]

theorem opcodeOf_lt (i : Instr) : opcodeOf i < 2 ^ 8 := by cases i <;> simp [opcodeOf]

theorem encode_toNat (i : Instr) : (encode i).toNat = opcodeOf i * 2 ^ 56 + payloadOf i := by
  have h1 := payloadOf_lt i
  have h2 := opcodeOf_lt i
  simp only [encode, BitVec.toNat_ofNat]
  omega

theorem encode_opcode (i : Instr) : (encode i).toNat / 2 ^ 56 = opcodeOf i := by
  have h1 := payloadOf_lt i
  rw [encode_toNat]
  omega

end Sys2Proof
end

