-- ==== Sys2Proof/Laws/Effects.lean ====
section
/-! SUPPORT. What a command commits, one case a command (all commands that code bins are one case): the inversion lemma
invariants and frames are derived from. -/

namespace Sys2Proof.Machine

open Sys2Proof

/-! ### Snapshot slots -/

theorem State.validSlot_eq_some {s : State} {k : Nat} {bank : List Ctx} :
    s.validSlot k = some bank ↔ k < s.build.numSnapshots ∧ s.snap[k]? = some ⟨true, bank⟩ := by
  unfold State.validSlot
  by_cases hk : s.build.numSnapshots ≤ k
  · simp [hk, Nat.not_lt.2 hk]
  · rw [if_neg hk]
    cases h : s.snap[k]? with
    | none => simp
    | some sl =>
      obtain ⟨v, c⟩ := sl
      cases v <;> simp [Nat.not_le.1 hk]

theorem State.validSlot_eq_none {s : State} {k : Nat} :
    s.validSlot k = none ↔ s.build.numSnapshots ≤ k ∨ ∀ sl, s.snap[k]? = some sl → sl.valid = false := by
  unfold State.validSlot
  by_cases hk : s.build.numSnapshots ≤ k
  · simp [hk]
  · rw [if_neg hk]
    cases h : s.snap[k]? with
    | none => simp
    | some sl =>
      obtain ⟨v, c⟩ := sl
      cases v <;> simp [hk]

/-- What LOAD_PARTIAL leaves at each index (40_context_bank.md R145). -/
theorem copyGroup_getElem? {g : Group} {live bank : List Ctx} (hl : live.length = bank.length)
    (hg : g.base + g.size ≤ live.length) (i : Nat) :
    (copyGroup g live bank)[i]? = if g.base ≤ i ∧ i < g.base + g.size then bank[i]? else live[i]? := by
  unfold copyGroup
  have h1 : (live.take g.base).length = g.base := by simp; omega
  have h2 : ((bank.drop g.base).take g.size).length = g.size := by simp; omega
  by_cases ha : i < g.base
  · rw [List.getElem?_append_left (by omega), List.getElem?_take_of_lt ha, if_neg (by omega)]
  · rw [List.getElem?_append_right (by omega), h1]
    by_cases hb : i < g.base + g.size
    · rw [List.getElem?_append_left (by omega), if_pos (by omega), List.getElem?_take_of_lt (by omega), List.getElem?_drop]
      congr 1
      omega
    · rw [List.getElem?_append_right (by omega), h2, if_neg (by omega), List.getElem?_drop]
      congr 1
      omega

theorem copyGroup_length {g : Group} {live bank : List Ctx} (hl : live.length = bank.length)
    (hg : g.base + g.size ≤ live.length) : (copyGroup g live bank).length = live.length := by
  simp [copyGroup]
  omega

theorem mem_copyGroup {g : Group} {live bank : List Ctx} {x : Ctx} (h : x ∈ copyGroup g live bank) : x ∈ live ∨ x ∈ bank := by
  simp only [copyGroup, List.mem_append] at h
  rcases h with h | h | h
  · exact .inl (List.mem_of_mem_take h)
  · exact .inr (List.mem_of_mem_drop (List.mem_of_mem_take h))
  · exact .inl (List.mem_of_mem_drop h)

/-- The groups lie in every bank of at least `numGroupCtx` contexts. -/
theorem group_in_bank (g : Group) : g.base + g.size ≤ numGroupCtx := by cases g <;> decide

/-! ### Initialisation -/

theorem initPre_bounds (iv : BitVec 8) (qp : Int) : 1 ≤ initPre iv qp ∧ initPre iv qp ≤ 126 := by
  simp only [initPre, clip3]
  omega

theorem initState_inRange (iv : BitVec 8) (qp : Int) : (initState iv qp).inRange := by
  have := initPre_bounds iv qp
  unfold initState Ctx.inRange
  split <;> simp only [BitVec.toNat_ofNat] <;> omega

theorem initBank_bankOk (b : Build) (t : Nat) (qp : Int) : bankOk b.numCtx (initBank b t qp) := by
  refine ⟨by simp [initBank], ?_⟩
  intro x hx
  simp only [initBank, List.mem_map] at hx
  obtain ⟨i, -, rfl⟩ := hx
  exact initState_inRange _ _

/-! ### What each command commits -/

/-- `Commits i s u`: command `i`, taken in state `s` with its checks passed, leaves `u` (before it is counted). -/
inductive Commits : Instr → State → State → Prop
  | bins {i : Instr} {s : State} {bs : List Bin} (hi : i.codesBins = true) (hv : s.bankValid = true)
      (hb : binsOf i s = .ok bs) : Commits i s (s.code bs)
  | resetEntropy {st : Nat} {qp : Int} {useRec : Bool} {s : State} (hst : st ≤ 2) :
      Commits (.resetEntropy st qp useRec) s (((s.reinit st qp useRec).leaveFaulted).emit [.start])
  | determineI {qp : Int} {s : State} (hv : s.bankValid = true) :
      Commits (.determineInitIndex 0 qp) s { s with initTable := 0, initChoiceValid := true }
  | determine {st : Nat} {qp : Int} {s : State} (hst : st = 1 ∨ st = 2) (hv : s.bankValid = true) :
      Commits (.determineInitIndex st qp) s { s with
        initCostP := BitVec.ofNat 32 (tableCost s 1 qp)
        initCostB := BitVec.ofNat 32 (tableCost s 2 qp)
        initTable := BitVec.ofNat 2 (chooseTable s st qp)
        initChoiceValid := true }
  | update {st : Nat} {qp : Int} {useRec fin : Bool} {s : State} (hst : st ≤ 2) (hv : s.bankValid = true) :
      Commits (.updateContextTables st qp useRec fin) s
        ((((s.code [.trm true]).emit (if fin then [.finish] else [])).reinit st qp useRec).emit [.start])
  | endSegment {s : State} (hv : s.bankValid = true) :
      Commits .endSegment s ((s.code [.trm true]).emit [.finish])
  | setConfig {a b c d : Bool} {q m : Nat} {s : State} (hq : q ≤ 48) (hm : 2 ≤ m ∧ m ≤ 5) :
      Commits (.setConfig a b c d q m) s { s with config := ⟨a, b, c, d, BitVec.ofNat 6 q, BitVec.ofNat 3 m⟩ }
  | store {k : Nat} {s : State} (hv : s.bankValid = true) (hk : k < s.build.numSnapshots) :
      Commits (.store k) s ((s.setSlot k s.ctx).emit [.copyTo (BitVec.ofNat 8 k)])
  | load {k : Nat} {bank : List Ctx} {s : State} (hs : s.validSlot k = some bank) :
      Commits (.load k) s ((s.setBank bank).emit [.copyFrom (BitVec.ofNat 8 k)])
  | loadPartial {k n : Nat} {g : Group} {bank : List Ctx} {s : State} (hv : s.bankValid = true)
      (hs : s.validSlot k = some bank) (hg : groupOrder[n]? = some g) :
      Commits (.loadPartial k n) s
        ({ s with ctx := copyGroup g s.ctx bank, estValid := false }.emit [.copyFrom (BitVec.ofNat 8 k)])
  | snapWrite {k idx ps : Nat} {mps : Bool} {bank : List Ctx} {s : State} (hs : s.validSlot k = some bank)
      (hi : idx < s.build.numCtx) (hp : ps ≤ 62) :
      Commits (.snapWrite k idx ps mps) s (s.setSlot k (bank.set idx ⟨BitVec.ofNat 6 ps, mps⟩))
  | coefWrite {idx : Nat} {val : Int} {s : State} :
      Commits (.coefWrite idx val) s { s with coef := s.coef.write (idx % 1024) (BitVec.ofInt 16 val) }
  | estRates {l2 : Nat} {pl : Bool} {s : State} (hv : s.bankValid = true) (hb : badBlockSize l2 pl = false) :
      Commits (.estRates l2 pl) s { s with est := estimate s.build s.ctx l2 pl, estComputed := true, estValid := true }

/-- An effect that answers a state answers one of these. -/
theorem commits_of_effectOf {i : Instr} {s u : State} (h : effectOf i s = .ok u) : Commits i s u := by
  by_cases hb : i.codesBins = true
  · rw [effectOf_of_codesBins hb] at h
    obtain ⟨hv, bs, hbs, rfl⟩ := coding_ok.1 h
    exact .bins hb hv hbs
  · cases i with
    | resetEntropy st qp useRec =>
      obtain ⟨h1, h2⟩ := unlessFault_ok.1 h
      cases h2
      exact .resetEntropy (Nat.le_of_lt_succ (by simpa [badSliceType] using h1))
    | determineInitIndex st qp =>
      obtain ⟨h1, h2⟩ := unlessFault_ok.1 h
      obtain ⟨hv, h2⟩ := needBank_ok.1 h2
      have hst : st < 3 := by simpa [badSliceType] using h1
      by_cases h0 : st = 0
      · rw [if_pos h0] at h2
        cases h2
        subst h0
        exact .determineI hv
      · rw [if_neg h0] at h2
        cases h2
        exact .determine (by omega) hv
    | updateContextTables st qp useRec fin =>
      obtain ⟨h1, h2⟩ := unlessFault_ok.1 h
      obtain ⟨hv, h2⟩ := needBank_ok.1 h2
      cases h2
      exact .update (Nat.le_of_lt_succ (by simpa [badSliceType] using h1)) hv
    | endSegment =>
      simp only [effectOf, effectEndSegment] at h
      obtain ⟨hv, h2⟩ := needBank_ok.1 h
      cases h2
      exact .endSegment hv
    | setConfig a b c d q m =>
      obtain ⟨h1, h2⟩ := unlessFault_ok.1 h
      cases h2
      simp only [Bool.or_eq_false_iff, decide_eq_false_iff_not] at h1
      exact .setConfig (by omega) (by omega)
    | store k =>
      simp only [effectOf, effectStore] at h
      obtain ⟨hv, h2⟩ := needBank_ok.1 h
      obtain ⟨h1, h2⟩ := unlessFault_ok.1 h2
      cases h2
      exact .store hv (by simpa using h1)
    | load k =>
      simp only [effectOf, effectLoad] at h
      split at h
      · rename_i bank hs
        cases h
        exact .load hs
      · cases h
    | loadPartial k n =>
      simp only [effectOf, effectLoadPartial] at h
      obtain ⟨hv, h2⟩ := needBank_ok.1 h
      split at h2
      · rename_i bank g hs hg
        cases h2
        exact .loadPartial hv hs hg
      · cases h2
    | snapWrite k idx ps mps =>
      simp only [effectOf, effectSnapWrite] at h
      split at h
      · rename_i bank hs
        obtain ⟨h1, h2⟩ := unlessFault_ok.1 h
        cases h2
        simp only [Bool.or_eq_false_iff, decide_eq_false_iff_not] at h1
        exact .snapWrite hs (by omega) (by omega)
      · cases h
    | coefWrite idx val =>
      cases h
      exact .coefWrite
    | estRates l2 pl =>
      simp only [effectOf, effectEstRates] at h
      obtain ⟨hv, h2⟩ := needBank_ok.1 h
      obtain ⟨h1, h2⟩ := unlessFault_ok.1 h2
      cases h2
      exact .estRates hv h1
    | _ => simp [Instr.codesBins] at hb

/-- What a commit never writes. -/
theorem Commits.keeps {i : Instr} {s u : State} (h : Commits i s u) :
    u.build = s.build ∧ u.pending = s.pending ∧ u.fault = s.fault ∧ u.faultSticky = s.faultSticky ∧
      u.cmdcnt = s.cmdcnt ∧ u.completions = s.completions := by
  cases h <;> simp

/-- Only a RESET_ENTROPY that commits leaves the faulted state (60_exceptions.md R335). -/
theorem Commits.faulted {i : Instr} {s u : State} (h : Commits i s u) :
    u.faulted = s.faulted ∨ u.faulted = false ∧ ∃ st qp useRec, i = .resetEntropy st qp useRec := by
  cases h <;> simp

/-- A commit only appends to the BIN stream. -/
theorem Commits.bin {i : Instr} {s u : State} (h : Commits i s u) : ∃ es, u.bin = s.bin ++ es := by
  cases h with
  | determineI | determine | setConfig | snapWrite | coefWrite | estRates => exact ⟨[], (List.append_nil _).symm⟩
  | bins | resetEntropy | store | load | loadPartial => exact ⟨_, rfl⟩
  | endSegment => exact ⟨_, List.append_assoc _ _ _⟩
  | @update _ _ _ fin =>
    exact ⟨(codeBins [.trm true] s.ctx).2 ++ ((if fin then [.finish] else []) ++ [.start]), by simp⟩

end Sys2Proof.Machine
end

