-- ==== Sys2Proof/Laws/Memory.lean ====
section
/-! SUPPORT. The coefficient buffer: read after write, and the canonical form that every operation keeps. -/

namespace Sys2Proof.Machine

open Sys2Proof

/-- Every index of the list lies above `a`. -/
def Memory.above (a : Nat) (m : Memory) : Prop := ∀ e ∈ m, a < e.1

@[simp] theorem Memory.read_nil (a : Nat) : Memory.read [] a = 0 := rfl

theorem Memory.read_cons (b : Nat) (w : Coef) (m : Memory) (a : Nat) :
    Memory.read ((b, w) :: m) a = if a = b then w else Memory.read m a := rfl

/-- An index below every listed one reads as the reset content. -/
theorem Memory.read_of_above {m : Memory} {a b : Nat} (h : m.above b) (hab : a ≤ b) : m.read a = 0 := by
  induction m with
  | nil => rfl
  | cons e m ih =>
    obtain ⟨c, w⟩ := e
    have hc : b < c := h (c, w) (by simp)
    rw [Memory.read_cons, if_neg (by omega)]
    exact ih fun e he => h e (by simp [he])

theorem Memory.wf_nil : Memory.wf [] := ⟨List.Pairwise.nil, by simp⟩

theorem Memory.wf_cons {b : Nat} {w : Coef} {m : Memory} :
    Memory.wf ((b, w) :: m) ↔ m.above b ∧ b < 1024 ∧ w ≠ 0 ∧ m.wf := by
  simp [Memory.wf, Memory.above, and_assoc]
  tauto

/-- A write leaves every other entry alone. -/
theorem Memory.read_write_other (m : Memory) {a a' : Nat} (v : Coef) (h : a' ≠ a) : (m.write a v).read a' = m.read a' := by
  induction m with
  | nil => simp only [Memory.write]; split <;> simp [Memory.read_cons, h]
  | cons e m ih =>
    obtain ⟨b, w⟩ := e
    simp only [Memory.write]
    split
    · split <;> simp [Memory.read_cons, h]
    · split
      · rename_i hab
        subst hab
        split <;> simp [Memory.read_cons, h]
      · simp [Memory.read_cons, ih]

/-- A write is read back. -/
theorem Memory.read_write_same {m : Memory} (a : Nat) (v : Coef) (h : m.wf) : (m.write a v).read a = v := by
  induction m with
  | nil => simp only [Memory.write]; split <;> simp_all [Memory.read_cons]
  | cons e m ih =>
    obtain ⟨b, w⟩ := e
    obtain ⟨hab, -, -, hm⟩ := Memory.wf_cons.1 h
    simp only [Memory.write]
    split
    · split
      · rename_i hlt hv
        rw [Memory.read_cons, if_neg (by omega), Memory.read_of_above hab (by omega), hv]
      · simp [Memory.read_cons]
    · split
      · rename_i heq
        subst heq
        split
        · rename_i hv
          rw [Memory.read_of_above hab (by omega), hv]
        · simp [Memory.read_cons]
      · rename_i hne
        rw [Memory.read_cons, if_neg hne, ih hm]

theorem Memory.above_write {m : Memory} {a b : Nat} (v : Coef) (h : m.above b) (hab : b < a) : (m.write a v).above b := by
  induction m with
  | nil => simp only [Memory.write]; split <;> simp [Memory.above, hab]
  | cons e m ih =>
    obtain ⟨c, w⟩ := e
    have hc : b < c := h (c, w) (by simp)
    have hm : Memory.above b m := fun e he => h e (by simp [he])
    simp only [Memory.write]
    split
    · split
      · exact h
      · intro e he
        rcases List.mem_cons.1 he with rfl | he
        · exact hab
        · exact h e he
    · split
      · split
        · exact hm
        · intro e he
          rcases List.mem_cons.1 he with rfl | he
          · exact hab
          · exact hm e he
      · intro e he
        rcases List.mem_cons.1 he with rfl | he
        · exact hc
        · exact ih hm e he

/-- A write keeps the canonical form. -/
theorem Memory.wf_write {m : Memory} {a : Nat} (v : Coef) (h : m.wf) (ha : a < 1024) : (m.write a v).wf := by
  induction m with
  | nil =>
    simp only [Memory.write]
    split
    · exact Memory.wf_nil
    · rename_i hv
      exact Memory.wf_cons.2 ⟨by simp [Memory.above], ha, hv, Memory.wf_nil⟩
  | cons e m ih =>
    obtain ⟨b, w⟩ := e
    obtain ⟨hab, hb, hw, hm⟩ := Memory.wf_cons.1 h
    simp only [Memory.write]
    split
    · split
      · exact h
      · rename_i hlt hv
        refine Memory.wf_cons.2 ⟨?_, ha, hv, h⟩
        intro e he
        rcases List.mem_cons.1 he with rfl | he
        · exact hlt
        · exact Nat.lt_trans hlt (hab e he)
    · split
      · rename_i heq
        subst heq
        split
        · exact hm
        · rename_i hv
          exact Memory.wf_cons.2 ⟨hab, ha, hv, hm⟩
      · exact Memory.wf_cons.2 ⟨Memory.above_write v hab (by omega), hb, hw, ih hm⟩

theorem State.reset_coef_wf : State.reset.coef.wf := Memory.wf_nil

end Sys2Proof.Machine
end

