-- ==== Sys2Proof/Laws/PerInstr.lean ====
section
/-! SUPPORT. The family OpcodeByte, one lemma a constructor: the encoded word of a command has its opcode, one of
30_encoding.md R93, in bits 63:56, and none of its other bits lies outside the mask of R95. -/

namespace Sys2Proof.Laws.OpcodeByte

open Sys2Proof Sys2Proof.Machine

/-- The word of `i` has the opcode of `i` on top and only defined bits below it (30_encoding.md R90, R93, R95). -/
def Statement (i : Instr) : Prop :=
  (encode i).toNat / 2 ^ 56 = opcodeOf i ∧ opcodeOf i ∈ r93Opcodes ∧
    ∀ b < 56, (encode i).toNat.testBit b = true → definedBit (opcodeOf i) b = true

/-- The statement from the mask of the command and the runs of its reserved bits. -/
theorem statement_of_runs {i : Instr} {mask : Nat} (runs : List (Nat × Nat)) (hop : opcodeOf i ∈ r93Opcodes)
    (hmask : r95Masks.getD (r93Opcodes.idxOf (opcodeOf i)) 0 = mask) (hm : mask < 2 ^ 56)
    (hruns : mask ^^^ (2 ^ 56 - 1) = runsMask runs) (h : ∀ r ∈ runs, bitsAt (encode i).toNat r.1 r.2 = 0) :
    Statement i := by
  refine ⟨encode_opcode i, hop, fun b hb hn => ?_⟩
  unfold definedBit
  rw [hmask]
  exact (reservedBitsOf_eq_zero_iff hm _).1 ((reservedBitsOf_runs runs hruns _).2 h) b hb hn

/-- The payload of a command under its opcode. -/
theorem bitsAt_encode {i : Instr} {lo width : Nat} (h : payloadOf i / 2 ^ lo % 2 ^ width = 0) (hw : lo + width ≤ 56) :
    bitsAt (encode i).toNat lo width = 0 := by
  have e : (2 : Nat) ^ 56 = 2 ^ lo * (2 ^ width * 2 ^ (56 - lo - width)) := by
    rw [← Nat.pow_add, ← Nat.pow_add]
    congr 1
    omega
  unfold bitsAt
  rw [encode_toNat, e, Nat.mul_left_comm, Nat.mul_add_div (Nat.two_pow_pos lo), Nat.mul_left_comm, Nat.mul_add_mod, h]

theorem resetEntropy (st : Nat) (qp : Int) (useRec : Bool) : Statement (.resetEntropy st qp useRec) := by
  refine statement_of_runs (mask := 0x0001FF03) [(2, 6), (17, 39)]
    (by simp [opcodeOf, r93Opcodes]) rfl (by decide) (by decide) ?_
  have h1 := Bool.toNat_le useRec
  simp only [List.forall_mem_cons, List.not_mem_nil, false_imp_iff, implies_true, and_true]
  refine ⟨?_, ?_⟩ <;> refine bitsAt_encode ?_ (by decide) <;>
    simp only [payloadOf, placeU, placeS, placeB] <;> omega

theorem determineInitIndex (st : Nat) (qp : Int) : Statement (.determineInitIndex st qp) := by
  refine statement_of_runs (mask := 0x0000FF03) [(2, 6), (16, 40)]
    (by simp [opcodeOf, r93Opcodes]) rfl (by decide) (by decide) ?_
  simp only [List.forall_mem_cons, List.not_mem_nil, false_imp_iff, implies_true, and_true]
  refine ⟨?_, ?_⟩ <;> refine bitsAt_encode ?_ (by decide) <;>
    simp only [payloadOf, placeU, placeS] <;> omega

theorem updateContextTables (st : Nat) (qp : Int) (useRec fin : Bool) : Statement (.updateContextTables st qp useRec fin) := by
  refine statement_of_runs (mask := 0x0003FF03) [(2, 6), (18, 38)]
    (by simp [opcodeOf, r93Opcodes]) rfl (by decide) (by decide) ?_
  have h1 := Bool.toNat_le useRec
  have h2 := Bool.toNat_le fin
  simp only [List.forall_mem_cons, List.not_mem_nil, false_imp_iff, implies_true, and_true]
  refine ⟨?_, ?_⟩ <;> refine bitsAt_encode ?_ (by decide) <;>
    simp only [payloadOf, placeU, placeS, placeB] <;> omega

theorem endSegment : Statement (.endSegment) := by
  refine statement_of_runs (mask := 0x00000000) [(0, 56)]
    (by simp [opcodeOf, r93Opcodes]) rfl (by decide) (by decide) ?_
  simp only [List.forall_mem_singleton]
  exact bitsAt_encode (by decide) (by decide)

theorem setConfig (sbhEn ampEn lmEn disInter4x4 : Bool) (qpBdOffsetY maxLog2Tb : Nat) : Statement (.setConfig sbhEn ampEn lmEn disInter4x4 qpBdOffsetY maxLog2Tb) := by
  refine statement_of_runs (mask := 0x00073F0F) [(4, 4), (14, 2), (19, 37)]
    (by simp [opcodeOf, r93Opcodes]) rfl (by decide) (by decide) ?_
  have h1 := Bool.toNat_le sbhEn
  have h2 := Bool.toNat_le ampEn
  have h3 := Bool.toNat_le lmEn
  have h4 := Bool.toNat_le disInter4x4
  simp only [List.forall_mem_cons, List.not_mem_nil, false_imp_iff, implies_true, and_true]
  refine ⟨?_, ?_, ?_⟩ <;> refine bitsAt_encode ?_ (by decide) <;>
    simp only [payloadOf, placeU, placeB] <;> omega

theorem store (slot : Nat) : Statement (.store slot) := by
  refine statement_of_runs (mask := 0x000000FF) [(8, 48)]
    (by simp [opcodeOf, r93Opcodes]) rfl (by decide) (by decide) ?_
  simp only [List.forall_mem_singleton]
  refine bitsAt_encode ?_ (by decide)
  simp only [payloadOf, placeU]
  omega

theorem load (slot : Nat) : Statement (.load slot) := by
  refine statement_of_runs (mask := 0x000000FF) [(8, 48)]
    (by simp [opcodeOf, r93Opcodes]) rfl (by decide) (by decide) ?_
  simp only [List.forall_mem_singleton]
  refine bitsAt_encode ?_ (by decide)
  simp only [payloadOf, placeU]
  omega

theorem loadPartial (slot group : Nat) : Statement (.loadPartial slot group) := by
  refine statement_of_runs (mask := 0x00001FFF) [(13, 43)]
    (by simp [opcodeOf, r93Opcodes]) rfl (by decide) (by decide) ?_
  simp only [List.forall_mem_singleton]
  refine bitsAt_encode ?_ (by decide)
  simp only [payloadOf, placeU]
  omega

theorem snapWrite (slot idx ps : Nat) (mps : Bool) : Statement (.snapWrite slot idx ps mps) := by
  refine statement_of_runs (mask := 0x0000013F01FF00FF) [(8, 8), (25, 7), (38, 2), (41, 15)]
    (by simp [opcodeOf, r93Opcodes]) rfl (by decide) (by decide) ?_
  have h1 := Bool.toNat_le mps
  simp only [List.forall_mem_cons, List.not_mem_nil, false_imp_iff, implies_true, and_true]
  refine ⟨?_, ?_, ?_, ?_⟩ <;> refine bitsAt_encode ?_ (by decide) <;>
    simp only [payloadOf, placeU, placeB] <;> omega

theorem splitFlag (v atMax avL avA : Bool) (dL dA dC : Nat) : Statement (.splitFlag v atMax avL avA dL dA dC) := by
  refine statement_of_runs (mask := 0x00001FFF) [(13, 43)]
    (by simp [opcodeOf, r93Opcodes]) rfl (by decide) (by decide) ?_
  have h1 := Bool.toNat_le v
  have h2 := Bool.toNat_le atMax
  have h3 := Bool.toNat_le avL
  have h4 := Bool.toNat_le avA
  simp only [List.forall_mem_singleton]
  refine bitsAt_encode ?_ (by decide)
  simp only [payloadOf, placeU, placeB]
  omega

theorem skipFlag (v avL skL avA skA : Bool) : Statement (.skipFlag v avL skL avA skA) := by
  refine statement_of_runs (mask := 0x0000001F) [(5, 51)]
    (by simp [opcodeOf, r93Opcodes]) rfl (by decide) (by decide) ?_
  have h1 := Bool.toNat_le v
  have h2 := Bool.toNat_le avL
  have h3 := Bool.toNat_le skL
  have h4 := Bool.toNat_le avA
  have h5 := Bool.toNat_le skA
  simp only [List.forall_mem_singleton]
  refine bitsAt_encode ?_ (by decide)
  simp only [payloadOf, placeB]
  omega

theorem mergeFlag (v : Bool) : Statement (.mergeFlag v) := by
  refine statement_of_runs (mask := 0x00000001) [(1, 55)]
    (by simp [opcodeOf, r93Opcodes]) rfl (by decide) (by decide) ?_
  have h1 := Bool.toNat_le v
  simp only [List.forall_mem_singleton]
  refine bitsAt_encode ?_ (by decide)
  simp only [payloadOf, placeB]
  omega

theorem mergeIdx (idx nc : Nat) : Statement (.mergeIdx idx nc) := by
  refine statement_of_runs (mask := 0x00000077) [(3, 1), (7, 49)]
    (by simp [opcodeOf, r93Opcodes]) rfl (by decide) (by decide) ?_
  simp only [List.forall_mem_cons, List.not_mem_nil, false_imp_iff, implies_true, and_true]
  refine ⟨?_, ?_⟩ <;> refine bitsAt_encode ?_ (by decide) <;>
    simp only [payloadOf, placeU] <;> omega

theorem partSize (part : Nat) (intra atMin : Bool) (log2Cb : Nat) (ampOk : Bool) : Statement (.partSize part intra atMin log2Cb ampOk) := by
  refine statement_of_runs (mask := 0x000001FF) [(9, 47)]
    (by simp [opcodeOf, r93Opcodes]) rfl (by decide) (by decide) ?_
  have h1 := Bool.toNat_le intra
  have h2 := Bool.toNat_le atMin
  have h3 := Bool.toNat_le ampOk
  simp only [List.forall_mem_singleton]
  refine bitsAt_encode ?_ (by decide)
  simp only [payloadOf, placeU, placeB]
  omega

theorem predMode (v : Bool) : Statement (.predMode v) := by
  refine statement_of_runs (mask := 0x00000001) [(1, 55)]
    (by simp [opcodeOf, r93Opcodes]) rfl (by decide) (by decide) ?_
  have h1 := Bool.toNat_le v
  simp only [List.forall_mem_singleton]
  refine bitsAt_encode ?_ (by decide)
  simp only [payloadOf, placeB]
  omega

theorem intraDirLuma (mode c0 c1 c2 : Nat) : Statement (.intraDirLuma mode c0 c1 c2) := by
  refine statement_of_runs (mask := 0x3F3F3F3F) [(6, 2), (14, 2), (22, 2), (30, 26)]
    (by simp [opcodeOf, r93Opcodes]) rfl (by decide) (by decide) ?_
  simp only [List.forall_mem_cons, List.not_mem_nil, false_imp_iff, implies_true, and_true]
  refine ⟨?_, ?_, ?_, ?_⟩ <;> refine bitsAt_encode ?_ (by decide) <;>
    simp only [payloadOf, placeU] <;> omega

theorem intraDirChroma (code : Nat) : Statement (.intraDirChroma code) := by
  refine statement_of_runs (mask := 0x00000007) [(3, 53)]
    (by simp [opcodeOf, r93Opcodes]) rfl (by decide) (by decide) ?_
  simp only [List.forall_mem_singleton]
  refine bitsAt_encode ?_ (by decide)
  simp only [payloadOf, placeU]
  omega

theorem interDir (dir ctd : Nat) (small : Bool) : Statement (.interDir dir ctd small) := by
  refine statement_of_runs (mask := 0x0000001F) [(5, 51)]
    (by simp [opcodeOf, r93Opcodes]) rfl (by decide) (by decide) ?_
  have h1 := Bool.toNat_le small
  simp only [List.forall_mem_singleton]
  refine bitsAt_encode ?_ (by decide)
  simp only [payloadOf, placeU, placeB]
  omega

theorem refIdx (ri nr : Nat) : Statement (.refIdx ri nr) := by
  refine statement_of_runs (mask := 0x000001FF) [(9, 47)]
    (by simp [opcodeOf, r93Opcodes]) rfl (by decide) (by decide) ?_
  simp only [List.forall_mem_singleton]
  refine bitsAt_encode ?_ (by decide)
  simp only [payloadOf, placeU]
  omega

theorem mvd (mvx mvy : Int) : Statement (.mvd mvx mvy) := by
  refine statement_of_runs (mask := 0xFFFFFFFF) [(32, 24)]
    (by simp [opcodeOf, r93Opcodes]) rfl (by decide) (by decide) ?_
  simp only [List.forall_mem_singleton]
  refine bitsAt_encode ?_ (by decide)
  simp only [payloadOf, placeS]
  omega

theorem deltaQp (dqp : Int) : Statement (.deltaQp dqp) := by
  refine statement_of_runs (mask := 0x000000FF) [(8, 48)]
    (by simp [opcodeOf, r93Opcodes]) rfl (by decide) (by decide) ?_
  simp only [List.forall_mem_singleton]
  refine bitsAt_encode ?_ (by decide)
  simp only [payloadOf, placeS]
  omega

theorem qtCbf (v pl : Bool) (ci : Nat) : Statement (.qtCbf v pl ci) := by
  refine statement_of_runs (mask := 0x0000001F) [(5, 51)]
    (by simp [opcodeOf, r93Opcodes]) rfl (by decide) (by decide) ?_
  have h1 := Bool.toNat_le v
  have h2 := Bool.toNat_le pl
  simp only [List.forall_mem_singleton]
  refine bitsAt_encode ?_ (by decide)
  simp only [payloadOf, placeU, placeB]
  omega

theorem qtRootCbf (v : Bool) : Statement (.qtRootCbf v) := by
  refine statement_of_runs (mask := 0x00000001) [(1, 55)]
    (by simp [opcodeOf, r93Opcodes]) rfl (by decide) (by decide) ?_
  have h1 := Bool.toNat_le v
  simp only [List.forall_mem_singleton]
  refine bitsAt_encode ?_ (by decide)
  simp only [payloadOf, placeB]
  omega

theorem transSubdiv (v : Bool) (ci : Nat) : Statement (.transSubdiv v ci) := by
  refine statement_of_runs (mask := 0x00000007) [(3, 53)]
    (by simp [opcodeOf, r93Opcodes]) rfl (by decide) (by decide) ?_
  have h1 := Bool.toNat_le v
  simp only [List.forall_mem_singleton]
  refine bitsAt_encode ?_ (by decide)
  simp only [payloadOf, placeU, placeB]
  omega

theorem termBin (v : Bool) : Statement (.termBin v) := by
  refine statement_of_runs (mask := 0x00000001) [(1, 55)]
    (by simp [opcodeOf, r93Opcodes]) rfl (by decide) (by decide) ?_
  have h1 := Bool.toNat_le v
  simp only [List.forall_mem_singleton]
  refine bitsAt_encode ?_ (by decide)
  simp only [payloadOf, placeB]
  omega

theorem alfFlag (v : Bool) : Statement (.alfFlag v) := by
  refine statement_of_runs (mask := 0x00000001) [(1, 55)]
    (by simp [opcodeOf, r93Opcodes]) rfl (by decide) (by decide) ?_
  have h1 := Bool.toNat_le v
  simp only [List.forall_mem_singleton]
  refine bitsAt_encode ?_ (by decide)
  simp only [payloadOf, placeB]
  omega

theorem alfUvlc (val : Nat) : Statement (.alfUvlc val) := by
  refine statement_of_runs (mask := 0x000000FF) [(8, 48)]
    (by simp [opcodeOf, r93Opcodes]) rfl (by decide) (by decide) ?_
  simp only [List.forall_mem_singleton]
  refine bitsAt_encode ?_ (by decide)
  simp only [payloadOf, placeU]
  omega

theorem alfSvlc (val : Int) : Statement (.alfSvlc val) := by
  refine statement_of_runs (mask := 0x000001FF) [(9, 47)]
    (by simp [opcodeOf, r93Opcodes]) rfl (by decide) (by decide) ?_
  simp only [List.forall_mem_singleton]
  refine bitsAt_encode ?_ (by decide)
  simp only [payloadOf, placeS]
  omega

theorem saoFlag (v : Bool) : Statement (.saoFlag v) := by
  refine statement_of_runs (mask := 0x00000001) [(1, 55)]
    (by simp [opcodeOf, r93Opcodes]) rfl (by decide) (by decide) ?_
  have h1 := Bool.toNat_le v
  simp only [List.forall_mem_singleton]
  refine bitsAt_encode ?_ (by decide)
  simp only [payloadOf, placeB]
  omega

theorem saoUvlc (val : Nat) : Statement (.saoUvlc val) := by
  refine statement_of_runs (mask := 0x000000FF) [(8, 48)]
    (by simp [opcodeOf, r93Opcodes]) rfl (by decide) (by decide) ?_
  simp only [List.forall_mem_singleton]
  refine bitsAt_encode ?_ (by decide)
  simp only [payloadOf, placeU]
  omega

theorem saoSvlc (val : Int) : Statement (.saoSvlc val) := by
  refine statement_of_runs (mask := 0x000001FF) [(9, 47)]
    (by simp [opcodeOf, r93Opcodes]) rfl (by decide) (by decide) ?_
  simp only [List.forall_mem_singleton]
  refine bitsAt_encode ?_ (by decide)
  simp only [payloadOf, placeS]
  omega

theorem coefWrite (idx : Nat) (val : Int) : Statement (.coefWrite idx val) := by
  refine statement_of_runs (mask := 0xFFFF03FF) [(10, 6), (32, 24)]
    (by simp [opcodeOf, r93Opcodes]) rfl (by decide) (by decide) ?_
  simp only [List.forall_mem_cons, List.not_mem_nil, false_imp_iff, implies_true, and_true]
  refine ⟨?_, ?_⟩ <;> refine bitsAt_encode ?_ (by decide) <;>
    simp only [payloadOf, placeU, placeS] <;> omega

theorem codeCoeff (l2 : Nat) (pl : Bool) (scan : Nat) (ll : Bool) : Statement (.codeCoeff l2 pl scan ll) := by
  refine statement_of_runs (mask := 0x0000007F) [(7, 49)]
    (by simp [opcodeOf, r93Opcodes]) rfl (by decide) (by decide) ?_
  have h1 := Bool.toNat_le pl
  have h2 := Bool.toNat_le ll
  simp only [List.forall_mem_singleton]
  refine bitsAt_encode ?_ (by decide)
  simp only [payloadOf, placeU, placeB]
  omega

theorem estRates (l2 : Nat) (pl : Bool) : Statement (.estRates l2 pl) := by
  refine statement_of_runs (mask := 0x0000000F) [(4, 52)]
    (by simp [opcodeOf, r93Opcodes]) rfl (by decide) (by decide) ?_
  have h1 := Bool.toNat_le pl
  simp only [List.forall_mem_singleton]
  refine bitsAt_encode ?_ (by decide)
  simp only [payloadOf, placeU, placeB]
  omega

end Sys2Proof.Laws.OpcodeByte
end

