-- ==== Sys2Proof/Laws/Ports.lean ====
section
/-! SUPPORT. The byte form of a 32-bit word (20_memory.md R78): the two directions undo each other. -/

namespace Sys2Proof.Machine

open Sys2Proof

theorem regWordOfBytes_toNat (b0 b1 b2 b3 : BitVec 8) : (regWordOfBytes b0 b1 b2 b3).toNat =
    b0.toNat + 2 ^ 8 * b1.toNat + 2 ^ 16 * b2.toNat + 2 ^ 24 * b3.toNat := by
  have h0 := b0.isLt
  have h1 := b1.isLt
  have h2 := b2.isLt
  simp only [regWordOfBytes, BitVec.toNat_append]
  rw [← Nat.shiftLeft_add_eq_or_of_lt (by omega), ← Nat.shiftLeft_add_eq_or_of_lt (by omega),
    ← Nat.shiftLeft_add_eq_or_of_lt (by omega)]
  simp only [Nat.shiftLeft_eq]
  omega

/-- A word read back from its bytes. -/
theorem bytesOfRegWord_eq (w : RegWord) :
    ∃ b0 b1 b2 b3, bytesOfRegWord w = [b0, b1, b2, b3] ∧ regWordOfBytes b0 b1 b2 b3 = w := by
  refine ⟨_, _, _, _, rfl, BitVec.eq_of_toNat_eq ?_⟩
  have := w.isLt
  rw [regWordOfBytes_toNat]
  simp only [BitVec.toNat_ofNat]
  omega

theorem bytesOfRegWord_regWordOfBytes (b0 b1 b2 b3 : BitVec 8) :
    bytesOfRegWord (regWordOfBytes b0 b1 b2 b3) = [b0, b1, b2, b3] := by
  have h0 := b0.isLt
  have h1 := b1.isLt
  have h2 := b2.isLt
  have h3 := b3.isLt
  have hn := regWordOfBytes_toNat b0 b1 b2 b3
  generalize regWordOfBytes b0 b1 b2 b3 = w at hn
  show [BitVec.ofNat 8 (w.toNat / 2 ^ 0), BitVec.ofNat 8 (w.toNat / 2 ^ 8), BitVec.ofNat 8 (w.toNat / 2 ^ 16),
    BitVec.ofNat 8 (w.toNat / 2 ^ 24)] = _
  simp only [List.cons.injEq, and_true]
  refine ⟨?_, ?_, ?_, ?_⟩ <;> apply BitVec.eq_of_toNat_eq <;> simp only [BitVec.toNat_ofNat] <;> omega

end Sys2Proof.Machine
end

