-- ==== Sys2Proof/Laws/Residual.lean ====
section
/-! SUPPORT. The residual coder in closed form: each part of `Block.bins` (43_residual.md), which carries its state from bin
to bin, is the part of `Residual.bins` that reads it off the coefficients. -/

namespace Sys2Proof.Machine
open Sys2Proof

/-- What the rules read of a block, without its buffer. -/
def Block.residual (k : Block) : Residual where
  build := k.build
  l2 := k.l2
  chroma := k.chroma
  scan := k.scan
  hideOk := k.hideOk
  coeffs := k.at

theorem State.block_residual (s : State) (l2 : Nat) (pl : Bool) (scan : Nat) (ll : Bool) :
    (s.block l2 pl scan ll).residual = s.residual l2 pl scan ll := rfl

theorem scanOrder_eq {n scan : Nat} (hn : n = 1 ∨ n = 2 ∨ n = 4 ∨ n = 8) (hs : scan ≤ 2) :
    scanOrder n scan = r263Scan n scan := by
  have : scan = 0 ∨ scan = 1 ∨ scan = 2 := by omega
  rcases hn with rfl | rfl | rfl | rfl <;> rcases this with rfl | rfl | rfl <;> decide +kernel

variable {k : Block}

theorem Block.ns_eq (h : 2 ≤ k.l2) : k.ns = 2 ^ (k.l2 - 2) := by
  unfold Block.ns
  obtain ⟨n, hn⟩ := Nat.exists_eq_add_of_le h
  rw [hn, Nat.pow_add, show 2 + n - 2 = n by omega]
  omega

/-- A block whose geometry CODE_COEFF accepts. -/
structure Block.ok (k : Block) : Prop where
  two : 2 ≤ k.l2
  five : k.l2 ≤ 5
  scan : k.scan ≤ 2

theorem Block.ok.ns_cases (h : k.ok) : k.ns = 1 ∨ k.ns = 2 ∨ k.ns = 4 ∨ k.ns = 8 := by
  have : k.l2 = 2 ∨ k.l2 = 3 ∨ k.l2 = 4 ∨ k.l2 = 5 := by have := h.two; have := h.five; omega
  unfold Block.ns
  rcases this with h | h | h | h <;> simp [h]

theorem Block.ok.sub (h : k.ok) (i : Nat) : k.sub i = k.residual.sub i := by
  unfold Block.sub Residual.sub
  rw [scanOrder_eq h.ns_cases h.scan, Block.ns_eq h.two]
  rfl

theorem Block.ok.pos (h : k.ok) (i n : Nat) (hn : n < 16) : k.pos (16 * i + n) = k.residual.pos i n := by
  have h1 : (16 * i + n) / 16 = i := by omega
  have h2 : (16 * i + n) % 16 = n := by omega
  have := h.sub i
  simp only [Block.sub] at this
  simp only [Block.pos, blockPos, h1, h2, scanOrder_eq (n := 4) (by simp) h.scan, Residual.pos, ← this]
  rfl

theorem Block.ok.coefAt (h : k.ok) (i n : Nat) (hn : n < 16) : k.coefAt (16 * i + n) = k.residual.at i n := by
  simp only [Block.coefAt, h.pos i n hn]; rfl

theorem Block.ok.csbf (h : k.ok) (x y : Nat) : k.csbf x y = k.residual.coded x y := by
  unfold Block.csbf Residual.coded
  rw [Block.ns_eq h.two]
  simp only [List.range, List.range.loop, List.any_cons, List.any_nil, Bool.or_false, Nat.reduceMod, Nat.reduceDiv]
  simp only [Bool.decide_and]
  congr 1
  simp only [Block.residual]
  ac_rfl

/-- A sub-block is coded exactly when it has a nonzero position. -/
theorem Residual.coded_sub {r : Residual} {i : Nat} (hs : r.scan ≤ 2)
   (hx : (r.sub i).1 < 2 ^ (r.l2 - 2)) (hy : (r.sub i).2 < 2 ^ (r.l2 - 2)) :
    r.coded (r.sub i).1 (r.sub i).2 = decide (r.nonzero i ≠ []) := by
  have hp : ∀ n, r.at i n =
      r.coeffs (4 * (r.sub i).1 + ((r263Scan 4 r.scan).getD n (0,0)).1)
      (4 * (r.sub i).2 + ((r263Scan 4 r.scan).getD n (0,0)).2) := fun n => rfl
  have e : (List.range 16).any (fun m => decide (r.coeffs (4 * (r.sub i).1 + m % 4) (4 * (r.sub i).2 + m / 4) ≠ 0)) =
      (List.range 16).any (fun n => decide (r.at i n ≠ 0)) := by
    have : r.scan = 0 ∨ r.scan = 1 ∨ r.scan = 2 := by omega
    have h0 : r263Scan 4 0 =
      [(0,0),(0,1),(1,0),(0,2),(1,1),(2,0),(0,3),(1,2),(2,1),(3,0),(1,3),(2,2),(3,1),(2,3),(3,2),(3,3)] := by decide
    have h1 : r263Scan 4 1 =
      [(0,0),(1,0),(2,0),(3,0),(0,1),(1,1),(2,1),(3,1),(0,2),(1,2),(2,2),(3,2),(0,3),(1,3),(2,3),(3,3)] := by decide
    have h2 : r263Scan 4 2 =
      [(0,0),(0,1),(0,2),(0,3),(1,0),(1,1),(1,2),(1,3),(2,0),(2,1),(2,2),(2,3),(3,0),(3,1),(3,2),(3,3)] := by decide
    simp only [hp, List.range, List.range.loop, List.any_cons, List.any_nil, Bool.or_false, Nat.reduceMod, Nat.reduceDiv]
    rcases this with h | h | h <;> rw [h] <;> simp only [h0, h1, h2, List.getD_cons_zero, List.getD_cons_succ] <;> ac_rfl
  unfold Residual.coded
  rw [e, decide_eq_true ⟨hx, hy⟩, Bool.true_and, Bool.eq_iff_iff]
  simp [Residual.nonzero]

theorem filter_range_top {P : Nat → Bool} {n t : Nat} (ht : t < n) (hP : P t = true)
    (hz : ∀ m, t < m → m < n → P m = false) :
    (List.range n).reverse.filter P = t :: (List.range t).reverse.filter P := by
  induction n with
  | zero => omega
  | succ n ih =>
    rw [List.range_succ, List.reverse_append]
    rcases Nat.lt_or_ge t n with h | h
    · simp [hz n h (by omega)]
      simpa using ih h fun m h1 h2 => hz m h1 (by omega)
    · obtain rfl : t = n := by omega
      simp [hP]

theorem getLast_filter_range {P : Nat → Bool} {n p : Nat} (h : ((List.range n).filter P).getLast? = some p) :
    p < n ∧ P p = true ∧ ∀ q, p < q → q < n → P q = false := by
  induction n with
  | zero => simp at h
  | succ n ih =>
    rw [List.range_succ, List.filter_append] at h
    cases hP : P n
    · simp only [List.filter_cons, hP, List.filter_nil, List.append_nil, Bool.false_eq_true, if_false] at h
      obtain ⟨h1, h2, h3⟩ := ih h
      refine ⟨by omega, h2, fun q hq hn => ?_⟩
      rcases Nat.lt_succ_iff_lt_or_eq.1 hn with hn | rfl
      exacts [h3 q hq hn, hP]
    · simp [hP] at h
      subst h
      exact ⟨by omega, hP, fun q h1 h2 => by omega⟩

theorem Block.last?_none (h : k.last? = none) : ∀ p < 4 ^ k.l2, k.coefAt p = 0 := by
  unfold Block.last? at h
  simpa using h

theorem Block.last?_some {p : Nat} (h : k.last? = some p) :
    p < 4 ^ k.l2 ∧ k.coefAt p ≠ 0 ∧ ∀ q, p < q → q < 4 ^ k.l2 → k.coefAt q = 0 := by
  have := getLast_filter_range h
  simpa using this

theorem Block.ok.pow (h : k.ok) : 4 ^ k.l2 = 16 * 4 ^ (k.l2 - 2) := by
  have := h.two
  rw [show (16 : Nat) = 4 ^ 2 by rfl, ← Nat.pow_add]; congr; omega

theorem Residual.mem_nonzero {r : Residual} {i n : Nat} : n ∈ r.nonzero i ↔ n < 16 ∧ r.at i n ≠ 0 := by
  simp [Residual.nonzero]

theorem Residual.nonzero_eq_nil {r : Residual} {i : Nat} : r.nonzero i = [] ↔ ∀ n < 16, r.at i n = 0 := by
  simp [Residual.nonzero]

theorem find_range_top {P : Nat → Bool} {n t : Nat} (ht : t < n) (hP : P t = true)
    (hz : ∀ m, t < m → m < n → P m = false) :
    (List.range n).reverse.find? P = some t := by
  rw [← List.head?_filter, filter_range_top ht hP hz]; rfl

theorem Block.ok.lastSub_none (h : k.ok) (hl : k.last? = none) : k.residual.lastSub? = none := by
  have := Block.last?_none hl
  unfold Residual.lastSub?
  simp only [List.find?_eq_none, List.mem_reverse, List.mem_range, decide_eq_true_eq, not_not]
  intro i hi
  rw [Residual.nonzero_eq_nil]
  intro n hn
  rw [← h.coefAt i n hn]
  apply this
  rw [h.pow]
  have : k.residual.l2 = k.l2 := rfl
  rw [this] at hi
  omega

/-- The last position found in the block is the highest nonzero position of the last sub-block with one. -/
theorem Block.ok.last_some (h : k.ok) {p : Nat} (hl : k.last? = some p) :
    k.residual.lastSub? = some (p / 16) ∧ p / 16 < 4 ^ (k.l2 - 2) ∧
    k.residual.nonzero (p / 16) = p % 16 ::
      (List.range (p % 16)).reverse.filter fun n => decide (k.residual.at (p / 16) n ≠ 0) := by
  obtain ⟨h1, h2, h3⟩ := Block.last?_some hl
  rw [h.pow] at h1 h3
  have e : 16 * (p / 16) + p % 16 = p := by omega
  have hp : k.residual.at (p / 16) (p % 16) ≠ 0 := by rw [← h.coefAt _ _ (by omega), e]; exact h2
  have hz : ∀ i n, n < 16 → p < 16 * i + n → i < 4 ^ (k.l2 - 2) → k.residual.at i n = 0 := fun i n hn hlt hi => by
    rw [← h.coefAt _ _ hn]; exact h3 _ hlt (by omega)
  have hn : k.residual.nonzero (p / 16) = p % 16 ::
      (List.range (p % 16)).reverse.filter fun n => decide (k.residual.at (p / 16) n ≠ 0) := by
    refine filter_range_top (by omega) (by simpa using hp) fun m h1 h2 => ?_
    simpa using hz (p / 16) m h2 (by omega) (by omega)
  refine ⟨find_range_top (P := fun i => decide (k.residual.nonzero i ≠ [])) (by show p / 16 < 4 ^ (k.l2 - 2); omega)
    (by rw [hn]; rfl) fun i h1 h2 => ?_, by omega, hn⟩
  have h2 : i < 4 ^ (k.l2 - 2) := h2
  simp only [ne_eq, decide_not, Bool.not_eq_false', decide_eq_true_eq]
  rw [Residual.nonzero_eq_nil]
  exact fun n hn => hz i n hn (by omega) h2
theorem r263Scan_lt {n scan i : Nat} (hn : n = 1 ∨ n = 2 ∨ n = 4 ∨ n = 8) (hs : scan ≤ 2) :
    ((r263Scan n scan).getD i (0, 0)).1 < n ∧ ((r263Scan n scan).getD i (0, 0)).2 < n := by
  have hm : ∀ x ∈ r263Scan n scan, x.1 < n ∧ x.2 < n := by
    have : scan = 0 ∨ scan = 1 ∨ scan = 2 := by omega
    rcases hn with rfl | rfl | rfl | rfl <;> rcases this with rfl | rfl | rfl <;> decide +kernel
  rcases Nat.lt_or_ge i (r263Scan n scan).length with h | h
  · rw [← List.getElem_eq_getD (h := h)]; exact hm _ (List.getElem_mem h)
  · rw [List.getD_eq_default _ _ h]; constructor <;> (show 0 < n) <;> omega

theorem Block.ok.sub_lt (h : k.ok) (i : Nat) :
    (k.residual.sub i).1 < 2 ^ (k.l2 - 2) ∧ (k.residual.sub i).2 < 2 ^ (k.l2 - 2) := by
  unfold Residual.sub
  refine r263Scan_lt ?_ h.scan
  have := h.ns_cases
  rwa [Block.ns_eq h.two] at this

/-- The coded-sub-block flag says whether the sub-block has a nonzero position. -/
theorem Block.ok.coded (h : k.ok) (i : Nat) :
    k.residual.coded (k.residual.sub i).1 (k.residual.sub i).2 = decide (k.residual.nonzero i ≠ []) :=
  Residual.coded_sub h.scan (h.sub_lt i).1 (h.sub_lt i).2

theorem Residual.pos_div {r : Residual} (hs : r.scan ≤ 2) (i n : Nat) :
    (r.pos i n).1 / 4 = (r.sub i).1 ∧ (r.pos i n).2 / 4 = (r.sub i).2 := by
  have := r263Scan_lt (n := 4) (i := n) (by simp) hs
  simp only [Residual.pos]
  omega

theorem Block.ok.sigCtx (h : k.ok) (i n : Nat) :
    k.sigCtx (k.prevCsbf (k.residual.sub i).1 (k.residual.sub i).2) (k.residual.pos i n).1 (k.residual.pos i n).2 =
      k.residual.sigCtx (k.residual.pos i n).1 (k.residual.pos i n).2 := by
  have hd := Residual.pos_div (r := k.residual) h.scan i n
  unfold Block.sigCtx Residual.sigCtx Block.prevCsbf
  rw [h.csbf, h.csbf, ← hd.1, ← hd.2]
  generalize (k.residual.pos i n).1 = x
  generalize (k.residual.pos i n).2 = y
  have hc : k.residual.chroma = k.chroma := rfl
  have hl : k.residual.l2 = k.l2 := rfl
  have hs : k.residual.scan = k.scan := rfl
  simp only [hc, hl, hs, sigCtxInPlane, ctxIdxMap]
  have e1 : (x + y = 0) = (x = 0 ∧ y = 0) := by simp
  have e2 : (x / 4 = 0 ∧ y / 4 = 0) = (x < 4 ∧ y < 4) := by simp
  simp only [e1, e2]
  congr 1
  cases k.residual.coded (x / 4 + 1) (y / 4) <;> cases k.residual.coded (x / 4) (y / 4 + 1) <;> simp [patternCtx]

/-- The significance flags in closed form: every position gets one, but position 0 where it can be inferred. -/
theorem Block.ok.sigFlags (h : k.ok) (i prev : Nat) {n : Nat} (hn : n ≤ 16) {infer : Bool}
    (hi : infer = true → ∃ m < n, k.residual.at i m ≠ 0) :
    k.sigFlags i prev n infer =
      (((List.range n).reverse.filter fun m =>
          !(infer && decide (m = 0 ∧ ∀ q < n, q ≠ 0 → k.residual.at i q = 0))).map fun m =>
        rb .sig (k.sigCtx prev (k.residual.pos i m).1 (k.residual.pos i m).2) (decide (k.residual.at i m ≠ 0)),
      ((List.range n).reverse.filter fun m => decide (k.residual.at i m ≠ 0)).map (16 * i + ·)) := by
  induction n generalizing infer with
  | zero => rfl
  | succ n ih =>
    unfold Block.sigFlags
    simp only [h.coefAt i n (by omega), h.pos i n (by omega)]
    split
    · rename_i h0
      obtain ⟨rfl, rfl⟩ := h0
      obtain ⟨m, hm, hm0⟩ := hi rfl
      obtain rfl : m = 0 := by omega
      simp [List.range_succ, hm0]
    · rename_i h0
      rw [ih (by omega) (infer := infer && !decide (k.residual.at i n ≠ 0)) (by
        intro hb
        simp only [ne_eq, decide_not, Bool.not_not, Bool.and_eq_true, decide_eq_true_eq] at hb
        obtain ⟨m, hm, hm0⟩ := hi hb.1
        refine ⟨m, ?_, hm0⟩
        rcases Nat.lt_succ_iff_lt_or_eq.1 hm with hm | rfl
        exacts [hm, absurd hb.2 hm0])]
      rw [List.range_succ, List.reverse_append, List.reverse_singleton, List.singleton_append, List.filter_cons_of_pos,
        List.map_cons, List.filter_cons]
      · refine Prod.ext ?_ ?_
        · simp only
          congr 2
          refine List.filter_congr fun m hm => ?_
          simp only [List.mem_reverse, List.mem_range] at hm
          congr 1
          by_cases hm0 : m = 0
          · subst hm0
            by_cases hz : k.residual.at i n = 0
            · have : (∀ q < n + 1, q ≠ 0 → k.residual.at i q = 0) ↔ ∀ q < n, q ≠ 0 → k.residual.at i q = 0 := by
                refine ⟨fun hq q h1 h2 => hq q (by omega) h2, fun hq q h1 h2 => ?_⟩
                rcases Nat.lt_succ_iff_lt_or_eq.1 h1 with h1 | rfl
                exacts [hq q h1 h2, hz]
              rw [show decide (0 = 0 ∧ ∀ q < n + 1, q ≠ 0 → k.residual.at i q = 0) =
                decide (0 = 0 ∧ ∀ q < n, q ≠ 0 → k.residual.at i q = 0) from
                  decide_eq_decide.2 (and_congr_right fun _ => this)]
              simp [hz]
            · have : ¬ ∀ q < n + 1, q ≠ 0 → k.residual.at i q = 0 := fun hq => hz (hq n (by omega) (by omega))
              rw [decide_eq_false fun c : 0 = 0 ∧ _ => this c.2]
              simp [hz]
          · simp [hm0]
        · simp only
          split <;> simp
      · cases infer
        · rfl
        · have : n ≠ 0 := fun hn => h0 ⟨hn, rfl⟩
          simp [this]
/-- The flags of a sub-block and the positions they show, up to the last sub-block of the block. -/
theorem Block.ok.subBlockFlags (h : k.ok) {last i : Nat} (hi : i ≤ last / 16)
    (hl : k.residual.nonzero (last / 16) = last % 16 ::
      (List.range (last % 16)).reverse.filter fun n => decide (k.residual.at (last / 16) n ≠ 0)) :
    k.subBlockFlags last i = (k.residual.flagBins (last / 16) i, (k.residual.nonzero i).map (16 * i + ·)) := by
  unfold Block.subBlockFlags Residual.flagBins
  simp only [h.sub i, h.csbf, h.coded i]
  have hb : k.csbfCtx (k.residual.sub i).1 (k.residual.sub i).2 =
      (if k.residual.coded ((k.residual.sub i).1 + 1) (k.residual.sub i).2 ∨
        k.residual.coded (k.residual.sub i).1 ((k.residual.sub i).2 + 1) then 1 else 0) + (if k.chroma then 2 else 0) := by
    unfold Block.csbfCtx
    rw [h.csbf, h.csbf]
    cases k.residual.coded ((k.residual.sub i).1 + 1) (k.residual.sub i).2 <;>
      cases k.residual.coded (k.residual.sub i).1 ((k.residual.sub i).2 + 1) <;> rfl
  have hs : ∀ n b, rb .sig (k.sigCtx (k.prevCsbf (k.residual.sub i).1 (k.residual.sub i).2) (k.residual.pos i n).1
      (k.residual.pos i n).2) b = .reg (46 + k.residual.sigCtx (k.residual.pos i n).1 (k.residual.pos i n).2) b := fun n b => by
    rw [h.sigCtx]; rfl
  have hc : k.residual.chroma = k.chroma := rfl
  have hg : ∀ c b, rb .sigGroup c b = .reg (42 + c) b := fun _ _ => rfl
  simp only [hb, hc, hg, ← Nat.add_assoc, ← Bool.decide_and]
  by_cases h1 : i = last / 16
  · -- the last sub-block with a coefficient: no flag, and the last position is known
    subst h1
    simp only [eq_self, if_true]
    rw [h.sigFlags _ _ (by omega) (by simp)]
    have e : ((List.range (last % 16)).reverse.filter fun m =>
        decide (k.residual.at (last / 16) m ≠ 0)).map (16 * (last / 16) + ·) =
        (k.residual.nonzero (last / 16)).tail.map (16 * (last / 16) + ·) := by
      rw [hl]; rfl
    simp only [hs, e, lt_irrefl, and_false, decide_false, Bool.not_false, Bool.true_or, if_true, Bool.false_eq_true,
      if_false, false_and, Bool.false_and]
    refine Prod.ext (by rw [hl]; rfl) ?_
    rw [hl]
    simp only [List.map_cons, List.tail_cons]
    congr 1
    omega
  · simp only [if_neg h1]
    have hi' : i < last / 16 := by omega
    simp only [hi', and_true]
    by_cases h2 : k.residual.nonzero i = []
    · by_cases h0 : 0 < i
      · simp [h2, h0]
      · have hz : ∀ n < 16, k.residual.at i n = 0 := Residual.nonzero_eq_nil.1 h2
        rw [decide_eq_false h0]
        rw [h.sigFlags i _ (le_refl _) (by simp)]
        simp only [hs, h2]
        simp
        intro a ha; exact hz a ha
    · rw [h.sigFlags i _ (le_refl _) (fun _ => by
        obtain ⟨n, hn⟩ := List.exists_mem_of_ne_nil _ h2
        exact ⟨n, Residual.mem_nonzero.1 hn⟩)]
      have hnz : (∀ q < 16, q ≠ 0 → k.residual.at i q = 0) ↔ k.residual.nonzero i = [0] := by
        constructor
        · intro hq
          have h00 : k.residual.at i 0 ≠ 0 := by
            obtain ⟨n, hn⟩ := List.exists_mem_of_ne_nil _ h2
            rw [Residual.mem_nonzero] at hn
            by_cases h : n = 0
            · exact h ▸ hn.2
            · exact absurd (hq n hn.1 h) hn.2
          exact filter_range_top (by omega) (by simpa using h00) fun m h1 h2 => by simpa using hq m h2 (by omega)
        · intro hz q hq hq0
          by_contra hc
          have : q ∈ k.residual.nonzero i := Residual.mem_nonzero.2 ⟨hq, hc⟩
          rw [hz] at this
          exact hq0 (by simpa using this)
      simp only [hs, hnz, h2]
      simp
      rw [if_pos (.inr h2)]
      exact ⟨rfl, by simp [Residual.nonzero]⟩

/-! ### Last position -/

theorem zipIdx_binTU (f : Nat → Bool → Bin) (s cMax : Nat) : ((binTU s cMax).zipIdx.map fun p => f p.2 p.1) =
    (List.range s).map (f · true) ++ if s < cMax then [f s false] else [] := by
  have hr : ∀ s, ((List.replicate s true).zipIdx.map fun p => f p.2 p.1) = (List.range s).map (f · true) := by
    intro s
    induction s with
    | zero => rfl
    | succ s ih => simp [List.replicate_succ', List.range_succ, List.zipIdx_append, ih]
  unfold binTU
  rw [List.zipIdx_append, List.map_append, hr]
  split <;> simp

theorem lastCoord_eq (k : Block) {v : Nat} (hv : v < 32) :
    k.residual.lastCoord 88 v = (lastPrefix .lastX k.l2 k.chroma v, lastSuffix v) ∧
    k.residual.lastCoord 106 v = (lastPrefix .lastY k.l2 k.chroma v, lastSuffix v) := by
  have hg : ∀ v < 32, ([0, 1, 2, 3, 4, 4, 5, 5, 6, 6, 6, 6, 7, 7, 7, 7] ++ List.replicate 8 8 ++ List.replicate 8 9).getD v 0 =
      groupIdx v := by decide
  have hp : ∀ g, lastPrefix g k.l2 k.chroma v = _ := fun g =>
    zipIdx_binTU (fun j b => rb g (lastCtx k.l2 k.chroma j) b) (groupIdx v) (2 * k.l2 - 1)
  simp only [Residual.lastCoord, hg v hv, hp, lastSuffix, epBins_eq_epBitsOf]
  exact ⟨rfl, rfl⟩

/-- The last position is coded as R265 says. -/
theorem lastPosBins_eq (k : Block) {x y : Nat} (hx : x < 32) (hy : y < 32) : k.lastPosBins x y = k.residual.lastBins x y := by
  have hs : swapsLast k.build k.scan = decide (k.scan = 2 ∨ (k.scan = 1 ∧ k.build.lastSwap = .horAndVert)) := by
    unfold swapsLast
    cases k.build.lastSwap <;> simp [Bool.decide_or, Bool.or_comm]
  have hs' : decide (k.residual.scan = 2 ∨ (k.residual.scan = 1 ∧ k.residual.build.lastSwap = .horAndVert)) =
      swapsLast k.build k.scan := hs.symm
  unfold Block.lastPosBins Residual.lastBins
  rw [hs']
  cases swapsLast k.build k.scan <;> simp [lastCoord_eq k hx, lastCoord_eq k hy]

theorem Block.ok.pos_lt (h : k.ok) (i n : Nat) : (k.residual.pos i n).1 < 32 ∧ (k.residual.pos i n).2 < 32 := by
  have h1 := h.sub_lt i
  have h2 := Residual.pos_div (r := k.residual) h.scan i n
  have h3 : 2 ^ (k.l2 - 2) ≤ 2 ^ 3 := Nat.pow_le_pow_right (by omega) (by have := h.five; omega)
  omega

/-! ### Levels -/

theorem gt1Flags_append (ch : Bool) (set : Nat) (xs ys : List Nat) (c : Nat) : gt1Flags ch set (xs ++ ys) c =
    ((gt1Flags ch set xs c).1 ++ (gt1Flags ch set ys (gt1Flags ch set xs c).2).1,
      (gt1Flags ch set ys (gt1Flags ch set xs c).2).2) := by
  induction xs generalizing c with
  | nil => rfl
  | cons x xs ih => simp [gt1Flags, ih]

/-- The state c1 after the flags of the magnitudes given: 0 once one was above 1, else it counts them up to 3. -/
def c1After (xs : List Nat) : Nat := if xs.any fun a => decide (1 < a) then 0 else min (xs.length + 1) 3

theorem c1After_eq_zero {xs : List Nat} : c1After xs = 0 ↔ (xs.any fun a => decide (1 < a)) = true := by
  unfold c1After
  split <;> simp_all

/-- The greater-than-1 flags of a sub-block in closed form. -/
theorem gt1Flags_eq (ch : Bool) (set : Nat) (xs : List Nat) : gt1Flags ch set xs 1 =
    (xs.zipIdx.map fun p => rb .gt1 (4 * set + c1After (xs.take p.2) + (if ch then 16 else 0)) (decide (1 < p.1)),
      c1After xs) := by
  induction xs using List.reverseRecOn with
  | nil => rfl
  | append_singleton xs a ih =>
    rw [gt1Flags_append, ih, List.zipIdx_append, List.map_append]
    have hn : nextC1 (c1After xs) (decide (1 < a)) = c1After (xs ++ [a]) := by
      unfold nextC1 c1After
      simp only [List.any_append, List.length_append, List.any_cons, List.any_nil, Bool.or_false, List.length_singleton]
      cases xs.any fun a => decide (1 < a) <;> cases decide (1 < a) <;>
        rcases Nat.lt_or_ge xs.length 2 with hx | hx <;> simp <;> split_ifs <;> omega
    refine Prod.ext ?_ hn
    simp only [gt1Flags, List.zipIdx_cons, List.zipIdx_nil, List.map_cons, List.map_nil, Nat.zero_add, List.take_left]
    congr 1
    refine List.map_congr_left fun p hp => ?_
    have := (List.mem_zipIdx hp).2.1
    rw [List.take_append_of_le_length (by omega)]

/-- The first element with a property: where it is, and what the filter then starts with. -/
theorem findIdx_cases (P : Nat → Bool) (xs : List Nat) :
    (xs.findIdx? P = none ∧ xs.filter P = []) ∨
    ∃ f, xs.findIdx? P = some f ∧ f < xs.length ∧ P (xs.getD f 0) = true ∧ (xs.filter P).take 1 = [xs.getD f 0] := by
  induction xs with
  | nil => exact .inl ⟨rfl, rfl⟩
  | cons x xs ih =>
    cases h : P x
    · rcases ih with ⟨h1, h2⟩ | ⟨f, h1, h2, h3, h4⟩
      · exact .inl ⟨by simp [List.findIdx?_cons, h, h1], by simp [h, h2]⟩
      · exact .inr ⟨f + 1, by simp [List.findIdx?_cons, h, h1], by simp [h2], by simpa using h3, by simpa [h] using h4⟩
    · exact .inr ⟨0, by simp [List.findIdx?_cons, h], by simp, by simpa using h, by simp [h]⟩

/-- cRice from `c`, after the remaining levels of the magnitudes given. -/
def riceFrom (riceMax c : Nat) (as : List Nat) : Nat :=
  as.foldl (fun r a => if 3 * 2 ^ r < a then min (r + 1) riceMax else r) c

theorem riceFrom_append (m c : Nat) (xs ys : List Nat) : riceFrom m c (xs ++ ys) = riceFrom m (riceFrom m c xs) ys :=
  List.foldl_append

/-- The bins of the remaining levels given, each a magnitude and its base level, from cRice = `c`. -/
def levelBinsFrom (riceMax c : Nat) (levels : List (Nat × Nat)) : List Bin :=
  levels.zipIdx.flatMap fun p =>
    (r184Bins (p.1.1 - p.1.2) (riceFrom riceMax c ((levels.take p.2).map Prod.fst))).map .ep

theorem levelBinsFrom_cons (m c a base : Nat) (levels : List (Nat × Nat)) : levelBinsFrom m c ((a, base) :: levels) =
    (r184Bins (a - base) c).map .ep ++ levelBinsFrom m (nextRice m a c) levels := by
  unfold levelBinsFrom
  rw [List.zipIdx_cons, List.flatMap_cons, Nat.zero_add, List.zipIdx_succ, List.flatMap_map]
  rfl

/-- The remaining levels in closed form: those whose base level is the needed one, each coded with the parameter of the
levels before. -/
theorem remLevels_ok {b : Build} {first : Option Nat} {g2 : Bool} {as : List Nat} {i c : Nat} {r : List Bin × Nat}
    (hb : ∀ p ∈ as.zipIdx i, baseLevel b.gt1MaxPerGroup first g2 p.2 p.1 = neededLevel b.gt1MaxPerGroup first p.2 ↔
      neededLevel b.gt1MaxPerGroup first p.2 ≤ p.1)
    (h : remLevels b first g2 as i c = .ok r) :
    let levels := ((as.zipIdx i).map fun p => (p.1, neededLevel b.gt1MaxPerGroup first p.2)).filter fun p => decide (p.2 ≤ p.1)
    r = (levelBinsFrom b.riceMax c levels, riceFrom b.riceMax c (levels.map Prod.fst)) := by
  induction as generalizing i c r with
  | nil => exact (Except.ok.inj h).symm
  | cons a as ih =>
    intro levels
    have hb' := hb (a, i) (by simp)
    have ih' := fun {c r} => ih (i := i + 1) (c := c) (r := r) (fun p hp => hb p (by simp [hp]))
    unfold remLevels at h
    simp only at hb'
    split at h
    · rename_i he
      split at h
      · cases h
      · rename_i bins hbins
        split at h
        · cases h
        · rename_i r' hr'
          cases h
          have := ih' hr'
          simp only at this
          have hl : levels = (a, neededLevel b.gt1MaxPerGroup first i) ::
              ((as.zipIdx (i + 1)).map fun p => (p.1, neededLevel b.gt1MaxPerGroup first p.2)).filter fun p =>
                decide (p.2 ≤ p.1) := by
            simp [levels, hb'.1 he]
          rw [hl, this, binGR_ok hbins, he, levelBinsFrom_cons]
          rfl
    · rename_i he
      have hl : levels =
        ((as.zipIdx (i + 1)).map fun p => (p.1, neededLevel b.gt1MaxPerGroup first p.2)).filter fun p =>
                decide (p.2 ≤ p.1) := by
        simp [levels, mt hb'.2 he]
      rw [hl]
      exact ih' h

/-- The base level reaches the needed one exactly on the magnitudes that do. -/
theorem baseLevel_iff {m : Nat} {A : List Nat} (hA : ∀ a ∈ A, 1 ≤ a) {first : Option Nat} {g2 : Bool}
    (hf : first = (A.take m).findIdx? fun a => decide (1 < a)) (hg : ∀ f, first = some f → g2 = decide (2 < A.getD f 0)) :
    ∀ p ∈ A.zipIdx, baseLevel m first g2 p.2 p.1 = neededLevel m first p.2 ↔ neededLevel m first p.2 ≤ p.1 := by
  rintro ⟨a, i⟩ hp
  have ha := hA a (List.fst_mem_of_mem_zipIdx hp)
  obtain ⟨_, hi, hai⟩ := List.mem_zipIdx hp
  simp only [Nat.sub_zero, Nat.zero_add] at hi hai
  unfold baseLevel neededLevel
  by_cases h1 : some i = first
  · have hlt : i < (A.take m).length ∧ 1 < (A.take m).getD i 0 := by
      rcases findIdx_cases (fun a => decide (1 < a)) (A.take m) with ⟨h, _⟩ | ⟨f, h, h2, h3, _⟩
      · rw [← hf, ← h1] at h; cases h
      · rw [← hf, ← h1] at h; cases h; exact ⟨h2, by simpa using h3⟩
    have him : i < m := by have := List.length_take_le m A; omega
    have hget : A.getD i 0 = a := by simp [List.getD, hi, hai]
    have h2 : 1 < a := by
      have := hlt.2
      simp only [List.getD, List.getElem?_take, if_pos him] at this
      rwa [show A[i]?.getD 0 = a from hget] at this
    have := hg i h1.symm
    rw [hget] at this
    simp only [him, h1, this, h2, true_and, if_true, decide_eq_true_eq]
    split <;> simp <;> omega
  · simp only [h1, false_and, if_false]
    by_cases hm : i < m <;> by_cases h2 : 1 < a <;> simp [hm, h2] <;> omega

/-- `codeLevels` in closed form. `c1` says whether the sub-block before had a flag that was 1, `c` is the parameter at the
start. -/
theorem Block.ok.codeLevels (h : k.ok) {last i c1 c : Nat} (hS : k.residual.nonzero i ≠ [])
    (hset : k.residual.ctxSet last i = ctxSetOf k.chroma i c1)
    (hrice : c = k.residual.riceAfter (k.residual.riceBefore last i)) {l : List Bin × Nat × Nat}
    (hl : k.codeLevels i ((k.residual.nonzero i).map (16 * i + ·)) c1 c = .ok l) :
    l = (k.residual.levelBins last i, c1After (k.residual.flagged i),
      riceFrom k.build.riceMax c ((k.residual.levels i).map Prod.fst)) := by
  have hv : ((k.residual.nonzero i).map (16 * i + ·)).map k.coefAt = (k.residual.nonzero i).map (k.residual.at i) := by
    rw [List.map_map]
    exact List.map_congr_left fun n hn => h.coefAt i n (Residual.mem_nonzero.1 hn).1
  have hA : ((k.residual.nonzero i).map (k.residual.at i)).map Int.natAbs = k.residual.magnitudes i := by
    rw [List.map_map]; rfl
  have hA1 : ∀ a ∈ k.residual.magnitudes i, 1 ≤ a := by
    intro a ha
    obtain ⟨n, hn, rfl⟩ := List.mem_map.1 ha
    have := (Residual.mem_nonzero.1 hn).2
    omega
  have hF : (k.residual.magnitudes i).take k.build.gt1MaxPerGroup = k.residual.flagged i := rfl
  have hh : k.signHidden ((k.residual.nonzero i).map (16 * i + ·)) =
      (k.residual.hideOk && decide (k.residual.build.sbhThreshold ≤
        (k.residual.nonzero i).headD 0 - (k.residual.nonzero i).getLastD 0)) := by
    unfold Block.signHidden
    obtain ⟨a, as, ha⟩ := List.exists_cons_of_ne_nil hS
    have e1 : ((k.residual.nonzero i).map (16 * i + ·)).headD 0 = 16 * i + (k.residual.nonzero i).headD 0 := by rw [ha]; rfl
    have e2 : ((k.residual.nonzero i).map (16 * i + ·)).getLastD 0 = 16 * i + (k.residual.nonzero i).getLastD 0 := by
      rw [List.getLastD_eq_getLast?, List.getLastD_eq_getLast?, List.getLast?_map]
      rw [List.getLast?_eq_some_getLast hS]; rfl
    rw [e1, e2, Nat.add_sub_add_left]
    rfl
  unfold Block.codeLevels at hl
  simp only [hv, hA, hF, gt1Flags_eq] at hl
  split at hl
  · cases hl
  · split at hl
    · cases hl
    · rename_i r hr
      cases hl
      have hr' := remLevels_ok (baseLevel_iff hA1 rfl (by rw [hF]; intro f hf; rw [hf])) hr
      simp only at hr'
      have hlev : (((k.residual.magnitudes i).zipIdx).map fun p => (p.1, neededLevel k.build.gt1MaxPerGroup
          ((k.residual.flagged i).findIdx? fun a => decide (1 < a)) p.2)).filter (fun p => decide (p.2 ≤ p.1)) =
            k.residual.levels i := rfl
      rw [hF, hlev] at hr'
      rw [hr']
      refine Prod.ext ?_ rfl
      simp only [Residual.levelBins, List.flatten_cons, List.flatten_nil, List.append_nil, hset]
      rw [List.append_assoc, List.append_assoc]
      refine congrArg₂ _ ?_ (congrArg₂ _ ?_ (congrArg₂ _ ?_ ?_))
      · exact List.map_congr_left fun p hp => by 
          have := (List.mem_zipIdx hp).2.1
          simp only [rb, c1After, Group.base, List.length_take]
          rw [Nat.min_eq_left (a := p.2) (by omega)]
          rw [← Nat.add_assoc, ← Nat.add_assoc]
          rfl
      · rcases findIdx_cases (fun a => decide (1 < a)) (k.residual.flagged i) with ⟨h1, h2⟩ | ⟨f, h1, h2, h3, h4⟩
        · simp only [h1, h2]; rfl
        · simp only [h1, h4]
          have hm : f < k.build.gt1MaxPerGroup := by
            have := List.length_take_le k.build.gt1MaxPerGroup (k.residual.magnitudes i); rw [hF] at this; omega
          have : (k.residual.flagged i).getD f 0 = (k.residual.magnitudes i).getD f 0 := by
            simp only [List.getD, ← hF, List.getElem?_take, if_pos hm]
          rw [this]
          simp [rb, Group.base, Nat.add_assoc]
          rfl
      · rw [signBins, hh]
        split
        · simp
          rfl
        · simp
      · rw [levelBinsFrom, hrice]
        refine List.flatMap_congr fun p hp => ?_
        simp only [Residual.riceAfter, List.foldl_append]
        rfl


/-! ### Sub-blocks -/

theorem filter_range_ge {n m : Nat} (h : n < m) : (List.range m).reverse.filter (fun j => decide (n ≤ j)) =
    (List.range m).reverse.filter (fun j => decide (n + 1 ≤ j)) ++ [n] := by
  induction m with
  | zero => omega
  | succ m ih =>
    rw [List.range_succ, List.reverse_append, List.reverse_singleton, List.singleton_append, List.filter_cons, List.filter_cons]
    rcases Nat.lt_succ_iff_lt_or_eq.1 h with h | rfl
    · simp only [show n ≤ m by omega, show n + 1 ≤ m by omega, decide_true, if_true, ih h, List.cons_append]
    · have e : ∀ d, n ≤ d → (List.range n).reverse.filter (fun j => decide (d ≤ j)) = [] := fun d hd => by
        rw [List.filter_eq_nil_iff]
        intro j hj
        have := List.mem_range.1 (List.mem_reverse.1 hj)
        simp
        omega
      rw [e n (le_refl n), e (n + 1) (by omega)]
      simp

/-- The first sub-block from `n` on with a coefficient. -/
theorem find_range_ge (P : Nat → Bool) {n m : Nat} (h : n < m) : (List.range m).find? (fun j => decide (n ≤ j) && P j) =
    if P n then some n else (List.range m).find? (fun j => decide (n + 1 ≤ j) && P j) := by
  split
  · rw [List.find?_range_eq_some]
    refine ⟨by simpa, by simpa, fun j hj => by simp; omega⟩
  · refine List.find?_congr fun j _ => ?_
    by_cases hj : j = n
    · subst hj; simp_all
    · congr 1; simp; omega

/-- The state c1 that the sub-blocks from `n` on leave: 0 where the last one with coefficients had a flag that was 1. -/
def Residual.c1From (r : Residual) (last n : Nat) : Bool :=
  match (List.range (last + 1)).find? fun j => decide (n ≤ j) && decide (r.nonzero j ≠ []) with
  | some j => (r.flagged j).any fun a => decide (1 < a)
  | none => false

theorem Block.ctxSet_eq (k : Block) {last i c1 : Nat} (h : c1 = 0 ↔ k.residual.c1From last (i + 1) = true) :
    k.residual.ctxSet last i = ctxSetOf k.chroma i c1 := by
  unfold Residual.ctxSet ctxSetOf
  have e : (fun j => decide (i < j ∧ k.residual.nonzero j ≠ [])) =
      fun j => decide (i + 1 ≤ j) && decide (k.residual.nonzero j ≠ []) := by
    funext j; rw [Bool.decide_and]; rfl
  unfold Residual.c1From at h
  simp only [e]
  congr 1
  split <;> rename_i hf <;> rw [hf] at h <;> simp only at h
  · split <;> simp_all
  · simp_all

/-- cRice after the sub-blocks from `n` on. -/
def Residual.riceFrom (r : Residual) (last n : Nat) : Nat :=
  r.riceAfter (((List.range (last + 1)).reverse.filter fun j => decide (n ≤ j)).flatMap fun j => (r.levels j).map Prod.fst)

/-- Sub-blocks n - 1 down to 0, in closed form. -/
theorem Block.ok.subBlocks (h : k.ok) {last : Nat}
    (hl : k.residual.nonzero (last / 16) = last % 16 ::
      (List.range (last % 16)).reverse.filter fun n => decide (k.residual.at (last / 16) n ≠ 0))
    {n c1 c : Nat} (hn : n ≤ last / 16 + 1) (hc : c1 = 0 ↔ k.residual.c1From (last / 16) n = true)
    (hr : k.build.riceReset = .perBlock → c = k.residual.riceFrom (last / 16) n) {bins : List Bin}
    (hb : k.subBlocks last n c1 c = .ok bins) :
    bins = (List.range n).reverse.flatMap fun i => k.residual.flagBins (last / 16) i ++
      if k.residual.nonzero i = [] then [] else k.residual.levelBins (last / 16) i := by
  induction n generalizing c1 c bins with
  | zero => exact (Except.ok.inj hb).symm
  | succ i ih =>
    have hrice : riceAtSubBlock k.build c = k.residual.riceAfter (k.residual.riceBefore (last / 16) i) := by
      unfold riceAtSubBlock Residual.riceBefore
      have hb : k.residual.build = k.build := rfl
      rw [hb]
      cases hreset : k.build.riceReset
      · rfl
      · exact hr hreset
    have hstep : k.residual.c1From (last / 16) i = if k.residual.nonzero i ≠ [] then
        (k.residual.flagged i).any (fun a => decide (1 < a)) else k.residual.c1From (last / 16) (i + 1) := by
      unfold Residual.c1From
      rw [find_range_ge _ (by omega)]
      by_cases hz : k.residual.nonzero i = [] <;> simp [hz]
    have hstepR : k.residual.riceFrom (last / 16) i = riceFrom k.build.riceMax (k.residual.riceFrom (last / 16) (i + 1))
        ((k.residual.levels i).map Prod.fst) := by
      unfold Residual.riceFrom
      rw [filter_range_ge (by omega)]
      simp [Residual.riceAfter, riceFrom, List.flatMap_append, Block.residual]
    rw [List.range_succ, List.reverse_append, List.reverse_singleton, List.singleton_append, List.flatMap_cons]
    unfold Block.subBlocks at hb
    simp only [h.subBlockFlags (by omega : i ≤ last / 16) hl, List.map_eq_nil_iff] at hb
    split at hb
    · rename_i hz
      split at hb
      · cases hb
      · rename_i rest hrest
        cases hb
        rw [ih (by omega) (by rw [hstep, if_neg (by simp [hz])]; exact hc) ?_ hrest, if_pos hz, List.append_nil]
        intro hp
        rw [hstepR, show k.residual.levels i = [] by simp [Residual.levels, Residual.magnitudes, hz]]
        simpa [riceAtSubBlock, hp, riceFrom] using hr hp
    · rename_i hz
      split at hb
      · cases hb
      · rename_i l hlv
        split at hb
        · cases hb
        · rename_i rest hrest
          cases hb
          have := h.codeLevels hz (k.ctxSet_eq hc) hrice hlv
          subst this
          rw [ih (by omega) (by rw [hstep, if_pos hz]; exact c1After_eq_zero) ?_ hrest, if_neg hz]
          intro hp
          rw [hstepR, ← hr hp]
          simp [riceAtSubBlock, hp]

end Sys2Proof.Machine
end

