-- ==== Sys2Proof/Tests/Slice0.lean ====
section
/-! SUPPORT. Tests and witnesses. The expected results are those of the spec: 95_test_vectors.md and the examples of the
rules, as each comment says. A theorem `witness_X` shows a concrete state and operands that meet the hypotheses of the
statement X, at the boundary values of its clauses. -/

namespace Sys2Proof.Tests

open Sys2Proof Sys2Proof.Machine

/-! ### Small states and readings -/

/-- The build of the test vectors: every INIT_VALUE 154 (95_test_vectors.md §1). -/
def vectorBuild : Build := Build.ofInitValue fun _ _ => 154

/-- Right after hardware reset: no valid bank. -/
def blank : State := State.resetOf vectorBuild

/-- The start state S0 of 95_test_vectors.md §1, without its START: every context (0, 1). -/
def live : State := { blank with ctx := List.replicate 166 ⟨0, true⟩, bankValid := true }

/-- S0 with slot 1 stored. -/
def stored : State := live.setSlot 1 live.ctx

/-- S0 after a fault of SPLIT_FLAG. -/
def faulty : State := live.takeFault 0x20 .badCombination

/-- S0 with another CONFIG. -/
def configured (c : ConfigReg) : State := { live with config := c }

/-- A build whose bank does not fit. -/
def narrow : Build := { vectorBuild with maxNumCtx := 165 }

/-- A build of NUM_CTX = 200: 34 contexts above those of the groups. -/
def wide : Build := { Build.ofInitValue (fun _ _ => 154) with numCtx := 200 }

/-- `s` with the word `w` at its port. -/
def port (s : State) (w : CmdWord) : State := { s with pending := [.command w] }

/-- The next state, if there is one. -/
def after : Out → Option State
  | .next t => some t
  | .fault _ => none
  | .refused _ => none

/-- An event as the bin it carries. -/
def binOfEvent : BinEvent → Option Bin
  | .reg b j _ _ => some (.reg j.toNat b)
  | .ep b => some (.ep b)
  | .trm b => some (.trm b)
  | .start | .finish | .copyTo _ | .copyFrom _ => none

/-- What a command emits, from a stream that is empty; nothing if it faults. -/
def emits (i : Instr) (s : State) : Option (List BinEvent) :=
  (after (exec i s)).bind fun t => if t.faulted then none else some t.bin

/-- The bins a command codes. -/
def codes (i : Instr) (s : State) : Option (List Bin) := (emits i s).map fun es => es.filterMap binOfEvent

/-- FAULT.CAUSE after a command that leaves the block faulted. -/
def faults (i : Instr) (s : State) : Option Cause :=
  (after (exec i s)).bind fun t => if t.faulted then some t.fault.cause else none

/-- A register read after a command. -/
def reads (i : Instr) (s : State) (a : BitVec 12) : Option Nat := (after (exec i s)).map fun t => (t.regRead a).toNat

theorem live_takes : live.takes := ⟨by decide, by decide⟩

theorem live_ready : live.ready := ⟨live_takes, by decide⟩

theorem blank_takes : blank.takes := ⟨by decide, by decide⟩

theorem stored_takes : stored.takes := ⟨by decide, by decide⟩

theorem configured_ready (c : ConfigReg) : (configured c).ready := ⟨⟨rfl, live_takes.2⟩, rfl⟩

/-! ### Well-formedness: an ill-formed term for each check -/

theorem test_wf_refuses_contextBank :
    (Instr.resetEntropy 4 0 false).wf = false ∧ (Instr.resetEntropy 0 128 false).wf = false ∧
    (Instr.resetEntropy 0 (-129) false).wf = false ∧ (Instr.determineInitIndex 4 0).wf = false ∧
    (Instr.determineInitIndex 0 128).wf = false ∧ (Instr.updateContextTables 4 0 false false).wf = false ∧
    (Instr.updateContextTables 0 (-129) false false).wf = false ∧
    (Instr.setConfig false false false false 64 2).wf = false ∧
    (Instr.setConfig false false false false 0 8).wf = false := by decide

theorem test_wf_refuses_snapshots :
    (Instr.store 256).wf = false ∧ (Instr.load 256).wf = false ∧ (Instr.loadPartial 256 0).wf = false ∧
    (Instr.loadPartial 0 32).wf = false ∧ (Instr.snapWrite 256 0 0 false).wf = false ∧
    (Instr.snapWrite 0 512 0 false).wf = false ∧ (Instr.snapWrite 0 0 64 false).wf = false := by decide

theorem test_wf_refuses_syntaxElements :
    (Instr.splitFlag false false false false 8 0 0).wf = false ∧
    (Instr.splitFlag false false false false 0 8 0).wf = false ∧
    (Instr.splitFlag false false false false 0 0 8).wf = false ∧ (Instr.mergeIdx 8 1).wf = false ∧
    (Instr.mergeIdx 0 8).wf = false ∧ (Instr.partSize 8 false false 3 false).wf = false ∧
    (Instr.partSize 0 false false 8 false).wf = false ∧ (Instr.intraDirLuma 64 0 1 2).wf = false ∧
    (Instr.intraDirLuma 0 64 1 2).wf = false ∧ (Instr.intraDirLuma 0 0 64 2).wf = false ∧
    (Instr.intraDirLuma 0 0 1 64).wf = false ∧ (Instr.intraDirChroma 8).wf = false ∧
    (Instr.interDir 4 0 false).wf = false ∧ (Instr.interDir 0 4 false).wf = false ∧ (Instr.refIdx 16 1).wf = false ∧
    (Instr.refIdx 0 32).wf = false ∧ (Instr.mvd 32768 0).wf = false ∧ (Instr.mvd 0 (-32769)).wf = false ∧
    (Instr.deltaQp 128).wf = false ∧ (Instr.qtCbf false false 8).wf = false ∧
    (Instr.transSubdiv false 4).wf = false ∧ (Instr.alfUvlc 256).wf = false ∧ (Instr.alfSvlc 256).wf = false ∧
    (Instr.saoUvlc 256).wf = false ∧ (Instr.saoSvlc (-257)).wf = false := by decide

theorem test_wf_refuses_residual :
    (Instr.coefWrite 1024 0).wf = false ∧ (Instr.coefWrite 0 32768).wf = false ∧
    (Instr.codeCoeff 8 false 0 false).wf = false ∧ (Instr.codeCoeff 2 false 4 false).wf = false ∧
    (Instr.estRates 8 false).wf = false := by decide

/-! ### Decoding: a word of every command, from 95_test_vectors.md §3 and the examples of the rules -/

theorem test_decode_contextBank :
    decode 0x0100000000012001 = .ok (.resetEntropy 1 32 true) ∧
    decode 0x0200000000001A02 = .ok (.determineInitIndex 2 26) ∧
    decode 0x0300000000021A00 = .ok (.updateContextTables 0 26 false true) ∧
    decode 0x0400000000000000 = .ok .endSegment ∧
    decode 0x0800000000050003 = .ok (.setConfig true true false false 0 5) := by decide

theorem test_decode_snapshots :
    decode 0x100000000000000F = .ok (.store 15) ∧ decode 0x1100000000000002 = .ok (.load 2) ∧
    decode 0x1200000000000601 = .ok (.loadPartial 1 6) ∧
    decode 0x13000105000D0000 = .ok (.snapWrite 0 13 5 true) := by decide

theorem test_decode_codingTree :
    decode 0x20000000000005AD = .ok (.splitFlag true false true true 2 3 1) ∧
    decode 0x210000000000000D = .ok (.skipFlag true false true true false) ∧
    decode 0x2200000000000001 = .ok (.mergeFlag true) ∧ decode 0x2300000000000053 = .ok (.mergeIdx 3 5) ∧
    decode 0x2400000000000172 = .ok (.partSize 2 false true 3 true) ∧
    decode 0x2500000000000001 = .ok (.predMode true) := by decide

theorem test_decode_prediction :
    decode 0x26000000010A1A22 = .ok (.intraDirLuma 34 26 10 1) ∧ decode 0x2700000000000005 = .ok (.intraDirChroma 5) ∧
    decode 0x2800000000000009 = .ok (.interDir 1 2 false) ∧ decode 0x2900000000000043 = .ok (.refIdx 3 4) ∧
    decode 0x2A000000FFFD0001 = .ok (.mvd 1 (-3)) ∧ decode 0x2B000000000000FF = .ok (.deltaQp (-1)) := by decide

theorem test_decode_transformTree :
    decode 0x2C0000000000000B = .ok (.qtCbf true true 2) ∧ decode 0x2D00000000000001 = .ok (.qtRootCbf true) ∧
    decode 0x2E00000000000004 = .ok (.transSubdiv false 2) ∧ decode 0x2F00000000000001 = .ok (.termBin true) := by decide

theorem test_decode_filters :
    decode 0x3000000000000001 = .ok (.alfFlag true) ∧ decode 0x3100000000000003 = .ok (.alfUvlc 3) ∧
    decode 0x32000000000001FE = .ok (.alfSvlc (-2)) ∧ decode 0x3300000000000001 = .ok (.saoFlag true) ∧
    decode 0x34000000000000FF = .ok (.saoUvlc 255) ∧ decode 0x3500000000000100 = .ok (.saoSvlc (-256)) := by decide

theorem test_decode_residual :
    decode 0x40000000FFFD0004 = .ok (.coefWrite 4 (-3)) ∧ decode 0x410000000000000A = .ok (.codeCoeff 2 true 0 false) ∧
    decode 0x4100000000000042 = .ok (.codeCoeff 2 false 0 true) ∧
    decode 0x500000000000000C = .ok (.estRates 4 true) := by decide

/-- 20_memory.md R78: byte 0 of a byte transport is bits 7:0; 30_encoding.md R90: one command is eight bytes. -/
theorem test_decode_bytes :
    decodeBytes [0x04, 0x00, 0xFD, 0xFF, 0x00, 0x00, 0x00, 0x40, 0x99] = .ok (.coefWrite 4 (-3), [0x99]) ∧
    decodeBytes [0x04, 0x00, 0xFD] = .error .truncated ∧
    decodeTableWord 64 0x40000000FFFD0004 = some (.coefWrite 4 (-3)) ∧ decodeTableWord 64 0 = none := by decide

/-- 30_encoding.md R97, R98: the worked examples of the text syntax. -/
theorem test_assemble :
    assemble "RESET_ENTROPY ST=P, QP=32, REC=1" = some 0x0100000000012001 ∧
    assemble "SPLIT_FLAG V=1, AVL=1, DL=2, DC=1" = some 0x2000000000000425 ∧
    assemble "COEF_WRITE IDX=4, VAL=-3" = some 0x40000000FFFD0004 ∧
    (coefBlock 1 [5, 0, 3, 0]).map encode =
      [0x4000000000050000, 0x4000000000000001, 0x4000000000030002, 0x4000000000000003] := by decide

/-! ### Helper codes and functions: 95_test_vectors.md §2.1, §2.2, §3.1, §3.3 -/

theorem test_binTU :
    binTU 0 0 = [] ∧ binTU 0 1 = [false] ∧ binTU 1 1 = [true] ∧ binTU 2 4 = [true, true, false] ∧
    binTU 4 4 = [true, true, true, true] ∧ binU 3 = [true, true, true, false] ∧
    binFL 5 3 = [true, false, true] ∧ binFL 2 5 = [false, false, false, true, false] := by decide

theorem test_binEGk :
    binEGk 3 0 = [true, true, false, false, false] ∧ binEGk 6 0 = [true, true, false, true, true] ∧
    binEGk 5 1 = [true, false, true, true] ∧ binEGk 13 1 = [true, true, false, true, true, true] ∧
    binEGk 100 3 = [true, true, true, false, true, false, true, true, false, false] ∧
    invEGk [true, true, true, false, true, false, true, true, false, false] 3 = 100 := by decide

theorem test_binGR :
    grBins 2 0 = [true, true, false] ∧ grBins 3 0 = [true, true, true, false] ∧
    grBins 7 0 = [true, true, true, true, true, false, false, true] ∧ grBins 5 1 = [true, true, false, true] ∧
    grBins 16 2 = [true, true, true, true, false, false, false, false] ∧
    grBins 100 4 = [true, true, true, true, true, false, false, false, false, true, false, false] ∧
    invGR [true, true, true, true, true, false, false, true] 0 = 7 := by decide

theorem test_initState :
    initState 154 26 = ⟨0, true⟩ ∧ initState 139 0 = ⟨8, true⟩ ∧ initState 139 26 = ⟨0, false⟩ ∧
    initState 110 26 = ⟨7, true⟩ ∧ initState 0 51 = ⟨62, false⟩ ∧ initState 255 51 = ⟨62, true⟩ ∧
    initState 63 26 = ⟨8, false⟩ ∧ initState 139 255 = ⟨7, false⟩ := by decide

theorem test_regBin :
    Ctx.update ⟨0, true⟩ true = ⟨1, true⟩ ∧ Ctx.update ⟨0, true⟩ false = ⟨0, false⟩ ∧
    Ctx.update ⟨1, true⟩ false = ⟨0, true⟩ ∧ Ctx.update ⟨5, false⟩ true = ⟨4, false⟩ ∧
    Ctx.update ⟨20, true⟩ false = ⟨16, true⟩ ∧ Ctx.update ⟨61, false⟩ false = ⟨62, false⟩ ∧
    Ctx.update ⟨62, true⟩ true = ⟨62, true⟩ ∧ Ctx.update ⟨62, true⟩ false = ⟨38, true⟩ := by decide

theorem test_entropyBits :
    entropyBits vectorBuild ⟨0, true⟩ false = 32768 ∧ entropyBits vectorBuild ⟨3, true⟩ false = 40159 ∧
    entropyBits vectorBuild ⟨3, true⟩ true = 26377 ∧ entropyBits vectorBuild ⟨10, false⟩ true = 57406 ∧
    entropyBits vectorBuild ⟨62, false⟩ false = 943 ∧ entropyBits vectorBuild ⟨62, false⟩ true = 185525 := by
  decide

/-! ### Reset and the ports: 95_test_vectors.md §2.3, §3.8 -/

theorem test_reset_registers :
    (blank.regRead 0x000).toNat = 0 ∧ (blank.regRead 0x001).toNat = 0 ∧ (blank.regRead 0x002).toNat = 0x00050000 ∧
    (blank.regRead 0x008).toNat = 0 ∧ (blank.regRead 0x1A6).toNat = 0 ∧ (blank.regRead 0x2C2).toNat = 0 ∧
    (blank.regRead 0xFFF).toNat = 0 := by decide

/-- A build with MAX_NUM_CTX < 166 comes out faulted and rejects a RESET_ENTROPY. -/
theorem test_capacity :
    ((State.resetOf narrow).regRead 0x000).toNat = 6 ∧ ((State.resetOf narrow).regRead 0x001).toNat = 0xB ∧
    reads (.resetEntropy 0 26 false) (State.resetOf narrow) 0x000 = some 6 ∧
    reads (.resetEntropy 0 26 false) (State.resetOf narrow) 0x007 = some 1 := by decide

/-- 20_memory.md R75: the record of a REG event and of a COPY_FROM. -/
theorem test_records :
    (BinEvent.reg true 13 5 false).record.toNat = 2 + 2 ^ 4 + 13 * 2 ^ 5 + 5 * 2 ^ 14 ∧
    (BinEvent.copyFrom 3).record.toNat = 6 + 3 * 2 ^ 4 ∧ BinEvent.start.record.toNat = 0 := by decide

/-- 20_memory.md R78: byte 0 of a 32-bit word is bits 7:0, of an event record and of a REG read alike. -/
theorem test_register_bytes :
    (BinEvent.copyFrom 3).recordBytes = [0x36, 0, 0, 0] ∧ blank.regReadBytes 0x002 = [0x00, 0x00, 0x05, 0x00] ∧
    regWordOfBytes 0x00 0x00 0x05 0x00 = 0x00050000 := by decide

/-- 00_scope.md R6: NUM_CTX is a parameter; a context above the groups is initialised, and read at its address. -/
theorem test_numCtx :
    reads (.resetEntropy 0 26 false) (State.resetOf { wide with initValue := List.replicate 3 (List.replicate 200 154) })
      0x1C7 = some 0x40 ∧
    reads (.resetEntropy 0 26 false) (State.resetOf wide) 0x1C8 = some 0 ∧
    ((State.resetOf { wide with maxNumCtx := 199 }).regRead 0x001).toNat = 0xB := by decide

/-! ### Faults: 95_test_vectors.md §3.7 -/

/-- Words that are no command, in order: opcode first, then reserved bits. -/
theorem test_step_faults :
    (after (step (port live 0))).map (fun t => (t.regRead 0x001).toNat) = some 0x0001 ∧
    (after (step (port live 0x00000000000000FF))).map (fun t => (t.regRead 0x001).toNat) = some 0x0001 ∧
    (after (step (port blank 0xFF0000000000FFFF))).map (fun t => (t.regRead 0x001).toNat) = some 0xFF01 ∧
    (after (step (port live 0x2500000000000003))).map (fun t => (t.regRead 0x001).toNat) = some 0x2502 ∧
    (after (step (port blank 0x1000000000000100))).map (fun t => (t.regRead 0x001).toNat) = some 0x1002 ∧
    (after (step (port live 0x0100000000100003))).map (fun t => (t.regRead 0x001).toNat) = some 0x0102 ∧
    (after (step (port live 0x2500000000000003))).map (fun t => (t.regRead 0x000).toNat) = some 7 := by decide

/-- A faulted block rejects; a RESET_ENTROPY that faults keeps FAULT; one that commits recovers and keeps it. -/
theorem test_faulted_block :
    reads (.predMode true) faulty 0x001 = some 0x2005 ∧ reads (.predMode true) faulty 0x10C = some 0x40 ∧
    reads (.predMode true) faulty 0x007 = some 1 ∧ reads (.resetEntropy 3 26 false) faulty 0x001 = some 0x2005 ∧
    reads (.resetEntropy 0 26 false) faulty 0x001 = some 0x2005 ∧
    reads (.resetEntropy 0 26 false) faulty 0x000 = some 5 := by decide

/-! ### The context bank: 95_test_vectors.md §3.2, §3.8 -/

theorem test_resetEntropy :
    emits (.resetEntropy 0 26 false) blank = some [.start] ∧ reads (.resetEntropy 0 26 false) blank 0x000 = some 1 ∧
    reads (.resetEntropy 0 26 false) blank 0x003 = some 0x1A00 ∧
    reads (.resetEntropy 0 26 false) blank 0x1A5 = some 0x40 ∧ faults (.resetEntropy 3 26 false) blank = some .badSliceType := by
  decide

/-- The build of the DETERMINE_INIT_INDEX vectors: INIT_VALUE[1] = 110, the others 154. -/
def twoTables : State :=
  { live with build := Build.ofInitValue fun t _ => if t = 1 then 110 else 154, ctx := List.replicate 166 ⟨7, true⟩ }

theorem test_determineInitIndex :
    (after (exec (.determineInitIndex 2 26) twoTables)).map (fun t =>
      ((t.regRead 0x004).toNat, t.initCostP.toNat, t.initCostB.toNat, t.bin)) = some (0x101, 5066818, 5439488, []) ∧
    reads (.determineInitIndex 0 26) twoTables 0x004 = some 0x100 ∧
    faults (.determineInitIndex 1 26) blank = some .notInitialised := by
  decide +kernel

/-- REC = 1 uses the recorded table: P slice, recorded table 0. -/
theorem test_resetEntropy_recorded :
    reads (.resetEntropy 1 26 true) { twoTables with initChoiceValid := true } 0x100 = some 0x40 ∧
    reads (.resetEntropy 1 26 false) { twoTables with initChoiceValid := true } 0x100 = some 0x47 ∧
    reads (.resetEntropy 1 26 true) twoTables 0x100 = some 0x47 := by decide

theorem test_updateContextTables :
    emits (.updateContextTables 2 30 false true) live = some [.trm true, .finish, .start] ∧
    emits (.updateContextTables 0 30 false false) live = some [.trm true, .start] ∧
    reads (.updateContextTables 2 30 false true) live 0x003 = some 0x21E02 ∧
    faults (.updateContextTables 3 26 false false) live = some .badSliceType := by decide

theorem test_endSegment :
    emits .endSegment live = some [.trm true, .finish] ∧ reads .endSegment live 0x000 = some 1 ∧
    faults .endSegment blank = some .notInitialised := by decide

theorem test_setConfig :
    reads (.setConfig true true false false 0 5) blank 0x002 = some 0x50003 ∧
    reads (.setConfig true true false false 0 5) blank 0x000 = some 0 ∧
    faults (.setConfig false false false false 49 5) live = some .valueRange ∧
    faults (.setConfig false false false false 0 1) live = some .valueRange ∧
    faults (.setConfig false false false false 0 6) live = some .valueRange := by decide

/-! ### Snapshots: 95_test_vectors.md §3.2 -/

theorem test_store :
    emits (.store 15) live = some [.copyTo 15] ∧ reads (.store 15) live 0x008 = some 0x8000 ∧
    faults (.store 16) live = some .badSlot ∧ faults (.store 16) blank = some .notInitialised := by decide

/-- A stored slot with context 13 in state (5, 0), the live bank with contexts 0 and 13 moved. -/
def twoBanks : State := { live with ctx := (live.ctx.set 0 ⟨1, true⟩).set 13 ⟨2, true⟩ }.setSlot 1 (live.ctx.set 13 ⟨5, false⟩)

theorem test_load :
    emits (.load 1) twoBanks = some [.copyFrom 1] ∧ reads (.load 1) twoBanks 0x100 = some 0x40 ∧
    reads (.load 1) twoBanks 0x10D = some 5 ∧ faults (.load 3) twoBanks = some .badSlot := by decide

theorem test_loadPartial :
    emits (.loadPartial 1 6) twoBanks = some [.copyFrom 1] ∧ reads (.loadPartial 1 6) twoBanks 0x100 = some 0x41 ∧
    reads (.loadPartial 1 6) twoBanks 0x10D = some 5 ∧ faults (.loadPartial 1 27) twoBanks = some .badSlot := by
  decide

theorem test_snapWrite :
    (after (exec (.snapWrite 1 13 7 true) twoBanks)).map (fun t => (t.snap.getD 1 ⟨false, []⟩).ctx.getD 13 ⟨0, true⟩) =
      some ⟨7, true⟩ ∧
    reads (.snapWrite 1 13 7 true) twoBanks 0x10D = some 0x42 ∧
    faults (.snapWrite 1 166 0 false) twoBanks = some .valueRange ∧
    faults (.snapWrite 1 0 63 false) twoBanks = some .valueRange ∧
    faults (.snapWrite 2 0 0 false) twoBanks = some .badSlot := by decide

/-- The event names of 95_test_vectors.md §1: `R<i>:<b>` and `E:<b>`. -/
def r (i b : Nat) : Bin := .reg i (b == 1)

def e (b : Nat) : Bin := .ep (b == 1)

/-! ### Syntax elements: 95_test_vectors.md §3.4 -/

theorem test_splitFlag :
    codes (.splitFlag true false true true 2 3 1) live = some [r 2 1] ∧
    codes (.splitFlag true false false true 3 1 1) live = some [r 0 1] ∧
    codes (.splitFlag false true false false 0 0 0) live = some [] ∧
    faults (.splitFlag true true false false 0 0 0) live = some .badCombination := by decide

theorem test_skipFlag :
    codes (.skipFlag true true true true true) live = some [r 5 1] ∧
    codes (.skipFlag true false true true false) live = some [r 3 1] := by decide

theorem test_singleContext :
    codes (.mergeFlag true) live = some [r 6 1] ∧ codes (.predMode false) live = some [r 12 0] ∧
    codes (.qtRootCbf true) live = some [r 38 1] ∧ codes (.alfFlag true) live = some [r 154 1] ∧
    codes (.saoFlag false) live = some [r 160 0] ∧ codes (.termBin true) live = some [.trm true] := by decide

/-- The state a REG event carries and the state it leaves. -/
theorem test_predMode :
    emits (.predMode true) live = some [.reg true 12 0 true] ∧ reads (.predMode true) live 0x10C = some 0x41 ∧
    reads (.predMode false) live 0x10C = some 0 := by decide

theorem test_mergeIdx :
    codes (.mergeIdx 0 1) live = some [] ∧ codes (.mergeIdx 0 5) live = some [r 7 0] ∧
    codes (.mergeIdx 3 5) live = some [r 7 1, e 1, e 1, e 0] ∧
    codes (.mergeIdx 2 3) live = some [r 7 1, e 1] ∧ faults (.mergeIdx 5 5) live = some .badCombination ∧
    faults (.mergeIdx 0 0) live = some .valueRange ∧ faults (.mergeIdx 0 6) live = some .valueRange := by decide

theorem test_partSize :
    codes (.partSize 3 true true 3 false) live = some [r 8 0] ∧
    codes (.partSize 0 true false 4 false) live = some [] ∧
    codes (.partSize 2 false true 3 false) live = some [r 8 0, r 9 0, r 10 1] ∧
    codes (.partSize 3 false true 3 false) live = some [r 8 0, r 9 0, r 10 0] ∧
    faults (.partSize 1 true true 3 false) live = some .badCombination ∧
    faults (.partSize 4 false false 4 true) live = some .badCombination ∧
    faults (.partSize 2 false false 2 false) live = some .valueRange := by decide

theorem test_partSize_config :
    codes (.partSize 1 false false 4 true) (configured ⟨false, true, false, false, 0, 5⟩) =
      some [r 8 0, r 9 1, r 11 1] ∧
    codes (.partSize 7 false false 4 true) (configured ⟨false, true, false, false, 0, 5⟩) =
      some [r 8 0, r 9 0, r 11 0, e 1] ∧
    faults (.partSize 4 false true 3 true) (configured ⟨false, true, false, false, 0, 5⟩) = some .badCombination ∧
    codes (.partSize 2 false true 3 false) (configured ⟨false, false, false, true, 0, 5⟩) =
      some [r 8 0, r 9 0] ∧
    faults (.partSize 3 false true 3 false) (configured ⟨false, false, false, true, 0, 5⟩) = some .badCombination := by
  decide

theorem test_intraDirLuma :
    codes (.intraDirLuma 10 26 10 1) live = some [r 13 1, e 1, e 0] ∧
    codes (.intraDirLuma 1 26 10 1) live = some [r 13 1, e 1, e 1] ∧
    codes (.intraDirLuma 2 26 10 1) live = some (r 13 0 :: [e 0, e 0, e 0, e 0, e 1]) ∧
    codes (.intraDirLuma 34 0 1 26) live = some (r 13 0 :: List.replicate 5 (e 1)) ∧
    faults (.intraDirLuma 35 0 1 26) live = some .valueRange ∧
    faults (.intraDirLuma 3 1 1 26) live = some .badCombination := by decide

theorem test_intraDirChroma :
    codes (.intraDirChroma 3) live = some [r 14 1, e 1, e 1] ∧
    faults (.intraDirChroma 5) live = some .badCombination ∧ faults (.intraDirChroma 6) live = some .valueRange ∧
    codes (.intraDirChroma 5) (configured ⟨false, false, true, false, 0, 5⟩) = some [r 14 1, r 15 0] ∧
    codes (.intraDirChroma 2) (configured ⟨false, false, true, false, 0, 5⟩) =
      some [r 14 1, r 15 1, e 1, e 0] := by decide

theorem test_interDir :
    codes (.interDir 1 2 false) live = some [r 18 0, r 20 1] ∧
    codes (.interDir 2 3 false) live = some [r 19 1] ∧ codes (.interDir 1 0 true) live = some [r 20 1] ∧
    faults (.interDir 2 0 true) live = some .badCombination ∧ faults (.interDir 3 0 false) live = some .valueRange := by
  decide

theorem test_refIdx :
    codes (.refIdx 0 1) live = some [] ∧
    codes (.refIdx 2 4) live = some [r 21 1, r 22 1, e 0] ∧
    codes (.refIdx 15 16) live = some ([r 21 1, r 22 1] ++ List.replicate 13 (e 1)) ∧
    faults (.refIdx 2 2) live = some .badCombination ∧ faults (.refIdx 0 17) live = some .valueRange := by decide

theorem test_mvd :
    codes (.mvd 1 (-3)) live = some [r 23 1, r 23 1, r 24 0, r 24 1, e 0, e 0,
      e 1, e 1] ∧
    codes (.mvd 5 0) live = some [r 23 1, r 23 0, r 24 1, e 1, e 0, e 0, e 1,
      e 0] ∧
    codes (.mvd (-32768) 0) live = some ([r 23 1, r 23 0, r 24 1] ++ List.replicate 14 (e 1)
      ++ List.replicate 16 (e 0) ++ [e 1]) := by decide

theorem test_deltaQp :
    codes (.deltaQp 0) live = some [r 25 0] ∧
    codes (.deltaQp 4) live = some [r 25 1, r 26 1, r 26 1, r 26 1, r 26 0, e 0] ∧
    codes (.deltaQp 7) live = some ([r 25 1] ++ List.replicate 4 (r 26 1)
      ++ [e 1, e 0, e 1, e 0]) ∧
    codes (.deltaQp 26) live = some ([r 25 1] ++ List.replicate 4 (r 26 1)
      ++ [e 1, e 1, e 1, e 1, e 0, e 0, e 1, e 1, e 0, e 1]) := by
  decide

/-- QP_BD_OFFSET_Y = 12: the range is -32..31. -/
theorem test_deltaQp_offset :
    codes (.deltaQp 31) (configured ⟨false, false, false, false, 12, 5⟩) = some ([r 25 1]
      ++ List.replicate 4 (r 26 1)
      ++ [e 1, e 1, e 1, e 1, e 0, e 1, e 0, e 1, e 1, e 0]) ∧
    codes (.deltaQp 32) (configured ⟨false, false, false, false, 12, 5⟩) = some ([r 25 1]
      ++ List.replicate 4 (r 26 1)
      ++ [e 1, e 1, e 1, e 1, e 0, e 1, e 1, e 0, e 0, e 1]) := by
  decide

theorem test_transformTree :
    codes (.qtCbf false false 4) live = some [r 32 0] ∧ codes (.qtCbf true true 2) live = some [r 35 1] ∧
    faults (.qtCbf true false 5) live = some .valueRange ∧ codes (.transSubdiv false 2) live = some [r 41 0] ∧
    faults (.transSubdiv true 3) live = some .valueRange := by decide

theorem test_uvlc :
    codes (.alfUvlc 0) live = some [r 155 0] ∧
    codes (.alfUvlc 3) live = some [r 155 1, r 156 1, r 156 1, r 156 0] ∧
    codes (.saoUvlc 2) live = some [r 161 1, r 162 1, r 162 0] ∧
    reads (.saoUvlc 1) { live with ctx := live.ctx.set 162 ⟨62, true⟩ } (0x100 + 162) = some (38 + 0x40) := by decide

theorem test_svlc :
    codes (.alfSvlc 1) live = some [r 157 1, r 158 0, r 159 0] ∧
    codes (.alfSvlc (-2)) live = some [r 157 1, r 158 1, r 159 1, r 159 0] ∧
    codes (.saoSvlc (-1)) live = some [r 163 1, r 164 1, r 165 0] ∧
    codes (.saoSvlc 3) live = some [r 163 1, r 164 0, r 165 1, r 165 1, r 165 0] ∧
    faults (.saoSvlc (-256)) live = some .valueRange := by decide

/-! ### Residual coding: 95_test_vectors.md §2.6, §2.7, §3.5 -/

/-- S0 with coefficients. -/
def holding (m : Memory) : State := { live with coef := m }

/-- The same with SBH_EN = 1. -/
def hides (m : Memory) : State := { configured ⟨true, false, false, false, 0, 5⟩ with coef := m }

theorem test_coefWrite :
    (after (exec (.coefWrite 1023 (-32768)) blank)).map (fun t => t.coef) = some [(1023, 0x8000)] ∧
    (after (exec (.coefWrite 4 0) (holding [(3, 1), (4, 5)]))).map (fun t => t.coef) = some [(3, 1)] ∧
    (after (exec (.coefWrite 4 (-3)) (holding [(3, 1), (5, 5)]))).map (fun t => t.coef) =
      some [(3, 1), (4, 0xFFFD), (5, 5)] := by decide

theorem test_codeCoeff_dc :
    codes (.codeCoeff 2 false 0 false) live = some [] ∧
    codes (.codeCoeff 2 false 0 false) (holding [(0, 4)]) = some [r 88 0, r 106 0, r 125 1,
      r 148 1, e 0, e 1, e 0] ∧
    codes (.codeCoeff 4 true 0 false) (holding [(0, 1)]) = some [r 103 0, r 121 0, r 141 0, e 0] ∧
    codes (.codeCoeff 2 false 0 false) (holding [(0, 0x8000)]) = some ([r 88 0, r 106 0, r 125 1,
      r 148 1] ++ List.replicate 18 (e 1) ++ [e 0] ++ List.replicate 11 (e 1)
      ++ [e 0, e 1, e 1]) ∧
    faults (.codeCoeff 5 true 0 false) live = some .badGeometry ∧ faults (.codeCoeff 1 false 3 false) live = some .badGeometry ∧
    faults (.codeCoeff 5 false 0 false) (configured ⟨false, false, false, false, 0, 4⟩) = some .badGeometry := by
  decide

/-- §3.5: c(3, 0) = 1 in the vertical scan; §2.6: a hidden sign that fits, one that does not, and the same with LL = 1. -/
theorem test_codeCoeff_scan_and_hiding :
    codes (.codeCoeff 2 false 2 false) (holding [(3, 1)]) = some [r 88 0, r 106 1, r 107 1, r 108 1,
      r 54 0, r 54 0, r 50 0, r 50 0, r 53 0, r 52 0, r 49 0, r 47 0,
      r 53 0, r 52 0, r 48 0, r 46 0, r 125 0, e 0] ∧
    codes (.codeCoeff 2 false 0 false) (hides [(0, 5), (5, 3)]) = some [r 88 1, r 89 0, r 106 1,
      r 107 0, r 52 0, r 47 0, r 48 0, r 46 1, r 125 1, r 124 1, r 148 1,
      e 0, e 0, e 1, e 1, e 1, e 0] ∧
    faults (.codeCoeff 2 false 0 false) (hides [(0, 0xFFFB), (5, 3)]) = some .sbhParity ∧
    codes (.codeCoeff 2 false 0 true) (hides [(0, 0xFFFB), (5, 3)]) = some [r 88 1, r 89 0, r 106 1,
      r 107 0, r 52 0, r 47 0, r 48 0, r 46 1, r 125 1, r 124 1, r 148 1,
      e 0, e 1, e 0, e 1, e 1, e 1, e 0] := by decide

/-! ### Rate estimator: 95_test_vectors.md §3.6 -/

/-- The bank of the example of 44_rate_estimator.md R312, with context 28 in state (3, 1). -/
def rated : State :=
  { live with ctx := ((live.ctx.set 88 ⟨1, true⟩).set 89 ⟨0, false⟩).set 28 ⟨3, true⟩ }

theorem test_estRates :
    reads (.estRates 2 false) rated 0x200 = some 40159 ∧ reads (.estRates 2 false) rated 0x201 = some 26377 ∧
    reads (.estRates 2 false) rated 0x2AE = some 35232 ∧ reads (.estRates 2 false) rated 0x2AF = some 63194 ∧
    reads (.estRates 2 false) rated 0x2B0 = some 95962 ∧ reads (.estRates 2 false) rated 0x2B1 = some 95962 ∧
    reads (.estRates 2 false) rated 0x2B2 = some 0 := by decide

theorem test_estRates_valid :
    reads (.estRates 2 false) live 0x000 = some 9 ∧ faults (.estRates 5 true) live = some .badGeometry ∧
    reads (.qtCbf true false 0) { live with estValid := true } 0x000 = some 1 ∧
    reads (.splitFlag false true false false 0 0 0) { live with estValid := true } 0x000 = some 9 ∧
    reads (.load 1) { stored with estValid := true } 0x000 = some 1 := by decide

/-! ### Witnesses: states and operands that meet the hypotheses of the statements -/

/-- The state after a command; every command answers one. -/
def result (i : Instr) (s : State) : State := (after (exec i s)).getD s

theorem exec_result (i : Instr) (s : State) : exec i s = .next (result i s) := by
  obtain ⟨t, h⟩ := exec_next i s
  simp [result, after, h]

/-- The state after a step. -/
def stepped (s : State) : State := (after (step s)).getD s

/-- A bank unlike that of S0: every context (62, 0). -/
def farBank : List Ctx := List.replicate 166 ⟨62, false⟩

theorem bankOk_replicate {x : Ctx} (h : x.inRange) : bankOk 166 (List.replicate 166 x) :=
  ⟨List.length_replicate, fun y hy => by rw [List.eq_of_mem_replicate hy]; exact h⟩

theorem live_bankOk : bankOk live.build.numCtx live.ctx := bankOk_replicate (by unfold Ctx.inRange; decide)

theorem blank_bankOk : bankOk blank.build.numCtx blank.ctx := bankOk_replicate (by unfold Ctx.inRange; decide)

theorem farBank_ok : bankOk live.build.numCtx farBank := bankOk_replicate (by unfold Ctx.inRange; decide)

theorem vectorBuild_legal : vectorBuild.legal = true := by decide +kernel

theorem blank_slots : ∀ sl ∈ blank.snap, bankOk blank.build.numCtx sl.ctx := fun sl h => by
  rw [List.eq_of_mem_replicate h]; exact blank_bankOk

theorem stored_slots : ∀ sl ∈ stored.snap, bankOk stored.build.numCtx sl.ctx := fun sl h => by
  rcases List.mem_or_eq_of_mem_set h with h | rfl
  exacts [blank_slots sl h, live_bankOk]

/-- S0 with slot 1 stored meets every invariant; so does S0. -/
theorem stored_inv : stored.Inv where
  build := vectorBuild_legal
  ctx := live_bankOk
  slots := by decide
  slotBanks := stored_slots
  slotsNeedBank := by decide
  coef := by decide
  config := by decide
  tables := by decide

theorem live_inv : live.Inv where
  build := vectorBuild_legal
  ctx := live_bankOk
  slots := by decide
  slotBanks := blank_slots
  slotsNeedBank := by decide
  coef := by decide
  config := by decide
  tables := by decide

theorem faulty_faultInv : faulty.FaultInv where
  sticky := by decide
  cause := by decide
  capacity := by decide
  capacityBuild := by decide

/-- S0 after EST_RATES. -/
def estimated : State := result (.estRates 2 false) live

theorem estimated_estInv : estimated.EstInv where
  fresh := fun _ => ⟨2, false, by decide, by decide⟩
  computed := by decide

theorem estimated_inv : estimated.Inv where
  build := vectorBuild_legal
  ctx := live_bankOk
  slots := by decide
  slotBanks := blank_slots
  slotsNeedBank := by decide
  coef := by decide
  config := by decide
  tables := by decide

theorem hides_ready (m : Memory) : (hides m).ready := ⟨⟨rfl, live_takes.2⟩, rfl⟩

theorem holding_ready (m : Memory) : (holding m).ready := ⟨⟨rfl, live_takes.2⟩, rfl⟩

/-! #### Encoding -/

theorem witness_DecodeOfEncode :
    (Instr.mvd 32767 (-32768)).wf = true ∧ (Instr.snapWrite 255 511 63 true).wf = true ∧ (Instr.saoSvlc (-256)).wf = true ∧
    Instr.endSegment.wf = true := by decide

theorem witness_EncodeOfDecode : decode 0x2A0000008000FFFF = .ok (.mvd (-1) (-32768)) := by decide

theorem witness_DecoderAcceptsExactly :
    decode 0x51FFFFFFFFFFFFFF = .error .illegalOpcode ∧ (0x51FFFFFFFFFFFFFF : CmdWord).toNat / 2 ^ 56 ∉ r93Opcodes ∧
    decode 0x4180000000000002 = .error .reservedBits ∧ (0x4180000000000002 : CmdWord).toNat / 2 ^ 56 ∈ r93Opcodes ∧
    (0x4180000000000002 : CmdWord).toNat.testBit 55 = true ∧ definedBit 0x41 55 = false ∧
    decode 0x410000000000007F = .ok (.codeCoeff 7 true 3 true) ∧ (∀ b < 7, definedBit 0x41 b = true) ∧
    (∀ b < 56, (0x410000000000007F : CmdWord).toNat.testBit b = true → definedBit 0x41 b = true) := by decide

theorem witness_WordsThatAreNoCommandFault :
    (port live 0).pending = [.command 0] ∧ (port live 0).fault.cause ≠ .capacity ∧ (port live 0).faulted = false ∧
    (0 : CmdWord).toNat / 2 ^ 56 ∉ r93Opcodes ∧
    (port faulty 0x0180000000000000).pending = [.command 0x0180000000000000] ∧ faulty.faulted = true ∧
    faulty.fault.cause ≠ .capacity ∧ (0x0180000000000000 : CmdWord).toNat / 2 ^ 56 = 0x01 ∧ 0x01 ∈ r93Opcodes ∧
    (0x0180000000000000 : CmdWord).toNat.testBit 55 = true ∧ definedBit 0x01 55 = false := by decide

/-! #### The machine -/

theorem witness_StepRunsTheDecodedCommand :
    (port live 0x2500000000000001).pending = [.command 0x2500000000000001] ∧
    decode 0x2500000000000001 = .ok (.predMode true) := by decide

theorem witness_EveryCommandCountsAndCompletes :
    (port { live with cmdcnt := 0xFFFFFFFF } 0).pending = [.command 0] ∧
    (stepped (port { live with cmdcnt := 0xFFFFFFFF } 0)).cmdcnt = 0 := by decide

theorem witness_FaultedBlockRejects :
    (port faulty 0x2500000000000001).pending = [.command 0x2500000000000001] ∧
    (port faulty 0x2500000000000001).faulted = true ∧ (0x2500000000000001 : CmdWord).toNat / 2 ^ 56 ≠ 0x01 ∧
    (State.resetOf narrow).fault.cause = .capacity := by decide

theorem witness_FaultsArePrecise :
    live.fault.cause ≠ .capacity ∧ live.faulted = false ∧
    exec (.mergeIdx 5 5) live = .next (result (.mergeIdx 5 5) live) ∧ (result (.mergeIdx 5 5) live).faulted = true ∧
    faulty.fault.cause ≠ .capacity ∧ faulty.faulted = true ∧ opcodeOf (.resetEntropy 3 26 false) = 0x01 ∧
    exec (.resetEntropy 3 26 false) faulty = .next (result (.resetEntropy 3 26 false) faulty) ∧
    (result (.resetEntropy 3 26 false) faulty).faulted = true :=
  ⟨by decide, by decide, exec_result _ _, by decide, by decide, by decide, by decide, exec_result _ _,
    by decide⟩

theorem witness_OnlyResetEntropyRecovers :
    exec (.resetEntropy 2 26 true) faulty = .next (result (.resetEntropy 2 26 true) faulty) ∧ faulty.faulted = true ∧
    (result (.resetEntropy 2 26 true) faulty).faulted = false := ⟨exec_result _ _, by decide, by decide⟩

theorem witness_ResetValues : vectorBuild.numCtx ≤ vectorBuild.maxNumCtx ∧ vectorBuild.maxLog2Tb = 5 := by decide

theorem witness_CapacityCheck :
    narrow.maxNumCtx < narrow.numCtx ∧ wide.numCtx ≤ { wide with maxNumCtx := 200 }.maxNumCtx := by decide

theorem witness_HardwareReset :
    { faulty with pending := [.hardwareReset] }.pending = [HostInput.hardwareReset] ∧
    (stepped { faulty with pending := [.hardwareReset] }).faulted = false := by decide

theorem witness_ChecksBeforeTheEffect :
    blank.fault.cause ≠ .capacity ∧ blank.faulted = false ∧ (Instr.determineInitIndex 3 0).sliceTypeIs3 = true ∧
    blank.bankValid = false ∧ (Instr.store 16).sliceTypeIs3 = false ∧ (Instr.store 16).needsNoBank = false ∧
    faulty.fault.cause ≠ .capacity ∧ faulty.faulted = true ∧ opcodeOf (.resetEntropy 3 26 false) = 0x01 ∧
    (Instr.resetEntropy 3 26 false).sliceTypeIs3 = true := by decide

/-- Every part that a command may write is written by one. -/
theorem witness_WritersOfTheState :
    (∀ i s, exec i s = .next (result i s)) ∧
    (result (.coefWrite 1023 1) live).coef ≠ live.coef ∧
    (result (.setConfig true true true true 48 2) live).config ≠ live.config ∧
    (result (.resetEntropy 1 30 false) live).slice ≠ live.slice ∧
    (result (.determineInitIndex 1 30) live).initChoiceValid ≠ live.initChoiceValid ∧
    (result (.store 0) live).snap ≠ live.snap ∧ (result (.estRates 2 false) live).est ≠ live.est ∧
    (result (.resetEntropy 0 26 false) blank).bankValid ≠ blank.bankValid ∧
    (result (.predMode true) live).ctx ≠ live.ctx ∧ (result (.mergeIdx 5 5) live).fault ≠ live.fault ∧
    (result (.mergeIdx 5 5) live).faultSticky ≠ live.faultSticky :=
  ⟨exec_result, by decide, by decide, by decide, by decide, by decide,
    by decide, by decide, by decide, by decide, by decide⟩

/-! #### The bank -/

theorem witness_BinCoding :
    [(⟨0, true⟩ : Ctx), ⟨62, false⟩][0]? = some ⟨0, true⟩ ∧ [(⟨0, true⟩ : Ctx), ⟨62, false⟩][1]? = some ⟨62, false⟩ ∧
    (⟨0, true⟩ : Ctx).inRange ∧ (⟨62, false⟩ : Ctx).inRange := by unfold Ctx.inRange; decide

theorem witness_ResetEntropyEffect : faulty.fault.cause ≠ .capacity ∧ (3 : Nat) ≤ 3 ∧ (2 : Nat) ≤ 2 := by decide

theorem witness_UpdateContextTablesEffect :
    blank.takes ∧ blank.bankValid = false ∧ live.takes ∧ live.bankValid = true ∧ (3 : Nat) ≤ 3 ∧ (2 : Nat) ≤ 2 :=
  ⟨blank_takes, by decide, live_takes, by decide, by decide, by decide⟩

theorem witness_EndSegmentAndTermBin : blank.takes ∧ blank.bankValid = false ∧ live.takes ∧ live.bankValid = true :=
  ⟨blank_takes, by decide, live_takes, by decide⟩

theorem witness_SetConfigEffect :
    blank.takes ∧ ((48 : Nat) ≤ 48 ∧ (2 : Nat) ≤ 2 ∧ (2 : Nat) ≤ 5) ∧ ((0 : Nat) ≤ 48 ∧ (2 : Nat) ≤ 5 ∧ (5 : Nat) ≤ 5) ∧
    (48 : Nat) < 49 ∧ (1 : Nat) < 2 ∧ (5 : Nat) < 6 := ⟨blank_takes, by decide⟩

theorem witness_DetermineInitIndexEffect :
    live.takes ∧ bankOk live.build.numCtx live.ctx ∧ live.build.initTie = .own ∧ live.bankValid = true ∧
    blank.takes ∧ bankOk blank.build.numCtx blank.ctx ∧ blank.build.initTie = .own ∧ blank.bankValid = false :=
  ⟨live_takes, live_bankOk, by decide, by decide, blank_takes, blank_bankOk, by decide,
    by decide⟩

theorem witness_StoreEffect :
    blank.takes ∧ blank.bankValid = false ∧ live.takes ∧ live.bankValid = true ∧ 15 < live.build.numSnapshots ∧
    live.build.numSnapshots ≤ 16 := ⟨blank_takes, by decide, live_takes, by decide, by decide, by decide⟩

theorem witness_LoadEffect :
    stored.takes ∧ 1 < stored.build.numSnapshots ∧ stored.snap[1]? = some ⟨true, live.ctx⟩ ∧
    stored.build.numSnapshots ≤ 16 ∧ (∀ sl, stored.snap[15]? = some sl → sl.valid = false) :=
  ⟨stored_takes, by decide, by decide +kernel, by decide, by intro sl h; cases h; rfl⟩

theorem witness_LoadPartialEffect :
    blank.takes ∧ 166 ≤ blank.build.numCtx ∧ bankOk blank.build.numCtx blank.ctx ∧ blank.bankValid = false ∧
    stored.takes ∧ 166 ≤ stored.build.numCtx ∧ bankOk stored.build.numCtx stored.ctx ∧ stored.bankValid = true ∧
    bankOk stored.build.numCtx live.ctx ∧ 1 < stored.build.numSnapshots ∧
    stored.snap[1]? = some ⟨true, live.ctx⟩ ∧ (26 : Nat) ≤ 26 ∧ (26 : Nat) < 27 ∧ stored.build.numSnapshots ≤ 16 :=
  ⟨blank_takes, by decide, blank_bankOk, by decide, stored_takes, by decide, live_bankOk, by decide, live_bankOk,
    by decide, rfl, by decide, by decide, by decide⟩

theorem witness_SnapWriteEffect :
    stored.takes ∧ 1 < stored.build.numSnapshots ∧ stored.snap[1]? = some ⟨true, live.ctx⟩ ∧
    (165 < stored.build.numCtx ∧ (62 : Nat) ≤ 62) ∧ stored.build.numCtx ≤ 166 ∧ (62 : Nat) < 63 ∧ stored.build.numSnapshots ≤ 16 :=
  ⟨stored_takes, by decide, rfl, by decide, by decide, by decide, by decide⟩

/-- The sequence holds commands of every kind; only those that read slot 15 are left out. -/
theorem witness_StoreThenLoadRestores :
    live.ready ∧ live.Inv ∧ 15 < live.build.numSnapshots ∧
    ∀ i ∈ [Instr.predMode false, .coefWrite 0 1, .codeCoeff 2 false 0 false, .setConfig true false false false 0 5,
        .determineInitIndex 1 26, .updateContextTables 1 26 true true, .store 15, .store 3, .load 3, .loadPartial 3 0,
        .snapWrite 3 0 0 false, .mergeIdx 5 5, .resetEntropy 2 26 true, .estRates 2 false, .endSegment],
      i.readsSlot ≠ some 15 :=
  ⟨live_ready, live_inv, by decide, by decide⟩

theorem witness_BankTravelsBetweenInstances :
    live.ready ∧ live.Inv ∧ bankOk live.build.numCtx farBank ∧ farBank ≠ live.ctx ∧ 15 < live.build.numSnapshots :=
  ⟨live_ready, live_inv, farBank_ok, by decide, by decide⟩

/-! #### Syntax elements: `ready`, and the bounds of the clauses -/

theorem witness_SingleContextFlags : live.ready := live_ready

theorem witness_NeighbourCountFlags : live.ready := live_ready

theorem witness_TransformTreeFlags :
    live.ready ∧ (4 : Nat) ≤ 4 ∧ (4 : Nat) < 5 ∧ (2 : Nat) ≤ 2 ∧ (2 : Nat) < 3 := ⟨live_ready, by decide⟩

theorem witness_TruncatedUnaryIndexes :
    live.ready ∧ (0 : Nat) < 1 ∧ (5 : Nat) < 6 ∧ ((1 : Nat) ≤ 5 ∧ (5 : Nat) ≤ 5) ∧ ((1 : Nat) ≤ 1 ∧ (0 : Nat) < 1) ∧
    ((1 : Nat) ≤ 5 ∧ (4 : Nat) < 5) ∧ (16 : Nat) < 17 ∧ ((1 : Nat) ≤ 16 ∧ (16 : Nat) ≤ 16) ∧ ((1 : Nat) ≤ 16 ∧ (15 : Nat) < 16) :=
  ⟨live_ready, by decide⟩

theorem witness_PartSizeFollowsTheTable :
    live.ready ∧ (7 : Nat) < 8 ∧ (2 : Nat) < 3 ∧ (6 : Nat) < 7 ∧ ((3 : Nat) ≤ 3 ∧ (6 : Nat) ≤ 6) ∧
    r205Bins false true false true 7 = none ∧ (r205Bins false false true false 7).isSome = true := ⟨live_ready, by decide⟩

theorem witness_IntraLumaModes :
    live.ready ∧ (34 : Nat) < 35 ∧ ((34 : Nat) ≤ 34 ∧ (0 : Nat) ≤ 34) ∧ (1 : Nat) = 1 ∧
    ((0 : Nat) ≠ 1 ∧ (0 : Nat) ≠ 34 ∧ (1 : Nat) ≠ 34) ∧ ((33 : Nat) ≠ 0 ∧ (33 : Nat) ≠ 1 ∧ (33 : Nat) ≠ 34) :=
  ⟨live_ready, by decide⟩

theorem witness_IntraChromaModes :
    live.ready ∧ (5 : Nat) < 6 ∧ live.config.lmEn = false ∧ (3 : Nat) < 4 ∧
    (configured ⟨false, false, true, false, 0, 5⟩).ready ∧
    (configured ⟨false, false, true, false, 0, 5⟩).config.lmEn = true :=
  ⟨live_ready, by decide, by decide, by decide, configured_ready _, rfl⟩

theorem witness_InterDirections : live.ready ∧ (3 : Nat) ≤ 3 := ⟨live_ready, by decide⟩

theorem witness_MvdBins : live.ready := live_ready

/-- 26 and -26 wrap to one value: both are coded as -26. -/
theorem witness_SyntaxValuesAreRecoverable :
    (Instr.deltaQp 26).wf = true ∧ (Instr.deltaQp (-26)).wf = true ∧ live.ready ∧ (Instr.deltaQp 26).codesBins = true ∧
    opcodeOf (.deltaQp 26) ≠ 0x41 ∧ (Instr.deltaQp 26).withoutValue = (Instr.deltaQp (-26)).withoutValue ∧
    exec (.deltaQp 26) live = .next (result (.deltaQp 26) live) ∧
    exec (.deltaQp (-26)) live = .next (result (.deltaQp (-26)) live) ∧
    (result (.deltaQp 26) live).faulted = false ∧ (result (.deltaQp (-26)) live).faulted = false ∧
    (result (.deltaQp 26) live).bin = (result (.deltaQp (-26)) live).bin :=
  ⟨by decide, by decide, live_ready, by decide, by decide, by decide, exec_result _ _, exec_result _ _, by decide,
    by decide, by decide⟩

theorem witness_DeltaQpBins : (configured ⟨false, false, false, false, 48, 5⟩).ready := configured_ready _

theorem witness_FilterMagnitudes : live.ready ∧ (-255 : Int) ≠ -256 := ⟨live_ready, by decide⟩

/-- The highest context of the bank is used. -/
theorem witness_RegularBinsStayInTheBank :
    (Instr.saoSvlc 1).wf = true ∧ (Instr.saoSvlc 1).codesBins = true ∧
    exec (.saoSvlc 1) live = .next (result (.saoSvlc 1) live) ∧ (.reg false 165 0 true) ∈ (result (.saoSvlc 1) live).bin :=
  ⟨by decide, by decide, exec_result _ _, by decide⟩

/-- Two states that differ in the slots and in the BIN stream. -/
theorem witness_BinsDependOnlyOnTheirInputs :
    (Instr.mergeIdx 2 5).codesBins = true ∧ stored.build = live.build ∧ stored.ctx = live.ctx ∧ stored.config = live.config ∧
    stored.coef = live.coef ∧ live.takes ∧ stored.takes ∧ stored.bankValid = live.bankValid ∧
    exec (.mergeIdx 2 5) live = .next (result (.mergeIdx 2 5) live) ∧
    exec (.mergeIdx 2 5) stored = .next (result (.mergeIdx 2 5) stored) :=
  ⟨rfl, rfl, rfl, rfl, rfl, live_takes, stored_takes, rfl, exec_result _ _, exec_result _ _⟩

/-! #### Binarizers and residual coding -/

theorem witness_BinarizersInvert : (0 : Nat) ≤ 0 ∧ (31 : Nat) ≤ 31 := by decide

/-- Both sides of the smallest symbol above the bound, for the first and the last parameter. -/
theorem witness_GolombRiceBound :
    ((0 : Nat) ≤ 4 ∧ [32770, 32772, 65544, 65552, 131104].getD 0 0 = 32770 ∧ (32769 : Nat) < 32770 ∧
      (grBins 32769 0).length = 32 ∧ (32770 : Nat) ≤ 32770 ∧ (grBins 32770 0).length = 34) ∧
    ((4 : Nat) ≤ 4 ∧ [32770, 32772, 65544, 65552, 131104].getD 4 0 = 131104 ∧ (131103 : Nat) < 131104 ∧
      (grBins 131103 4).length = 32 ∧ (131104 : Nat) ≤ 131104 ∧ (grBins 131104 4).length = 34) := by decide

theorem witness_CoefWriteEffect :
    blank.takes ∧ blank.coef.wf ∧ (1023 : Nat) < 1024 ∧ (-32768 : Int) ≤ -32768 ∧ (32767 : Int) ≤ 32767 :=
  ⟨blank_takes, by decide⟩

theorem witness_BadGeometryFaults :
    live.ready ∧ (1 : Nat) < 2 ∧ (5 : Nat) < 6 ∧ (4 : Nat) < 5 ∧ (3 : Nat) ≤ 3 ∧
    (configured ⟨false, false, false, false, 0, 4⟩).ready ∧
    (configured ⟨false, false, false, false, 0, 4⟩).config.maxLog2Tb.toNat < 5 :=
  ⟨live_ready, by decide, by decide, by decide, by decide, configured_ready _, by decide⟩

/-- A block with a hidden sign that fits (95_test_vectors.md §2.6), and an all-zero 32×32 block. -/
theorem witness_CodeCoeffCompletes :
    (hides [(0, 5), (5, 3)]).ready ∧ 32 ≤ (hides []).build.grMaxBins ∧ (hides []).build.riceMax ≤ 4 ∧
    (2 : Nat) ≤ (hides []).config.maxLog2Tb.toNat ∧ (5 : Nat) ≤ (hides []).config.maxLog2Tb.toNat ∧
    (hides []).config.sbhEn = true ∧ ((hides [(0, 5), (5, 3)]).block 2 false 0 false).hiddenSignsFit ∧
    live.ready ∧ live.config.sbhEn = false ∧ (∀ x < 2 ^ 5, ∀ y < 2 ^ 5, live.coef.read (y * 2 ^ 5 + x) = 0) :=
  ⟨hides_ready _, by decide, by decide, by decide, by decide, by decide,
    by unfold Block.hiddenSignsFit; decide, live_ready, by decide, fun _ _ _ _ => rfl⟩

/-- The two rows of 95_test_vectors.md §2.6 with 5 hidden. -/
theorem witness_HiddenSignMismatchFaults :
    (hides [(0, 0xFFFB), (5, 3)]).ready ∧ (hides [(0, 0xFFFB), (5, 3)]).config.sbhEn = true ∧
    ¬ ((hides [(0, 0xFFFB), (5, 3)]).block 2 false 0 false).hiddenSignsFit ∧
    exec (.codeCoeff 2 false 0 false) (hides [(0, 5), (5, 3)]) =
      .next (result (.codeCoeff 2 false 0 false) (hides [(0, 5), (5, 3)])) ∧
    (result (.codeCoeff 2 false 0 false) (hides [(0, 5), (5, 3)])).faulted = false :=
  ⟨hides_ready _, by decide, by unfold Block.hiddenSignsFit; decide, exec_result _ _, by decide⟩

theorem witness_DcBlockBins :
    (holding [(0, 0x8000)]).ready ∧ 32 ≤ (holding []).build.grMaxBins ∧ 1 ≤ (holding []).build.gt1MaxPerGroup ∧
    1 ≤ (holding []).build.sbhThreshold ∧ 5 ≤ (holding []).config.maxLog2Tb.toNat ∧
    ((holding [(0, 0x8000)]).coef.read 0).toInt = -32768 ∧
    (∀ a < 4 ^ 5, a ≠ 0 → (holding [(0, 0x8000)]).coef.read a = 0) :=
  ⟨holding_ready _, by decide, by decide, by decide, by decide, by decide,
    fun a _ h => by simp [holding, Memory.read, h]⟩

/-- Two buffers that differ only outside the 4×4 block. -/
theorem witness_BlockIsRecoverable :
    ((holding [(0, 4)]).block 2 false 2 false).bins = .ok [r 88 0, r 106 0, r 125 1, r 148 1, e 0, e 1, e 0] ∧
    ((holding [(0, 4), (16, 7)]).block 2 false 2 false).bins = .ok [r 88 0, r 106 0, r 125 1, r 148 1, e 0, e 1, e 0] := by
  decide

theorem witness_ResidualContextsByPlane :
    ((holding [(0, 1)]).block 5 false 2 false).bins = .ok [r 98 0, r 116 0, r 125 0, e 0] ∧
    ((holding [(0, 1)]).block 4 true 2 true).bins = .ok [r 103 0, r 121 0, r 141 0, e 0] := by decide +kernel

/-! #### Rate estimator, ports, invariants -/

theorem witness_EstRatesEffect : live.ready ∧ (2 : Nat) ≤ 2 ∧ (5 : Nat) ≤ 5 ∧ (4 : Nat) ≤ 4 := ⟨live_ready, by decide⟩

/-- A command that faults, EST_RATES, a writer of the bank, and a command that codes no regular bin, all on fresh tables. -/
theorem witness_EstValidFollowsTheBank :
    (∀ i s, exec i s = .next (result i s)) ∧ estimated.estValid = true ∧
    (result (.mergeIdx 5 5) estimated).faulted = true ∧
    (result (.mergeIdx 5 5) estimated).bin = estimated.bin ++ [] ∧ (result (.mergeIdx 5 5) estimated).estValid = true ∧
    (result (.estRates 5 false) live).faulted = false ∧ (result (.estRates 5 false) live).bin = live.bin ++ [] ∧
    (result (.resetEntropy 0 26 false) estimated).bin = estimated.bin ++ [.start] ∧
    (result (.resetEntropy 0 26 false) estimated).estValid = false ∧
    (result (.termBin true) estimated).bin = estimated.bin ++ [.trm true] ∧ (result (.termBin true) estimated).estValid = true ∧
    (result (.predMode true) estimated).estValid = false :=
  ⟨exec_result, by decide⟩

theorem witness_StepKeepsEstimatorFresh :
    (port estimated 0x2F00000000000001).EstInv ∧ (port estimated 0x2F00000000000001).estValid = true ∧
    after (step (port estimated 0x2F00000000000001)) = some (stepped (port estimated 0x2F00000000000001)) :=
  ⟨⟨estimated_estInv.fresh, estimated_estInv.computed⟩, by decide, by decide +kernel⟩

/-- The words of each clause, at its first and last address: no two clauses share one. -/
theorem witness_RegMap :
    estimated.Inv ∧ estimated.bankValid = true ∧ estimated.estComputed = true ∧ estimated.build.numCtx = 166 ∧
    (0x100 : BitVec 12).toNat = 0x100 + 0 ∧ (0x1A5 : BitVec 12).toNat = 0x100 + 165 ∧
    (∀ t ∈ [(0x200, 10, 0x213), (0x214, 1, 0x215), (0x216, 4, 0x21D), (0x21E, 42, 0x271), (0x272, 24, 0x2A1),
        (0x2A2, 6, 0x2AD)],
      (BitVec.ofNat 12 t.1).toNat = t.1 + 2 * 0 + false.toNat ∧ 0 < t.2.1 ∧
      (BitVec.ofNat 12 t.2.2).toNat = t.1 + 2 * (t.2.1 - 1) + true.toNat) ∧
    (0x2AE : BitVec 12).toNat = 0x2AE + 0 ∧ (0x2B7 : BitVec 12).toNat = 0x2AE + 9 ∧
    (0x2B8 : BitVec 12).toNat = 0x2B8 + 0 ∧ (0x2C1 : BitVec 12).toNat = 0x2B8 + 9 ∧
    (0x009 ≤ (0x009 : BitVec 12).toNat ∧ (0x0FF : BitVec 12).toNat < 0x100) ∧
    (0x100 + 166 ≤ (0x1A6 : BitVec 12).toNat ∧ (0x1FF : BitVec 12).toNat < 0x200) ∧ 0x2C2 ≤ (0x2C2 : BitVec 12).toNat :=
  ⟨estimated_inv, by decide, by decide, by decide, by decide⟩

theorem witness_EventRecords :
    (BinEvent.reg true 511 63 true).record = (BinEvent.reg true 511 63 true).record ∧
    (BinEvent.copyTo 255).record ≠ (BinEvent.copyFrom 255).record := ⟨rfl, by decide⟩

theorem witness_ResetMeetsTheInvariants : vectorBuild.legal = true := vectorBuild_legal

theorem witness_StepKeepsTheStateShape :
    (port stored 0x1100000000000001).Inv ∧
    after (step (port stored 0x1100000000000001)) = some (stepped (port stored 0x1100000000000001)) :=
  ⟨⟨stored_inv.build, stored_inv.ctx, stored_inv.slots, stored_inv.slotBanks, stored_inv.slotsNeedBank, stored_inv.coef,
    stored_inv.config, stored_inv.tables⟩, by decide +kernel⟩

theorem witness_StepKeepsFaultRegisters :
    (port faulty 0x0100000000001A00).FaultInv ∧
    after (step (port faulty 0x0100000000001A00)) = some (stepped (port faulty 0x0100000000001A00)) :=
  ⟨⟨faulty_faultInv.sticky, faulty_faultInv.cause, faulty_faultInv.capacity, faulty_faultInv.capacityBuild⟩,
    by decide +kernel⟩

end Sys2Proof.Tests
end

section
/-! PROOFS. What a command answers: bins whose contexts lie in the bank, or a fault with a cause that commands raise. -/

namespace Sys2Proof.Machine

open Sys2Proof

/-- A cause that commands raise: neither the reset value of FAULT nor the cause of the capacity check
(60_exceptions.md R330). -/
def Cause.ofCommand (c : Cause) : Bool := decide (c ≠ .none ∧ c ≠ .capacity)

theorem Cause.ofCommand_iff {c : Cause} : c.ofCommand = true ↔ c ≠ .none ∧ c ≠ .capacity := by simp [Cause.ofCommand]

/-- `r` is a value with the property `Q`, or a fault with the cause of a command. -/
def Answers {α : Type} (Q : α → Prop) : Except Cause α → Prop
  | .ok x => Q x
  | .error c => c.ofCommand = true

section
variable {α β : Type} {Q : α → Prop} {r : Except Cause α}

@[simp] theorem answers_ok {x : α} : Answers Q (.ok x) ↔ Q x := Iff.rfl

@[simp] theorem answers_error {c : Cause} : Answers Q (.error c) ↔ c.ofCommand = true := Iff.rfl

@[simp] theorem answers_unlessFault {bad : Bool} {c : Cause} :
    Answers Q (unlessFault bad c r) ↔ (bad = true → c.ofCommand = true) ∧ (bad = false → Answers Q r) := by
  cases bad <;> simp

theorem Answers.of_ok {x : α} (h : Answers Q r) (hr : r = .ok x) : Q x := by rwa [hr] at h

theorem Answers.mono {Q' : α → Prop} (h : Answers Q r) (hQ : ∀ x, Q x → Q' x) : Answers Q' r := by
  cases r with
  | ok x => exact hQ x h
  | error c => exact h

/-- A fault of a part is a fault of the whole. -/
theorem Answers.of_error {Q' : β → Prop} {c : Cause} (h : Answers Q r) (hr : r = .error c) :
    Answers Q' (.error c) := by rwa [hr] at h

end

theorem answers_needBank {Q : State → Prop} {effect : State → Except Cause State} {s : State}
    (h : Answers Q (effect s)) : Answers Q (needBank effect s) := by
  cases hv : s.bankValid
  · rw [needBank_of_invalid hv]
    rfl
  · rwa [needBank_of_valid hv]

/-! ### Bins in the bank (10_state.md R31) -/

/-- A regular bin names a context of the 27 groups; the other bins name none. -/
def Bin.inBank : Bin → Prop
  | .reg i _ => i < 166
  | .ep _ | .trm _ => True

/-- Every regular bin of a string names a context of the groups. -/
def BinsInBank (bs : List Bin) : Prop := ∀ b ∈ bs, b.inBank

@[simp] theorem binsInBank_nil : BinsInBank [] := by simp [BinsInBank]

@[simp] theorem binsInBank_cons {b : Bin} {bs : List Bin} : BinsInBank (b :: bs) ↔ b.inBank ∧ BinsInBank bs := by
  simp [BinsInBank]

@[simp] theorem binsInBank_append {as bs : List Bin} : BinsInBank (as ++ bs) ↔ BinsInBank as ∧ BinsInBank bs := by
  simp [BinsInBank, or_imp, forall_and]

@[simp] theorem Bin.ep_inBank (b : Bool) : (Bin.ep b).inBank := trivial

@[simp] theorem Bin.trm_inBank (b : Bool) : (Bin.trm b).inBank := trivial

@[simp] theorem rb_inBank {g : Group} {inc : Nat} {b : Bool} : (rb g inc b).inBank ↔ g.base + inc < 166 := Iff.rfl

theorem binsInBank_map {α : Type} {f : α → Bin} (h : ∀ x, (f x).inBank) (xs : List α) : BinsInBank (xs.map f) := by
  simpa [BinsInBank] using fun x _ => h x

@[simp] theorem binsInBank_epAll (bs : List Bool) : BinsInBank (epAll bs) := binsInBank_map Bin.ep_inBank bs

@[simp] theorem binsInBank_epBins (v n : Nat) : BinsInBank (epBins v n) := binsInBank_epAll _

@[simp] theorem binsInBank_map_rb {g : Group} {inc : Nat} (h : g.base + inc < 166) (bs : List Bool) :
    BinsInBank (bs.map (rb g inc)) := binsInBank_map (fun _ => rb_inBank.2 h) bs

/-! ### The residual coder -/

theorem groupIdx_le (v : Nat) : groupIdx v ≤ 9 := by
  unfold groupIdx
  split_ifs <;> omega

theorem lastCtx_le {l2 : Nat} (h : l2 ≤ 5) (chroma : Bool) (j : Nat) : lastCtx l2 chroma j ≤ 15 + j := by
  have h1 := Nat.div_le_self j (2 ^ (l2 - 2))
  have h2 := Nat.div_le_self j (2 ^ ((l2 + 1) / 4))
  unfold lastCtx
  split_ifs <;> omega

theorem lastPrefix_inBank {g : Group} {l2 : Nat} (hg : g.base ≤ 106) (h : l2 ≤ 5) (chroma : Bool) (v : Nat) :
    BinsInBank (lastPrefix g l2 chroma v) := by
  have hctx : ∀ j ≤ 9, ∀ b, (rb g (lastCtx l2 chroma j) b).inBank := fun j hj b => by
    have := lastCtx_le h chroma j
    rw [rb_inBank]
    omega
  have hv := groupIdx_le v
  rw [lastPrefix, zipIdx_binTU fun j b => rb g (lastCtx l2 chroma j) b, binsInBank_append]
  constructor
  · intro b hb
    obtain ⟨j, hj, rfl⟩ := List.mem_map.1 hb
    exact hctx j (by have := List.mem_range.1 hj; omega) _
  · split
    · simpa using hctx _ hv false
    · exact binsInBank_nil

theorem lastSuffix_inBank (v : Nat) : BinsInBank (lastSuffix v) := by
  unfold lastSuffix
  split <;> simp

theorem Block.lastPosBins_inBank {k : Block} (h : k.l2 ≤ 5) (x y : Nat) : BinsInBank (k.lastPosBins x y) := by
  have hX := lastPrefix_inBank (g := .lastX) (by decide) h k.chroma
  have hY := lastPrefix_inBank (g := .lastY) (by decide) h k.chroma
  simp [Block.lastPosBins, hX, hY, lastSuffix_inBank]

theorem patternCtx_le (prev x y : Nat) : patternCtx prev x y ≤ 2 := by
  unfold patternCtx
  split_ifs <;> omega

theorem ctxIdxMap_le (n : Nat) : ctxIdxMap.getD n 0 ≤ 8 := by
  rcases Nat.lt_or_ge n 15 with h | h
  · exact (by decide : ∀ n < 15, ctxIdxMap.getD n 0 ≤ 8) n h
  · rw [List.getD_eq_default _ _ (by simpa [ctxIdxMap] using h)]
    omega

/-- A significance context lies in the group SIG (43_residual.md R270). -/
theorem Block.sigCtx_lt (k : Block) (prev x y : Nat) : k.sigCtx prev x y < Group.sig.size := by
  have h1 := patternCtx_le prev (x % 4) (y % 4)
  have h2 := ctxIdxMap_le (4 * y + x)
  unfold Block.sigCtx sigCtxInPlane Group.size
  cases k.chroma <;> simp only [Bool.false_eq_true, if_true, if_false] <;> split_ifs <;> omega

theorem Block.sigFlags_inBank (k : Block) (i prev n : Nat) (infer : Bool) : BinsInBank (k.sigFlags i prev n infer).1 := by
  induction n generalizing infer with
  | zero => exact binsInBank_nil
  | succ n ih =>
    unfold Block.sigFlags
    split
    · exact binsInBank_nil
    · have := k.sigCtx_lt prev (k.pos (16 * i + n)).1 (k.pos (16 * i + n)).2
      simp only [Group.size] at this
      simp only [binsInBank_cons, rb_inBank, Group.base]
      exact ⟨by omega, ih _⟩

theorem Block.subBlockFlags_inBank (k : Block) (last i : Nat) : BinsInBank (k.subBlockFlags last i).1 := by
  have hs := k.sigFlags_inBank
  have hc : k.csbfCtx (k.sub i).1 (k.sub i).2 ≤ 3 := by unfold Block.csbfCtx; split <;> omega
  unfold Block.subBlockFlags
  dsimp only
  rw [binsInBank_append]
  constructor
  · split
    · simp only [binsInBank_cons, rb_inBank, Group.base, binsInBank_nil, and_true]
      omega
    · exact binsInBank_nil
  · split
    · exact hs _ _ _ _
    · exact binsInBank_nil

theorem nextC1_le {c1 : Nat} (h : c1 ≤ 3) (g : Bool) : nextC1 c1 g ≤ 3 := by
  unfold nextC1
  split_ifs <;> omega

theorem ctxSetOf_le (chroma : Bool) (i c1 : Nat) : ctxSetOf chroma i c1 ≤ if chroma then 1 else 3 := by
  unfold ctxSetOf
  cases chroma <;> simp <;> split_ifs <;> omega

theorem gt1Flags_inBank {chroma : Bool} {set : Nat} (hset : set ≤ if chroma then 1 else 3) (as : List Nat) {c1 : Nat}
    (h : c1 ≤ 3) : BinsInBank (gt1Flags chroma set as c1).1 := by
  induction as generalizing c1 with
  | nil => exact binsInBank_nil
  | cons a as ih =>
    simp only [gt1Flags, binsInBank_cons, rb_inBank, Group.base]
    refine ⟨?_, ih (nextC1_le h _)⟩
    split_ifs at hset ⊢ <;> omega

theorem signBins_inBank (hide : Bool) (vals : List Int) : BinsInBank (signBins hide vals) :=
  binsInBank_map (fun _ => Bin.ep_inBank _) _

theorem binGR_answers (maxBins sym r : Nat) : Answers (fun _ => True) (binGR maxBins sym r) := by
  unfold binGR
  split
  · exact answers_error.2 rfl
  · trivial

theorem remLevels_answers (b : Build) (first : Option Nat) (g2 : Bool) (as : List Nat) (n r : Nat) :
    Answers (fun l => BinsInBank l.1) (remLevels b first g2 as n r) := by
  induction as generalizing n r with
  | nil => exact binsInBank_nil
  | cons a as ih =>
    unfold remLevels
    split
    · split
      · exact (binGR_answers _ _ _).of_error ‹_›
      · split
        · exact (ih _ _).of_error ‹_›
        · rename_i hl
          exact binsInBank_append.2 ⟨binsInBank_epAll _, (ih _ _).of_ok hl⟩
    · exact ih _ _

theorem Block.codeLevels_answers (k : Block) (i : Nat) (S : List Nat) (c1 r : Nat) :
    Answers (fun l => BinsInBank l.1) (k.codeLevels i S c1 r) := by
  have hset := ctxSetOf_le k.chroma i c1
  unfold Block.codeLevels
  dsimp only
  split
  · exact answers_error.2 rfl
  · split
    · exact (remLevels_answers _ _ _ _ _ _).of_error ‹_›
    · rename_i l hl
      have hrem := (remLevels_answers _ _ _ _ _ _).of_ok hl
      simp only [answers_ok, binsInBank_append]
      refine ⟨⟨⟨gt1Flags_inBank hset _ (by omega), ?_⟩, signBins_inBank _ _⟩, hrem⟩
      split
      · simp only [binsInBank_cons, rb_inBank, Group.base, binsInBank_nil, and_true]
        split_ifs at hset ⊢ <;> omega
      · exact binsInBank_nil

theorem Block.subBlocks_answers (k : Block) (last n c1 r : Nat) : Answers BinsInBank (k.subBlocks last n c1 r) := by
  induction n generalizing c1 r with
  | zero => exact binsInBank_nil
  | succ i ih =>
    have hf := k.subBlockFlags_inBank last i
    unfold Block.subBlocks
    dsimp only
    split
    · split
      · exact (ih _ _).of_error ‹_›
      · rename_i hrest
        exact binsInBank_append.2 ⟨hf, (ih _ _).of_ok hrest⟩
    · split
      · exact (k.codeLevels_answers _ _ _ _).of_error ‹_›
      · rename_i hl
        split
        · exact (ih _ _).of_error ‹_›
        · rename_i hrest
          exact binsInBank_append.2 ⟨binsInBank_append.2 ⟨hf, (k.codeLevels_answers _ _ _ _).of_ok hl⟩, (ih _ _).of_ok hrest⟩

theorem Block.bins_answers {k : Block} (h : k.l2 ≤ 5) : Answers BinsInBank k.bins := by
  unfold Block.bins
  split
  · exact binsInBank_nil
  · split
    · exact (k.subBlocks_answers _ _ _ _).of_error ‹_›
    · rename_i hrest
      exact binsInBank_append.2 ⟨Block.lastPosBins_inBank h _ _, (k.subBlocks_answers _ _ _ _).of_ok hrest⟩

end Sys2Proof.Machine
end

section
/-! PROOFS. What every command answers: its bins, its commit or its fault. -/

namespace Sys2Proof.Machine

open Sys2Proof

/-! ### The bins of the single commands (42_syntax_elements.md) -/

theorem firstRegular_inBank {g : Group} {inc : Nat} (h : g.base + inc < 166) (bs : List Bool) :
    BinsInBank (firstRegular g inc bs) := by
  cases bs <;> simp [firstRegular, h]

theorem firstTwoRegular_inBank {g : Group} (h : g.base + 1 < 166) (bs : List Bool) : BinsInBank (firstTwoRegular g bs) := by
  cases bs <;> simp [firstTwoRegular, firstRegular_inBank h, Nat.lt_of_succ_lt h]

theorem regularThen_inBank {g : Group} {inc0 inc1 : Nat} (h0 : g.base + inc0 < 166) (h1 : g.base + inc1 < 166)
    (bs : List Bool) : BinsInBank (regularThen g inc0 inc1 bs) := by
  cases bs <;> simp [regularThen, h0, h1]

theorem binsSplitFlag_answers (v atMax avL avA : Bool) (dL dA dC : Nat) :
    Answers BinsInBank (binsSplitFlag v atMax avL avA dL dA dC) := by
  have h : splitInc avL avA dL dA dC ≤ 2 := by
    unfold splitInc
    split_ifs <;> omega
  cases atMax
  · simp only [binsSplitFlag, Bool.false_eq_true, if_false, answers_ok, binsInBank_cons, rb_inBank, Group.base]
    exact ⟨by omega, binsInBank_nil⟩
  · simp [binsSplitFlag, Cause.ofCommand]

theorem binsSkipFlag_inBank (v avL skL avA skA : Bool) : BinsInBank (binsSkipFlag v avL skL avA skA) := by
  have hL := Bool.toNat_le (avL && skL)
  have hA := Bool.toNat_le (avA && skA)
  simp only [binsSkipFlag, skipInc, binsInBank_cons, rb_inBank, Group.base]
  exact ⟨by omega, binsInBank_nil⟩

theorem binsMergeIdx_answers (idx nc : Nat) : Answers BinsInBank (binsMergeIdx idx nc) := by
  simp [binsMergeIdx, Cause.ofCommand, firstRegular_inBank, Group.base]

theorem binsAmp_inBank (symmetric side : Bool) : BinsInBank (binsAmp symmetric side) := by
  cases symmetric <;> simp [binsAmp, Group.base]

theorem binsInterPart_inBank (part : Nat) (atMin amp no44 : Bool) : BinsInBank (binsInterPart part atMin amp no44) := by
  unfold binsInterPart
  split_ifs <;> simp [binsAmp_inBank, Group.base]

theorem binsPartSize_answers (c : ConfigReg) (part : Nat) (intra atMin : Bool) (log2Cb : Nat) (ampOk : Bool) :
    Answers BinsInBank (binsPartSize c part intra atMin log2Cb ampOk) := by
  unfold binsPartSize
  split_ifs <;> simp [Cause.ofCommand, binsInterPart_inBank, Group.base]

theorem binsIntraDirLuma_answers (mode c0 c1 c2 : Nat) : Answers BinsInBank (binsIntraDirLuma mode c0 c1 c2) := by
  unfold binsIntraDirLuma
  split_ifs <;> simp [Cause.ofCommand, Group.base]

theorem binsIntraDirChroma_answers (c : ConfigReg) (code : Nat) : Answers BinsInBank (binsIntraDirChroma c code) := by
  unfold binsIntraDirChroma
  split_ifs <;> simp [Cause.ofCommand, Group.base]

/-- The depth of INTER_DIR is the only operand that names a context without a check: its field keeps it below 4. -/
theorem binsInterDir_answers (dir ctd : Nat) (small : Bool) :
    Answers (fun bs => ctd < 4 → BinsInBank bs) (binsInterDir dir ctd small) := by
  unfold binsInterDir
  split_ifs <;> simp [Cause.ofCommand, Group.base] <;> omega

theorem binsRefIdx_answers (ri nr : Nat) : Answers BinsInBank (binsRefIdx ri nr) := by
  have h := firstTwoRegular_inBank (g := .refIdx) (by decide) (binTU ri (nr - 1))
  simp [binsRefIdx, Cause.ofCommand, h]

theorem mvdGreater1_inBank (v : Int) : BinsInBank (mvdGreater1 v) := by
  unfold mvdGreater1
  split <;> simp [Group.base]

theorem mvdTail_inBank (v : Int) : BinsInBank (mvdTail v) := by
  unfold mvdTail
  split_ifs <;> simp

theorem binsMvd_inBank (mvx mvy : Int) : BinsInBank (binsMvd mvx mvy) := by
  simp [binsMvd, mvdGreater1_inBank, mvdTail_inBank, Group.base]

theorem binsDeltaQp_inBank (c : ConfigReg) (dqp : Int) : BinsInBank (binsDeltaQp c dqp) := by
  have h := regularThen_inBank (g := .deltaQp) (inc0 := 0) (inc1 := 1) (by decide) (by decide)
  unfold binsDeltaQp
  dsimp only
  split_ifs <;> simp [h]

theorem binsQtCbf_answers (v pl : Bool) (ci : Nat) : Answers BinsInBank (binsQtCbf v pl ci) := by
  have := Bool.toNat_le pl
  simp only [binsQtCbf, answers_unlessFault, answers_ok, binsInBank_cons, rb_inBank, Group.base, decide_eq_false_iff_not]
  exact ⟨fun _ => rfl, fun _ => ⟨by omega, binsInBank_nil⟩⟩

theorem binsTransSubdiv_answers (v : Bool) (ci : Nat) : Answers BinsInBank (binsTransSubdiv v ci) := by
  simp only [binsTransSubdiv, answers_unlessFault, answers_ok, binsInBank_cons, rb_inBank, Group.base,
    decide_eq_false_iff_not]
  exact ⟨fun _ => rfl, fun _ => ⟨by omega, binsInBank_nil⟩⟩

theorem binsUvlc_inBank {g : Group} (h : g.base + 1 < 166) (val : Nat) : BinsInBank (binsUvlc g val) := by
  unfold binsUvlc
  split <;> simp [h, Nat.lt_of_succ_lt h]

theorem binsSvlc_answers {g : Group} (h : g.base + 2 < 166) (val : Int) : Answers BinsInBank (binsSvlc g val) := by
  have h1 : g.base + 1 < 166 := by omega
  have h0 : g.base < 166 := by omega
  unfold binsSvlc
  split <;> simp [Cause.ofCommand, h, h1, h0]

/-! ### Every command -/

theorem badBlockSize_false {l2 : Nat} {chroma : Bool} (h : badBlockSize l2 chroma = false) : l2 ≤ 5 := by
  simp only [badBlockSize, Bool.or_eq_false_iff, decide_eq_false_iff_not] at h
  omega

theorem codeCoeff_answers (s : State) (l2 : Nat) (pl : Bool) (scan : Nat) (ll : Bool) :
    Answers BinsInBank (binsOf (.codeCoeff l2 pl scan ll) s) := by
  refine answers_unlessFault.2 ⟨fun _ => rfl, fun h => ?_⟩
  simp only [badGeometry, Bool.or_eq_false_iff] at h
  exact Block.bins_answers (badBlockSize_false h.1.1)

/-- What a command that codes bins answers: bins that lie in the bank where its fields fit, or a fault. -/
theorem binsOf_answers (i : Instr) (s : State) : Answers (fun bs => i.wf = true → BinsInBank bs) (binsOf i s) := by
  have weaken {r : Except Cause (List Bin)} (h : Answers BinsInBank r) :
      Answers (fun bs => i.wf = true → BinsInBank bs) r := h.mono fun _ hb _ => hb
  cases i with
  | splitFlag => exact weaken (binsSplitFlag_answers ..)
  | skipFlag => exact weaken (binsSkipFlag_inBank _ _ _ _ _)
  | mergeIdx => exact weaken (binsMergeIdx_answers ..)
  | partSize => exact weaken (binsPartSize_answers ..)
  | intraDirLuma => exact weaken (binsIntraDirLuma_answers ..)
  | intraDirChroma => exact weaken (binsIntraDirChroma_answers ..)
  | interDir dir ctd small =>
    refine (binsInterDir_answers dir ctd small).mono fun bs h hw => h ?_
    simp only [Instr.wf, fitsU, Bool.and_eq_true, decide_eq_true_eq] at hw
    omega
  | refIdx => exact weaken (binsRefIdx_answers ..)
  | mvd => exact weaken (binsMvd_inBank _ _)
  | deltaQp => exact weaken (binsDeltaQp_inBank _ _)
  | qtCbf => exact weaken (binsQtCbf_answers ..)
  | transSubdiv => exact weaken (binsTransSubdiv_answers ..)
  | alfUvlc | saoUvlc => exact weaken (binsUvlc_inBank (by decide) _)
  | alfSvlc | saoSvlc => exact weaken (binsSvlc_answers (by decide) _)
  | codeCoeff => exact weaken (codeCoeff_answers ..)
  | _ => simp [binsOf, Group.base]

/-- The bins of a command whose fields fit lie in the bank (42_syntax_elements.md R200; 43_residual.md R266). -/
theorem binsOf_inBank {i : Instr} {s : State} {bs : List Bin} (hw : i.wf = true) (h : binsOf i s = .ok bs) :
    BinsInBank bs := (binsOf_answers i s).of_ok h hw

/-- A command faults with a cause that commands raise (60_exceptions.md R330). -/
theorem effectOf_error_ofCommand {i : Instr} {s : State} {c : Cause} (h : effectOf i s = .error c) : c.ofCommand = true := by
  suffices Answers (fun _ => True) (effectOf i s) by rwa [h] at this
  by_cases hb : i.codesBins = true
  · rw [effectOf_of_codesBins hb]
    refine answers_needBank ?_
    split
    · trivial
    · exact (binsOf_answers i s).of_error ‹_›
  · cases i with
    | resetEntropy | setConfig => exact answers_unlessFault.2 ⟨fun _ => rfl, fun _ => trivial⟩
    | determineInitIndex =>
      refine answers_unlessFault.2 ⟨fun _ => rfl, fun _ => answers_needBank ?_⟩
      split <;> trivial
    | updateContextTables =>
      simp only [effectOf, effectUpdateContextTables]
      exact answers_unlessFault.2 ⟨fun _ => rfl, fun _ => answers_needBank (answers_ok.2 trivial)⟩
    | endSegment =>
      simp only [effectOf, effectEndSegment]
      exact answers_needBank (answers_ok.2 trivial)
    | store | estRates =>
      simp only [effectOf, effectStore, effectEstRates]
      exact answers_needBank (answers_unlessFault.2 ⟨fun _ => rfl, fun _ => trivial⟩)
    | load =>
      simp only [effectOf, effectLoad]
      split
      · trivial
      · rfl
    | loadPartial =>
      simp only [effectOf, effectLoadPartial]
      refine answers_needBank ?_
      split
      · trivial
      · rfl
    | snapWrite =>
      simp only [effectOf, effectSnapWrite]
      split
      · exact answers_unlessFault.2 ⟨fun _ => rfl, fun _ => trivial⟩
      · rfl
    | coefWrite => trivial
    | _ => simp [Instr.codesBins] at hb

/-- Settles O42: every bin lies in the bank, and a REG event carries the context of a bin. -/
theorem regularBinsStayInTheBank : Obligations.RegularBinsStayInTheBank := by
  intro i s t hw hi h
  rcases exec_cases h with ⟨-, rfl⟩ | ⟨-, u, hu, rfl⟩ | ⟨-, c, -, rfl⟩
  · exact ⟨[], by simp⟩
  · rw [effectOf_of_codesBins hi] at hu
    obtain ⟨-, bs, hbs, rfl⟩ := coding_ok.1 hu
    refine ⟨_, rfl, ?_⟩
    rintro e he b j p m rfl
    obtain ⟨n, hn, rfl⟩ := codeBins_reg_event he
    have : n < 166 := binsOf_inBank hw hbs _ hn
    rw [BitVec.toNat_ofNat]
    omega
  · exact ⟨[], by simp⟩

end Sys2Proof.Machine
end

section
/-! PROOFS. The invariants of the state: what each operation keeps, said once, and from that what every step keeps. -/

namespace Sys2Proof.Machine

open Sys2Proof

/-- The port moved on. -/
def State.withPending (s : State) (rest : List HostInput) : State := { s with pending := rest }

/-- A property that the port, a hardware reset, the count of a command, every commit and every fault keep is kept by every
step. -/
theorem step_keeps {P : State → Prop} {s t : State} (h : step s = .next t) (hs : P s)
    (hport : ∀ {s} rest, P s → P (s.withPending rest)) (hreset : ∀ {s}, P s → P s.hardwareReset)
    (hcomplete : ∀ {s}, P s → P s.complete)
    (hcommit : ∀ {i s u}, P s → s.rejects (opcodeOf i) = false → Commits i s u → P u)
    (hfault : ∀ {s op c}, P s → s.rejects op = false → c.ofCommand = true → P (s.takeFault op c)) : P t := by
  rcases step_cases h with ⟨-, rfl⟩ | ⟨rest, -, rfl⟩ | ⟨w, rest, i, -, -, h⟩ | ⟨w, rest, e, -, -, h⟩
  · exact hs
  · exact hreset (hport rest hs)
  · have hp := hport rest hs
    rcases exec_cases h with ⟨-, rfl⟩ | ⟨hr, u, hu, rfl⟩ | ⟨hr, c, hc, rfl⟩
    · exact hcomplete hp
    · exact hcomplete (hcommit hp hr (commits_of_effectOf hu))
    · exact hcomplete (hfault hp hr (effectOf_error_ofCommand hc))
  · have hp := hport rest hs
    rcases command_cases h with ⟨-, rfl⟩ | ⟨-, u, hu, -⟩ | ⟨hr, c, hc, rfl⟩
    · exact hcomplete hp
    · cases hu
    · refine hcomplete (hfault hp hr ?_)
      cases hc
      cases e <;> rfl

/-! ### The shape of the state -/

theorem Build.legal_cases {b : Build} (h : b.legal = true) :
    numGroupCtx ≤ b.numCtx ∧ 2 ≤ b.maxLog2Tb ∧ b.maxLog2Tb ≤ 5 := by
  simp only [Build.legal, Bool.and_eq_true, decide_eq_true_eq] at h
  omega

theorem bankOk_atReset (n : Nat) : bankOk n (List.replicate n Ctx.atReset) :=
  ⟨List.length_replicate, fun x hx => by rw [List.eq_of_mem_replicate hx]; exact Nat.zero_le _⟩

theorem bankOk_set {n : Nat} {bank : List Ctx} (h : bankOk n bank) (i : Nat) {x : Ctx} (hx : x.inRange) :
    bankOk n (bank.set i x) := by
  refine ⟨by simp [h.1], fun y hy => ?_⟩
  rcases List.mem_or_eq_of_mem_set hy with hy | rfl
  · exact h.2 y hy
  · exact hx

theorem bankOk_copyGroup {n : Nat} {live bank : List Ctx} (hl : bankOk n live) (hb : bankOk n bank) (hn : numGroupCtx ≤ n)
    (g : Group) : bankOk n (copyGroup g live bank) := by
  have hg := group_in_bank g
  refine ⟨?_, fun x hx => ?_⟩
  · rw [copyGroup_length (hl.1.trans hb.1.symm) (by have := hl.1; omega), hl.1]
  · exact (mem_copyGroup hx).elim (hl.2 x) (hb.2 x)

/-- The reset state of a legal build has the shape of the state (10_state.md R47). -/
theorem State.resetOf_inv {b : Build} (h : b.legal = true) : (State.resetOf b).Inv where
  build := h
  ctx := bankOk_atReset _
  slots := List.length_replicate
  slotBanks := fun sl hsl => by
    rw [List.eq_of_mem_replicate hsl]
    exact bankOk_atReset _
  slotsNeedBank := fun sl hsl hv => by
    rw [List.eq_of_mem_replicate hsl] at hv
    cases hv
  coef := Memory.wf_nil
  config := by
    obtain ⟨-, h2, h5⟩ := Build.legal_cases h
    simp only [State.resetOf, BitVec.toNat_ofNat, BitVec.ofNat_eq_ofNat]
    omega
  tables := by simp [State.resetOf]

section
variable {s : State} (hs : s.Inv)
include hs

theorem State.Inv.withPending (rest : List HostInput) : (s.withPending rest).Inv := { hs with }

theorem State.Inv.complete : s.complete.Inv := { hs with }

theorem State.Inv.takeFault (op : Nat) (c : Cause) : (s.takeFault op c).Inv := { hs with }

theorem State.Inv.emit (es : List BinEvent) : (s.emit es).Inv := { hs with }

theorem State.Inv.leaveFaulted : s.leaveFaulted.Inv := { hs with }

theorem State.Inv.hardwareReset : s.hardwareReset.Inv := { State.resetOf_inv hs.build with }

theorem State.Inv.code (bins : List Bin) : (s.code bins).Inv := { hs with ctx := codeBins_bankOk hs.ctx bins }

theorem State.Inv.setBank {bank : List Ctx} (h : bankOk s.build.numCtx bank) : (s.setBank bank).Inv :=
  { hs with ctx := h, slotsNeedBank := fun _ _ _ => rfl }

/-- A bank in range stored in a slot, beside a valid live bank. -/
theorem State.Inv.setSlot {bank : List Ctx} (k : Nat) (h : bankOk s.build.numCtx bank) (hv : s.bankValid = true) :
    (s.setSlot k bank).Inv :=
  { hs with
    slots := by simpa [State.setSlot] using hs.slots
    slotBanks := fun sl hsl => by
      rcases List.mem_or_eq_of_mem_set hsl with hsl | rfl
      · exact hs.slotBanks sl hsl
      · exact h
    slotsNeedBank := fun _ _ _ => hv }

/-- What a valid slot holds (40_context_bank.md R146). -/
theorem State.Inv.validSlot {k : Nat} {bank : List Ctx} (h : s.validSlot k = some bank) :
    bankOk s.build.numCtx bank ∧ s.bankValid = true := by
  have hm := List.mem_of_getElem? (State.validSlot_eq_some.1 h).2
  exact ⟨hs.slotBanks _ hm, hs.slotsNeedBank _ hm rfl⟩

theorem State.Inv.tableFor_le {st : Nat} (h : st ≤ 2) (useRec : Bool) : s.tableFor st useRec ≤ 2 := by
  obtain ⟨-, -, hi⟩ := hs.tables
  unfold State.tableFor
  split_ifs <;> omega

theorem State.Inv.reinit {st : Nat} (h : st ≤ 2) (qp : Int) (useRec : Bool) : (s.reinit st qp useRec).Inv :=
  have ht := hs.tableFor_le h useRec
  { hs.setBank (initBank_bankOk s.build (s.tableFor st useRec) qp) with
    tables := by
      obtain ⟨-, -, hi⟩ := hs.tables
      simp only [State.reinit_slice, State.reinit_initTable, BitVec.toNat_ofNat]
      omega }

end

theorem chooseTable_le {st : Nat} (h : st = 1 ∨ st = 2) (s : State) (qp : Int) : chooseTable s st qp ≤ 2 := by
  unfold chooseTable
  dsimp only
  split <;> split_ifs <;> omega

/-- A commit keeps the shape of the state. -/
theorem State.Inv.commit {i : Instr} {s u : State} (hs : s.Inv) (h : Commits i s u) : u.Inv := by
  obtain ⟨hst, hit, -⟩ := hs.tables
  cases h with
  | bins => exact hs.code _
  | resetEntropy hst => exact (hs.reinit hst _ _).leaveFaulted.emit _
  | determineI => exact { hs with tables := ⟨hst, hit, Nat.zero_le 2⟩ }
  | determine hst' =>
    have := chooseTable_le hst' s
    exact { hs with tables := ⟨hst, hit, by rw [BitVec.toNat_ofNat]; exact (Nat.mod_le _ _).trans (this _)⟩ }
  | update hst => exact (((hs.code _).emit _).reinit hst _ _).emit _
  | endSegment => exact (hs.code _).emit _
  | setConfig hq hm => exact { hs with config := by simp only [BitVec.toNat_ofNat]; omega }
  | store hv => exact (hs.setSlot _ hs.ctx hv).emit _
  | load h => exact (hs.setBank (hs.validSlot h).1).emit _
  | loadPartial hv h =>
    exact { hs with ctx := bankOk_copyGroup hs.ctx (hs.validSlot h).1 (Build.legal_cases hs.build).1 _ }
  | snapWrite h hi hp =>
    obtain ⟨hb, hv⟩ := hs.validSlot h
    refine hs.setSlot _ (bankOk_set hb _ ?_) hv
    simp only [Ctx.inRange, BitVec.toNat_ofNat]
    omega
  | coefWrite => exact { hs with coef := Memory.wf_write _ hs.coef (Nat.mod_lt _ (by decide)) }
  | estRates => exact { hs with }

/-- Settles O59: every operation of a step keeps the shape of the state. -/
theorem stepKeepsTheStateShape : Obligations.StepKeepsTheStateShape := fun _ _ hs h =>
  step_keeps h hs (fun rest hs => hs.withPending rest) State.Inv.hardwareReset State.Inv.complete
    (fun hs _ hc => hs.commit hc) (fun hs _ _ => hs.takeFault _ _)

/-! ### The fault registers (60_exceptions.md R330 to R335) -/

/-- Hardware reset leaves the fault registers of the capacity check (70_reset_and_hazards.md R363). -/
theorem State.resetOf_faultInv (b : Build) : (State.resetOf b).FaultInv := by
  by_cases h : b.maxNumCtx < b.numCtx
  · constructor <;> simp [h]
  · constructor <;> simp [h]

theorem State.hardwareReset_faultInv (s : State) : s.hardwareReset.FaultInv := { State.resetOf_faultInv s.build with }

section
variable {s : State} (hs : s.FaultInv)
include hs

theorem State.FaultInv.withPending (rest : List HostInput) : (s.withPending rest).FaultInv := { hs with }

theorem State.FaultInv.complete : s.complete.FaultInv := { hs with }

/-- A fault of a command is recorded only where no fault of the episode is, and never as that of the capacity check. -/
theorem State.FaultInv.takeFault {op : Nat} {c : Cause} (hr : s.rejects op = false) (hc : c.ofCommand = true) :
    (s.takeFault op c).FaultInv := by
  obtain ⟨hn, hcap⟩ := Cause.ofCommand_iff.1 hc
  have hcap' : s.fault.cause ≠ .capacity := fun h => by simp [State.rejects, h] at hr
  have hbuild := mt hs.capacityBuild.2 hcap'
  cases hf : s.faulted with
  | false => constructor <;> simp [hf, hn, hcap, hbuild]
  | true =>
    have hrec := hs.cause.1 (hs.sticky hf)
    constructor <;> simp [hf, hrec, hcap', hbuild]

/-- A commit leaves FAULT and FAULT_STICKY alone, and it leaves the faulted state only where the capacity check passed. -/
theorem State.FaultInv.commit {i : Instr} {u : State} (hr : s.rejects (opcodeOf i) = false) (h : Commits i s u) :
    u.FaultInv := by
  obtain ⟨hb, -, hf, hst, -, -⟩ := h.keeps
  have hcap : s.fault.cause ≠ .capacity := fun h => by simp [State.rejects, h] at hr
  have hle : u.faulted = true → s.faulted = true := by
    rcases h.faulted with he | ⟨he, -⟩ <;> simp [he]
  constructor
  · exact fun h => hst ▸ hs.sticky (hle h)
  · rw [hf, hst]
    exact hs.cause
  · exact fun h => absurd (hf ▸ h) hcap
  · rw [hf, hb]
    exact hs.capacityBuild

end

/-- Settles O60: every operation of a step keeps the fault registers in agreement. -/
theorem stepKeepsFaultRegisters : Obligations.StepKeepsFaultRegisters := fun _ _ hs h =>
  step_keeps h hs (fun rest hs => hs.withPending rest) (fun _ => State.hardwareReset_faultInv _) State.FaultInv.complete
    (fun hs hr hc => hs.commit hr hc) (fun hs hr hc => hs.takeFault hr hc)

end Sys2Proof.Machine
end

section
/-! PROOFS. What a command counts and which parts of the state it writes; the values after hardware reset. -/

namespace Sys2Proof.Machine

open Sys2Proof

/-! ### Counting commands (10_state.md R42; 60_exceptions.md R337) -/

/-- A command whose effect leaves the count, the completions and the port alone counts once and completes once. -/
theorem command_counts {s t : State} {op : Nat} {effect : State → Except Cause State} (h : command op effect s = .next t)
    (hkeeps : ∀ u, effect s = .ok u → u.cmdcnt = s.cmdcnt ∧ u.completions = s.completions ∧ u.pending = s.pending) :
    t.cmdcnt = s.cmdcnt + 1 ∧ t.completions = s.completions ++ [t.faulted] ∧ t.pending = s.pending := by
  rcases command_cases h with ⟨-, rfl⟩ | ⟨-, u, hu, rfl⟩ | ⟨-, c, -, rfl⟩
  · exact ⟨rfl, rfl, rfl⟩
  · obtain ⟨hn, hc, hp⟩ := hkeeps u hu
    simp [hn, hc, hp]
  · exact ⟨rfl, rfl, rfl⟩

/-- A word taken from the port counts once and completes once, whether or not it decodes. -/
theorem issue_counts {w : CmdWord} {s t : State} (h : issue w s = .next t) :
    t.cmdcnt = s.cmdcnt + 1 ∧ t.completions = s.completions ++ [t.faulted] ∧ t.pending = s.pending := by
  unfold issue at h
  split at h
  · rw [exec_eq_command] at h
    refine command_counts h fun u hu => ?_
    obtain ⟨-, hp, -, -, hn, hc⟩ := (commits_of_effectOf hu).keeps
    exact ⟨hn, hc, hp⟩
  · exact command_counts h fun u hu => nomatch hu

theorem issue_next (w : CmdWord) (s : State) : ∃ t, issue w s = .next t := by
  unfold issue
  split
  · exact exec_next _ _
  · exact command_next _ _ _

theorem step_of_command {s : State} {w : CmdWord} {rest : List HostInput} (h : s.pending = .command w :: rest) :
    step s = issue w (s.withPending rest) := by
  simp only [step, takeInput, h]
  rfl

/-- Settles O8: the word at the port goes through the frame of every command, which counts it. -/
theorem everyCommandCountsAndCompletes : Obligations.EveryCommandCountsAndCompletes := by
  refine ⟨rfl, fun s w rest hp => ?_⟩
  obtain ⟨t, ht⟩ := issue_next w (s.withPending rest)
  obtain ⟨hn, hc, hr⟩ := issue_counts ht
  have hn : t.cmdcnt = s.cmdcnt + 1 := hn
  exact ⟨t, (step_of_command hp).trans ht, hn, by rw [hn]; exact BitVec.toNat_add _ _, hc, hr⟩

/-! ### The writers of each part of the state -/

section
variable {i : Instr} {s t u : State}

theorem Commits.coef_ne (h : Commits i s u) (hne : u.coef ≠ s.coef) : ∃ idx val, i = .coefWrite idx val := by
  cases h with
  | coefWrite => exact ⟨_, _, rfl⟩
  | _ => exact absurd rfl hne

theorem Commits.config_ne (h : Commits i s u) (hne : u.config ≠ s.config) : ∃ a b c d q m, i = .setConfig a b c d q m := by
  cases h with
  | setConfig => exact ⟨_, _, _, _, _, _, rfl⟩
  | _ => exact absurd rfl hne

theorem Commits.slice_ne (h : Commits i s u) (hne : u.slice ≠ s.slice) :
    (∃ st qp r, i = .resetEntropy st qp r) ∨ ∃ st qp r f, i = .updateContextTables st qp r f := by
  cases h with
  | resetEntropy => exact .inl ⟨_, _, _, rfl⟩
  | update => exact .inr ⟨_, _, _, _, rfl⟩
  | _ => exact absurd rfl hne

/-- INIT_CHOICE and the costs behind it (10_state.md R39, R40). -/
def State.initChoice (s : State) : BitVec 2 × Bool × Cost × Cost := (s.initTable, s.initChoiceValid, s.initCostP, s.initCostB)

theorem State.initChoice_ne : t.initChoice ≠ s.initChoice ↔ t.initTable ≠ s.initTable ∨
    t.initChoiceValid ≠ s.initChoiceValid ∨ t.initCostP ≠ s.initCostP ∨ t.initCostB ≠ s.initCostB := by
  simp only [State.initChoice, ne_eq, Prod.mk.injEq, not_and_or]

theorem Commits.initChoice_ne (h : Commits i s u) (hne : u.initChoice ≠ s.initChoice) :
    ∃ st qp, i = .determineInitIndex st qp := by
  cases h with
  | determineI | determine => exact ⟨_, _, rfl⟩
  | _ => exact absurd rfl hne

theorem Commits.snap_ne (h : Commits i s u) (hne : u.snap ≠ s.snap) :
    (∃ k, i = .store k) ∨ ∃ k j p m, i = .snapWrite k j p m := by
  cases h with
  | store => exact .inl ⟨_, rfl⟩
  | snapWrite => exact .inr ⟨_, _, _, _, rfl⟩
  | _ => exact absurd rfl hne

theorem Commits.est_ne (h : Commits i s u) (hne : (u.est, u.estComputed) ≠ (s.est, s.estComputed)) :
    ∃ l2 pl, i = .estRates l2 pl := by
  cases h with
  | estRates => exact ⟨_, _, rfl⟩
  | _ => exact absurd rfl hne

/-- A bank becomes valid, and only by RESET_ENTROPY or LOAD: UPDATE_CONTEXT_TABLES needs it valid (10_state.md R45). -/
theorem Commits.bankValid_ne (h : Commits i s u) (hne : u.bankValid ≠ s.bankValid) :
    s.bankValid = false ∧ ((∃ st qp r, i = .resetEntropy st qp r) ∨ ∃ k, i = .load k) := by
  cases h with
  | resetEntropy => exact ⟨Bool.eq_false_iff.2 (Ne.symm hne), .inl ⟨_, _, _, rfl⟩⟩
  | load => exact ⟨Bool.eq_false_iff.2 (Ne.symm hne), .inr ⟨_, rfl⟩⟩
  | update _ hv => exact absurd hv.symm hne
  | _ => exact absurd rfl hne

/-- END_SEGMENT codes a terminating bin only, which leaves the bank alone (40_context_bank.md R136). -/
theorem Commits.ctx_ne (h : Commits i s u) (hne : u.ctx ≠ s.ctx) :
    i.codesBins = true ∨ (∃ st qp r, i = .resetEntropy st qp r) ∨ (∃ st qp r f, i = .updateContextTables st qp r f) ∨
      (∃ k, i = .load k) ∨ ∃ k g, i = .loadPartial k g := by
  cases h with
  | bins hi => exact .inl hi
  | resetEntropy => exact .inr (.inl ⟨_, _, _, rfl⟩)
  | update => exact .inr (.inr (.inl ⟨_, _, _, _, rfl⟩))
  | load => exact .inr (.inr (.inr (.inl ⟨_, rfl⟩)))
  | loadPartial => exact .inr (.inr (.inr (.inr ⟨_, _, rfl⟩)))
  | endSegment => exact absurd (codeBins_of_no_reg rfl s.ctx) hne
  | _ => exact absurd rfl hne

/-- A part of the state that counting and faulting leave alone is written by a commit, if it is written. -/
theorem exec_writes {α : Type} {f : State → α} (h : exec i s = .next t) (hne : f t ≠ f s)
    (hcomplete : ∀ s, f s.complete = f s := by intros; rfl)
    (hfault : ∀ s op c, f (s.takeFault op c) = f s := by intros; rfl) : ∃ u, Commits i s u ∧ f u ≠ f s := by
  rcases exec_cases h with ⟨-, rfl⟩ | ⟨-, u, hu, rfl⟩ | ⟨-, c, -, rfl⟩
  · exact absurd (hcomplete s) hne
  · exact ⟨u, commits_of_effectOf hu, by rwa [hcomplete] at hne⟩
  · exact absurd ((hcomplete _).trans (hfault s _ c)) hne

theorem exec_build_pending (h : exec i s = .next t) : t.build = s.build ∧ t.pending = s.pending := by
  rcases exec_cases h with ⟨-, rfl⟩ | ⟨-, u, hu, rfl⟩ | ⟨-, c, -, rfl⟩
  · exact ⟨rfl, rfl⟩
  · obtain ⟨hb, hp, -⟩ := (commits_of_effectOf hu).keeps
    exact ⟨hb, hp⟩
  · exact ⟨rfl, rfl⟩

/-- FAULT is written by the first fault of an episode only (10_state.md R41; 60_exceptions.md R332). -/
theorem exec_fault_ne (h : exec i s = .next t) (hne : t.fault ≠ s.fault) :
    s.faulted = false ∧ t.faulted = true ∧ t.fault.opcode = BitVec.ofNat 8 (opcodeOf i) := by
  rcases exec_cases h with ⟨-, rfl⟩ | ⟨-, u, hu, rfl⟩ | ⟨-, c, -, rfl⟩
  · exact absurd rfl hne
  · obtain ⟨-, -, hf, -⟩ := (commits_of_effectOf hu).keeps
    exact absurd hf hne
  · cases hf : s.faulted <;> simp [hf] at hne ⊢

/-- FAULT_STICKY is only ever set (10_state.md R45). -/
theorem exec_faultSticky_ne (h : exec i s = .next t) (hne : t.faultSticky ≠ s.faultSticky) :
    t.faultSticky = true ∧ t.faulted = true := by
  rcases exec_cases h with ⟨-, rfl⟩ | ⟨-, u, hu, rfl⟩ | ⟨-, c, -, rfl⟩
  · exact absurd rfl hne
  · obtain ⟨-, -, -, hf, -⟩ := (commits_of_effectOf hu).keeps
    exact absurd hf hne
  · exact ⟨rfl, rfl⟩

theorem exec_bin (h : exec i s = .next t) : ∃ es, t.bin = s.bin ++ es := by
  rcases exec_cases h with ⟨-, rfl⟩ | ⟨-, u, hu, rfl⟩ | ⟨-, c, -, rfl⟩
  · exact ⟨[], by simp⟩
  · exact (commits_of_effectOf hu).bin
  · exact ⟨[], by simp⟩

end

/-- Settles O16: a part that changed was written by a commit or by a fault, and each kind of commit has its parts. -/
theorem writersOfTheState : Obligations.WritersOfTheState := by
  intro i s t h
  obtain ⟨hbuild, hpending⟩ := exec_build_pending h
  refine ⟨hbuild, hpending, fun hne => ?_, fun hne => ?_, fun hne => ?_, fun hne => ?_, fun hne => ?_, fun hne => ?_,
    fun hne => ?_, fun hne => ?_, exec_fault_ne h, exec_faultSticky_ne h, exec_bin h⟩
  · obtain ⟨_, hu, hne⟩ := exec_writes (f := State.coef) h hne
    exact hu.coef_ne hne
  · obtain ⟨_, hu, hne⟩ := exec_writes (f := State.config) h hne
    exact hu.config_ne hne
  · obtain ⟨_, hu, hne⟩ := exec_writes (f := State.slice) h hne
    exact hu.slice_ne hne
  · obtain ⟨_, hu, hne⟩ := exec_writes (f := State.initChoice) h (State.initChoice_ne.2 hne)
    exact hu.initChoice_ne hne
  · obtain ⟨_, hu, hne⟩ := exec_writes (f := State.snap) h hne
    exact hu.snap_ne hne
  · have hne : (t.est, t.estComputed) ≠ (s.est, s.estComputed) := by simpa only [ne_eq, Prod.mk.injEq, not_and_or] using hne
    obtain ⟨_, hu, hne⟩ := exec_writes (f := fun s => (s.est, s.estComputed)) h hne
    exact hu.est_ne hne
  · obtain ⟨_, hu, hne⟩ := exec_writes (f := State.bankValid) h hne
    exact hu.bankValid_ne hne
  · obtain ⟨_, hu, hne⟩ := exec_writes (f := State.ctx) h hne
    exact hu.ctx_ne hne

/-! ### Hardware reset (10_state.md R47) -/

/-- EST_VALID is 0 after hardware reset, so nothing is claimed of the estimator. -/
theorem State.resetOf_estInv (b : Build) : (State.resetOf b).EstInv where
  fresh := fun h => nomatch h
  computed := fun h => nomatch h

/-- The default build is legal, whatever INIT_VALUE holds. -/
theorem Build.ofInitValue_legal (iv : Nat → Nat → BitVec 8) : (Build.ofInitValue iv).legal = true := by
  have heb : (defaultEbMps.zip defaultEbLps).length = 63 := by decide
  have hp : defaultProbLps.length = 63 := by decide
  simp [Build.legal, Build.ofInitValue, numGroupCtx, heb, hp]

/-- Settles O58: each invariant holds of the reset state of every legal build, and the default build is one. -/
theorem resetMeetsTheInvariants : Obligations.ResetMeetsTheInvariants := fun b hb =>
  ⟨State.resetOf_inv hb, State.resetOf_faultInv b, State.resetOf_estInv b,
    State.resetOf_inv (Build.ofInitValue_legal Config.initValue), State.resetOf_faultInv _, State.resetOf_estInv _⟩

/-- Settles O12: each register reads as its reset value where the capacity check passes. -/
theorem resetValues : Obligations.ResetValues := by
  refine ⟨fun b hc hm => ?_, rfl, by simp [Build.default, Build.ofInitValue, numGroupCtx], rfl⟩
  have hc := Nat.not_lt.2 hc
  refine ⟨?_, ?_, ?_, ?_, ?_, ?_, ?_, ?_, ?_, fun a => rfl, rfl⟩
  · simp [State.regRead, State.statusWord, bitIn, hc]
  · simp [State.regRead, FaultReg.word, hc, Cause.code]
  · simp [State.regRead, ConfigReg.word, State.resetOf, hm, bitIn]
  · simp [State.regRead, SliceReg.word, State.resetOf]
  · simp [State.regRead, State.initChoiceWord, State.resetOf, bitIn]
  · simp [State.regRead, State.resetOf]
  · simp [State.regRead, State.resetOf]
  · simp [State.regRead]
  · intro sl hsl
    rw [List.eq_of_mem_replicate hsl]

end Sys2Proof.Machine
end

section
/-! PROOFS. The command a step runs, the byte form of a 32-bit word, the records of the BIN stream. -/

namespace Sys2Proof.Machine

open Sys2Proof

/-! ### The command port (20_memory.md R74, R82) -/

theorem issue_of_decode {w : CmdWord} {i : Instr} (h : decode w = .ok i) (s : State) : issue w s = exec i s := by
  simp only [issue, h]

/-- Settles O6: the word at the port is issued, and a word that decodes runs its command. -/
theorem stepRunsTheDecodedCommand : Obligations.StepRunsTheDecodedCommand := fun _ _ _ _ hp hd =>
  (step_of_command hp).trans (issue_of_decode hd _)

/-! ### The byte form of a word (20_memory.md R78) -/

theorem bytesOfRegWord_toNat (w : RegWord) : ∃ b0 b1 b2 b3 : BitVec 8, bytesOfRegWord w = [b0, b1, b2, b3] ∧
    w.toNat = b0.toNat + 2 ^ 8 * b1.toNat + 2 ^ 16 * b2.toNat + 2 ^ 24 * b3.toNat := by
  obtain ⟨b0, b1, b2, b3, hb, rfl⟩ := bytesOfRegWord_eq w
  exact ⟨b0, b1, b2, b3, hb, regWordOfBytes_toNat b0 b1 b2 b3⟩

/-! ### The BIN stream (20_memory.md R75) -/

theorem BinEvent.record_reg_toNat (b : Bool) (j : BitVec 9) (p : BitVec 6) (m : Bool) :
    (BinEvent.reg b j p m).record.toNat = 2 + 2 ^ 4 * b.toNat + 2 ^ 5 * j.toNat + 2 ^ 14 * p.toNat + 2 ^ 20 * m.toNat := by
  have := b.toNat_le
  have := m.toNat_le
  simp only [BinEvent.record, bitIn, BitVec.toNat_ofNat]
  omega

theorem BinEvent.record_ep_toNat (b : Bool) : (BinEvent.ep b).record.toNat = 3 + 2 ^ 4 * b.toNat := by cases b <;> rfl

theorem BinEvent.record_trm_toNat (b : Bool) : (BinEvent.trm b).record.toNat = 4 + 2 ^ 4 * b.toNat := by cases b <;> rfl

theorem BinEvent.record_copyTo_toNat (k : BitVec 8) : (BinEvent.copyTo k).record.toNat = 5 + 2 ^ 4 * k.toNat := by
  simp only [BinEvent.record, BitVec.toNat_ofNat]
  omega

theorem BinEvent.record_copyFrom_toNat (k : BitVec 8) : (BinEvent.copyFrom k).record.toNat = 6 + 2 ^ 4 * k.toNat := by
  simp only [BinEvent.record, BitVec.toNat_ofNat]
  omega

/-- The event a record stands for: how the sink reads the table of R75. Kinds 7 to 15, which are never emitted, read as
COPY_FROM. -/
def BinEvent.ofRecord (w : RegWord) : BinEvent :=
  match w.toNat % 2 ^ 4 with
  | 0 => .start
  | 1 => .finish
  | 2 => .reg (w.toNat.testBit 4) (w.extractLsb' 5 9) (w.extractLsb' 14 6) (w.toNat.testBit 20)
  | 3 => .ep (w.toNat.testBit 4)
  | 4 => .trm (w.toNat.testBit 4)
  | 5 => .copyTo (w.extractLsb' 4 8)
  | _ => .copyFrom (w.extractLsb' 4 8)

theorem extractLsb'_eq_of_toNat {w : RegWord} {lo n : Nat} {x : BitVec n} (h : w.toNat / 2 ^ lo % 2 ^ n = x.toNat) :
    w.extractLsb' lo n = x := by
  apply BitVec.eq_of_toNat_eq
  rw [BitVec.extractLsb'_toNat, Nat.shiftRight_eq_div_pow, h]

theorem testBit_eq_of_div_mod {n k : Nat} {b : Bool} (h : n / 2 ^ k % 2 = b.toNat) : n.testBit k = b := by
  rw [Nat.testBit_eq_decide_div_mod_eq, h]
  cases b <;> rfl

/-- The sink recovers every event from its record. -/
theorem BinEvent.ofRecord_record (e : BinEvent) : BinEvent.ofRecord e.record = e := by
  cases e with
  | start | finish => rfl
  | ep b | trm b => cases b <;> rfl
  | reg b j p m =>
    have hw := BinEvent.record_reg_toNat b j p m
    generalize (BinEvent.reg b j p m).record = w at hw
    have := b.toNat_le
    have := m.toNat_le
    have hkind : w.toNat % 2 ^ 4 = 2 := by omega
    have hb : w.toNat.testBit 4 = b := testBit_eq_of_div_mod (by omega)
    have hj : w.extractLsb' 5 9 = j := extractLsb'_eq_of_toNat (by omega)
    have hp : w.extractLsb' 14 6 = p := extractLsb'_eq_of_toNat (by omega)
    have hm : w.toNat.testBit 20 = m := testBit_eq_of_div_mod (by omega)
    simp only [BinEvent.ofRecord, hkind, hj, hp, hb, hm]
  | copyTo k =>
    have hw := BinEvent.record_copyTo_toNat k
    generalize (BinEvent.copyTo k).record = w at hw
    have hkind : w.toNat % 2 ^ 4 = 5 := by omega
    have hk : w.extractLsb' 4 8 = k := extractLsb'_eq_of_toNat (by omega)
    simp only [BinEvent.ofRecord, hkind, hk]
  | copyFrom k =>
    have hw := BinEvent.record_copyFrom_toNat k
    generalize (BinEvent.copyFrom k).record = w at hw
    have hkind : w.toNat % 2 ^ 4 = 6 := by omega
    have hk : w.extractLsb' 4 8 = k := extractLsb'_eq_of_toNat (by omega)
    simp only [BinEvent.ofRecord, hkind, hk]

/-- Settles O57: the fields of a record do not overlap, and the sink reads the event back from it. -/
theorem eventRecords : Obligations.EventRecords :=
  ⟨rfl, rfl, BinEvent.record_reg_toNat, BinEvent.record_ep_toNat, BinEvent.record_trm_toNat, BinEvent.record_copyTo_toNat,
    BinEvent.record_copyFrom_toNat, fun _ _ h => Function.LeftInverse.injective BinEvent.ofRecord_record h,
    fun e => bytesOfRegWord_toNat e.record⟩

end Sys2Proof.Machine
end

section
/-! PROOFS. The REG read map (20_memory.md R72). -/

namespace Sys2Proof.Machine

open Sys2Proof

/-! ### The register words (10_state.md R37 to R45) -/

theorem State.statusWord_toNat (s : State) : s.statusWord.toNat = s.bankValid.toNat + 2 * s.faulted.toNat
    + 4 * s.faultSticky.toNat + 8 * s.estValid.toNat + 16 * s.initChoiceValid.toNat := by
  have := s.bankValid.toNat_le
  have := s.faulted.toNat_le
  have := s.faultSticky.toNat_le
  have := s.estValid.toNat_le
  have := s.initChoiceValid.toNat_le
  simp only [State.statusWord, bitIn, BitVec.toNat_ofNat]
  omega

theorem FaultReg.word_toNat (f : FaultReg) : f.word.toNat = f.cause.code.toNat + 2 ^ 8 * f.opcode.toNat := by
  simp only [FaultReg.word, BitVec.toNat_ofNat]
  omega

theorem ConfigReg.word_toNat (c : ConfigReg) : c.word.toNat = c.sbhEn.toNat + 2 * c.ampEn.toNat + 4 * c.lmEn.toNat
    + 8 * c.disInter4x4.toNat + 2 ^ 8 * c.qpBdOffsetY.toNat + 2 ^ 16 * c.maxLog2Tb.toNat := by
  have := c.sbhEn.toNat_le
  have := c.ampEn.toNat_le
  have := c.lmEn.toNat_le
  have := c.disInter4x4.toNat_le
  simp only [ConfigReg.word, bitIn, BitVec.toNat_ofNat]
  omega

theorem SliceReg.word_toNat (r : SliceReg) :
    r.word.toNat = r.sliceType.toNat + 2 ^ 8 * r.qp.toNat + 2 ^ 16 * r.initType.toNat := by
  simp only [SliceReg.word, BitVec.toNat_ofNat]
  omega

theorem State.initChoiceWord_toNat (s : State) :
    s.initChoiceWord.toNat = s.initTable.toNat + 2 ^ 8 * s.initChoiceValid.toNat := by
  have := s.initChoiceValid.toNat_le
  simp only [State.initChoiceWord, bitIn, BitVec.toNat_ofNat]
  omega

theorem Ctx.word_toNat (x : Ctx) : x.word.toNat = x.pStateIdx.toNat + 2 ^ 6 * x.valMps.toNat := by
  have := x.valMps.toNat_le
  simp only [Ctx.word, bitIn, BitVec.toNat_ofNat]
  omega

/-! ### The SNAP_VALID word -/

/-- The sum behind the SNAP_VALID word, for slots numbered from `n`. -/
def validBits (slots : List Slot) (n : Nat) : Nat := ((slots.zipIdx n).map fun p => bitIn p.1.valid p.2).sum

theorem validBits_cons (sl : Slot) (slots : List Slot) (n : Nat) :
    validBits (sl :: slots) n = sl.valid.toNat * 2 ^ n + validBits slots (n + 1) := by
  simp [validBits, bitIn]

/-- The bits above the first slot's: the word of the slots from `n + 1` on is twice that from `n` on. -/
theorem validBits_succ (slots : List Slot) (n : Nat) : validBits slots (n + 1) = 2 * validBits slots n := by
  induction slots generalizing n with
  | nil => rfl
  | cons sl slots ih =>
    rw [validBits_cons, validBits_cons, ih (n + 1), Nat.pow_succ]
    ring

theorem validBits_testBit (slots : List Slot) (k : Nat) :
    (validBits slots 0).testBit k = (slots[k]?.map Slot.valid).getD false := by
  induction slots generalizing k with
  | nil => exact Nat.zero_testBit k
  | cons sl slots ih =>
    have hbit : validBits (sl :: slots) 0 = Nat.bit sl.valid (validBits slots 0) := by
      rw [validBits_cons, validBits_succ, Nat.bit_val, Nat.pow_zero, Nat.mul_one, Nat.add_comm]
    rw [hbit]
    cases k with
    | zero => exact Nat.testBit_bit_zero _ _
    | succ k => exact (Nat.testBit_bit_succ k _ _).trans (ih k)

theorem State.snapValidWord_getLsbD (s : State) {k : Nat} (hk : k < 32) :
    s.snapValidWord.getLsbD k = (s.snap[k]?.map Slot.valid).getD false := by
  rw [State.snapValidWord, BitVec.getLsbD_ofNat, ← validBits, validBits_testBit]
  simp [hk]

/-! ### The estimator words (20_memory.md R72) -/

theorem pairWord_two_mul_add (t : List (Cost × Cost)) (c : Nat) (b : Bool) :
    pairWord t (2 * c + b.toNat) = if b then (t.getD c (0, 0)).2 else (t.getD c (0, 0)).1 := by
  cases b
  · simp [pairWord]
  · have hodd : (2 * c + 1) % 2 = 1 := by omega
    have hdiv : (2 * c + 1) / 2 = c := by omega
    simp [pairWord, hodd, hdiv]

/-- The six tables of pairs: first word address, number of contexts, contents. -/
def EstTables.pairTables (t : EstTables) : List (Nat × Nat × List (Cost × Cost)) :=
  [(0x200, 10, t.cbf), (0x214, 1, t.rootCbf), (0x216, 4, t.sigGroup), (0x21E, 42, t.sig), (0x272, 24, t.gt1),
    (0x2A2, 6, t.gt2)]

/-- The two tables of LAST costs: first word address, contents. -/
def EstTables.lastTables (t : EstTables) : List (Nat × List Cost) := [(0x2AE, t.lastX), (0x2B8, t.lastY)]

theorem EstTables.word_pairTables (t : EstTables) :
    ∀ e ∈ t.pairTables, ∀ k < 2 * e.2.1, t.word (e.1 + k) = pairWord e.2.2 k := by
  simp only [EstTables.pairTables, List.forall_mem_cons, List.not_mem_nil, false_imp_iff, implies_true, and_true]
  refine ⟨?_, ?_, ?_, ?_, ?_, ?_⟩ <;> intro k hk <;>
    simp (disch := omega) only [EstTables.word, if_pos, if_neg, Nat.add_sub_cancel_left]

theorem EstTables.word_lastTables (t : EstTables) :
    ∀ e ∈ t.lastTables, ∀ g < 10, t.word (e.1 + g) = e.2.getD g 0 := by
  simp only [EstTables.lastTables, List.forall_mem_cons, List.not_mem_nil, false_imp_iff, implies_true, and_true]
  refine ⟨?_, ?_⟩ <;> intro g hg <;>
    simp (disch := omega) only [EstTables.word, if_pos, if_neg, Nat.add_sub_cancel_left]

/-- Every table of pairs lies in the estimator words. -/
theorem EstTables.pairTables_range (t : EstTables) : ∀ e ∈ t.pairTables, 0x200 ≤ e.1 ∧ e.1 + 2 * e.2.1 ≤ 0x2C2 := by
  simp [EstTables.pairTables]

theorem EstTables.lastTables_range (t : EstTables) : ∀ e ∈ t.lastTables, 0x200 ≤ e.1 ∧ e.1 + 10 ≤ 0x2C2 := by
  simp [EstTables.lastTables]

/-! ### The ranges of the read map -/

section
variable {s : State} {a : BitVec 12}

theorem State.regRead_ctx {i : Nat} (hi : i < s.build.numCtx) (ha : a.toNat = 0x100 + i) (hv : s.bankValid = true) :
    s.regRead a = (ctxAt s.ctx i).word := by
  simp (disch := omega) only [State.regRead, ha, if_pos, if_neg, hv, Nat.add_sub_cancel_left]
  rfl

theorem State.regRead_est (hn : s.build.numCtx ≤ 256) (ha : 0x200 ≤ a.toNat ∧ a.toNat < 0x2C2)
    (hc : s.estComputed = true) : s.regRead a = s.est.word a.toNat := by
  simp (disch := omega) only [State.regRead, if_pos, if_neg, hc, if_true]

theorem State.regRead_unlisted (ha : (0x009 ≤ a.toNat ∧ a.toNat < 0x100) ∨
    (0x100 + s.build.numCtx ≤ a.toNat ∧ a.toNat < 0x200) ∨ 0x2C2 ≤ a.toNat) (hn : s.build.numCtx ≤ 256) :
    s.regRead a = 0 := by
  simp (disch := omega) only [State.regRead, if_neg]

end

theorem Build.numCtx_le_of_legal {b : Build} (h : b.legal = true) : b.numCtx ≤ 256 := by
  simp only [Build.legal, Bool.and_eq_true, decide_eq_true_eq] at h
  omega

/-- Settles O56: each range of the read map by its lemma; a legal bank ends below the estimator words. -/
theorem regMap : Obligations.RegMap := by
  intro s a hs
  have hn := Build.numCtx_le_of_legal hs.build
  refine ⟨?_, ?_, ?_, ?_, ?_, ?_, ?_, ?_, ?_, fun i hi ha hv => ?_,
    fun hc => ⟨fun t ht c hlt b ha => ?_, fun t ht g hg ha => ?_⟩, fun ha => State.regRead_unlisted ha hn, bytesOfRegWord_toNat _⟩
  · rintro rfl
    exact s.statusWord_toNat
  · rintro rfl
    exact s.fault.word_toNat
  · rintro rfl
    exact s.config.word_toNat
  · rintro rfl
    exact s.slice.word_toNat
  · rintro rfl
    exact s.initChoiceWord_toNat
  · rintro rfl
    rfl
  · rintro rfl
    rfl
  · rintro rfl
    rfl
  · rintro rfl k hk
    exact s.snapValidWord_getLsbD hk
  · rw [State.regRead_ctx hi ha hv, Ctx.word_toNat]
  · obtain ⟨hlo, hhi⟩ := s.est.pairTables_range t ht
    have hb := b.toNat_le
    rw [State.regRead_est hn (by omega) hc, ha, Nat.add_assoc, s.est.word_pairTables t ht _ (by omega), pairWord_two_mul_add]
  · obtain ⟨hlo, hhi⟩ := s.est.lastTables_range t ht
    rw [State.regRead_est hn (by omega) hc, ha, s.est.word_lastTables t ht g hg]

end Sys2Proof.Machine
end

section
/-! PROOFS. The path of a bank from one block to another (20_memory.md R83; 40_context_bank.md R143, R144, R146). -/

namespace Sys2Proof.Machine

open Sys2Proof

/-! ### Runs of commands -/

theorem runAll_cons {i : Instr} {s t : State} (h : exec i s = .next t) (is : List Instr) :
    runAll (i :: is) s = runAll is t := by
  simp only [runAll, h]

theorem runAll_append {is js : List Instr} {s t : State} (h : runAll is s = some t) :
    runAll (is ++ js) s = runAll js t := by
  induction is generalizing s with
  | nil =>
    cases h
    rfl
  | cons i is ih =>
    obtain ⟨u, hu⟩ := exec_next i s
    rw [List.cons_append, runAll_cons hu]
    exact ih (runAll_cons hu is ▸ h)

/-! ### Snapshot commands that commit -/

/-- A command whose checks pass, on a block that takes commands. -/
theorem exec_of_ok {i : Instr} {s u : State} (hs : s.takes) (h : effectOf i s = .ok u) : exec i s = .next u.complete :=
  (exec_eq_command i s).trans (command_of_ok (hs.not_rejects _) h)

theorem exec_store {s : State} {k : Nat} (hs : s.ready) (hk : k < s.build.numSnapshots) :
    exec (.store k) s = .next ((s.setSlot k s.ctx).emit [.copyTo (BitVec.ofNat 8 k)]).complete :=
  exec_of_ok hs.1 (by
    simp only [effectOf, effectStore]
    exact needBank_ok.2 ⟨hs.2, unlessFault_ok.2 ⟨decide_eq_false (by omega), rfl⟩⟩)

theorem exec_load {s : State} {k : Nat} {bank : List Ctx} (hs : s.takes) (hk : s.validSlot k = some bank) :
    exec (.load k) s = .next ((s.setBank bank).emit [.copyFrom (BitVec.ofNat 8 k)]).complete :=
  exec_of_ok hs (by simp only [effectOf, effectLoad, hk])

theorem exec_snapWrite {s : State} {k i p : Nat} {m : Bool} {bank : List Ctx} (hs : s.takes)
    (hk : s.validSlot k = some bank) (hi : i < s.build.numCtx) (hp : p ≤ 62) :
    exec (.snapWrite k i p m) s = .next (s.setSlot k (bank.set i ⟨BitVec.ofNat 6 p, m⟩)).complete :=
  exec_of_ok hs (by
    simp only [effectOf, effectSnapWrite, hk]
    exact unlessFault_ok.2 ⟨by simp; omega, rfl⟩)

/-- A slot holds what was last written to it. -/
theorem State.validSlot_setSlot {s : State} {k : Nat} (hk : k < s.build.numSnapshots)
    (hlen : s.snap.length = s.build.numSnapshots) (bank : List Ctx) : (s.setSlot k bank).validSlot k = some bank :=
  State.validSlot_eq_some.2 ⟨hk, by simp [hlen, hk]⟩

/-! ### One SNAP_WRITE per context -/

/-- SNAP_WRITE of the context `x` to entry `i` of slot `k`. -/
def snapWriteOf (k : Nat) (x : Ctx) (i : Nat) : Instr := .snapWrite k i x.pStateIdx.toNat x.valMps

/-- SNAP_WRITE writes the context its operands name. -/
theorem exec_snapWriteOf {s : State} {k i : Nat} {x : Ctx} {bank : List Ctx} (hs : s.takes)
    (hk : s.validSlot k = some bank) (hi : i < s.build.numCtx) (hx : x.inRange) :
    exec (snapWriteOf k x i) s = .next (s.setSlot k (bank.set i x)).complete := by
  rw [snapWriteOf, exec_snapWrite hs hk hi hx, BitVec.ofNat_toNat, BitVec.setWidth_eq]

/-- The state after `n` SNAP_WRITEs that leave `bank` in slot `k`. -/
def State.afterSnapWrites (s : State) (k : Nat) (bank : List Ctx) (n : Nat) : State :=
  { s with
    snap := s.snap.set k ⟨true, bank⟩
    cmdcnt := s.cmdcnt + BitVec.ofNat 32 n
    completions := s.completions ++ List.replicate n s.faulted }

theorem State.afterSnapWrites_zero {s : State} {k : Nat} {bank : List Ctx} (h : s.validSlot k = some bank) :
    s.afterSnapWrites k bank 0 = s := by
  obtain ⟨hlt, hsl⟩ := List.getElem?_eq_some_iff.1 (State.validSlot_eq_some.1 h).2
  simp [State.afterSnapWrites, ← hsl]

theorem State.afterSnapWrites_succ (s : State) (k : Nat) (bank bank' : List Ctx) (n : Nat) :
    (s.setSlot k bank).complete.afterSnapWrites k bank' n = s.afterSnapWrites k bank' (n + 1) := by
  simp [State.afterSnapWrites, State.setSlot, State.complete, List.replicate_succ, BitVec.ofNat_add]
  ac_rfl

/-- The contexts `todo`, written one by one behind the entries `done` of a slot, take the place of the entries there. -/
theorem runAll_snapWrites {k : Nat} {todo done old : List Ctx} {s : State} (hs : s.takes)
    (hk : s.validSlot k = some (done ++ old)) (hlen : s.snap.length = s.build.numSnapshots)
    (hold : old.length = todo.length) (hn : done.length + todo.length = s.build.numCtx) (ht : ∀ x ∈ todo, x.inRange) :
    runAll ((todo.zipIdx done.length).map fun p => snapWriteOf k p.1 p.2) s =
      some (s.afterSnapWrites k (done ++ todo) todo.length) := by
  induction todo generalizing done old s with
  | nil =>
    rw [List.length_eq_zero_iff.1 hold] at hk
    rw [List.length_nil, State.afterSnapWrites_zero hk]
    rfl
  | cons x todo ih =>
    obtain ⟨y, old, rfl⟩ := List.exists_of_length_succ _ hold
    obtain ⟨hx, ht⟩ := List.forall_mem_cons.1 ht
    have hset : (done ++ y :: old).set done.length x = (done ++ [x]) ++ old := by simp
    have hexec := exec_snapWriteOf hs hk (i := done.length) (by simp at hn; omega) hx
    rw [hset] at hexec
    have hrest := ih (done := done ++ [x]) (old := old) (s := (s.setSlot k (done ++ [x] ++ old)).complete) hs
      (State.validSlot_setSlot (State.validSlot_eq_some.1 hk).1 hlen _) (by simpa using hlen) (by simpa using hold)
      (by simp at hn ⊢; omega) ht
    rw [State.afterSnapWrites_succ] at hrest
    rw [List.zipIdx_cons, List.map_cons, runAll_cons hexec]
    simpa using hrest

/-- Writing every context of `bank` to a valid slot and loading the slot makes `bank` the live bank. -/
theorem runAll_snapWrites_load {k : Nat} {bank old : List Ctx} {s : State} (hs : s.takes) (hk : s.validSlot k = some old)
    (hlen : s.snap.length = s.build.numSnapshots) (hold : bankOk s.build.numCtx old) (hb : bankOk s.build.numCtx bank) :
    runAll ((bank.zipIdx.map fun p => snapWriteOf k p.1 p.2) ++ [.load k]) s =
      some (((s.afterSnapWrites k bank bank.length).setBank bank).emit [.copyFrom (BitVec.ofNat 8 k)]).complete := by
  have hwrites := runAll_snapWrites (done := []) hs hk hlen (hold.1.trans hb.1.symm) ((Nat.zero_add _).trans hb.1) hb.2
  have hslot : (s.afterSnapWrites k bank bank.length).validSlot k = some bank :=
    State.validSlot_setSlot (State.validSlot_eq_some.1 hk).1 hlen bank
  have hload := exec_load (s := s.afterSnapWrites k bank bank.length) hs hslot
  exact (runAll_append hwrites).trans (runAll_cons hload [])

/-- Settles O29: STORE makes the slot valid, the SNAP_WRITEs fill it with the other bank, LOAD takes it. -/
theorem bankTravelsBetweenInstances : Obligations.BankTravelsBetweenInstances := by
  intro k a s hs hinv ha hk writes
  have hslot := State.validSlot_setSlot hk hinv.slots s.ctx
  have hlen : (s.setSlot k s.ctx).snap.length = s.build.numSnapshots := by simpa using hinv.slots
  have hrun := runAll_snapWrites_load (s := ((s.setSlot k s.ctx).emit [.copyTo (BitVec.ofNat 8 k)]).complete)
    hs.1 hslot hlen hinv.ctx ha
  refine ⟨_, (runAll_cons (exec_store hs hk) _).trans hrun, rfl, rfl, hs.1.1, ?_, ?_⟩
  · simp [State.afterSnapWrites]
  · simp only [State.afterSnapWrites, State.complete_cmdcnt, State.emit_cmdcnt, State.setBank_cmdcnt,
      State.setSlot_cmdcnt, ha.1, BitVec.ofNat_add]
    ac_rfl

end Sys2Proof.Machine
end

section
/-! PROOFS. Decoding and encoding (30_encoding.md R90 to R98). -/

namespace Sys2Proof.Machine

open Sys2Proof

/-- The mask of defined bits of opcode `op` (30_encoding.md R95). -/
def definedMask (op : Nat) : Nat := r95Masks.getD (r93Opcodes.idxOf op) 0

theorem definedMask_lt {op : Nat} (h : op ∈ r93Opcodes) : definedMask op < 2 ^ 56 := by
  revert h op
  decide

/-! ### Fields put back: the operand bits of what a row reads (R94, R98) -/

theorem placeU_bitsAt (n lo width : Nat) : placeU (bitsAt n lo width) lo width = n &&& runMask lo width := by
  apply Nat.eq_of_testBit_eq
  intro b
  simp only [placeU, runMask, bitsAt, Nat.mod_mod, Nat.testBit_and, Nat.testBit_mul_two_pow, Nat.testBit_two_pow_sub_one,
    Nat.testBit_mod_two_pow, Nat.testBit_div_two_pow]
  by_cases hb : lo ≤ b
  · simp [hb, Bool.and_comm]
  · simp [hb]

theorem placeB_eq_placeU (v : Bool) (lo : Nat) : placeB v lo = placeU v.toNat lo 1 := by
  cases v <;> rfl

theorem placeS_signedAt (n lo width : Nat) : placeS (signedAt n lo width) lo width = n &&& runMask lo width := by
  rw [placeS, signedAt, toNat_signExtend_emod (bitsAt_lt n lo width), ← placeU_bitsAt, placeU,
    Nat.mod_eq_of_lt (bitsAt_lt n lo width)]

theorem placeB_flagAt (n lo : Nat) : placeB (flagAt n lo) lo = n &&& runMask lo 1 := by
  rw [placeB_eq_placeU, toNat_flagAt, placeU_bitsAt]

/-- The fields of a command lie above each other, so their sum is a union of bits. -/
theorem and_add_and_runMask {m lo : Nat} (n width : Nat) (h : m < 2 ^ lo) :
    (n &&& m) + (n &&& runMask lo width) = n &&& (m ||| runMask lo width) := by
  have hlt : n &&& m < 2 ^ lo := Nat.lt_of_le_of_lt Nat.and_le_right h
  rw [Nat.and_or_distrib_left, ← placeU_bitsAt, placeU, Nat.mul_comm, Nat.add_comm, Nat.or_comm,
    Nat.two_pow_add_eq_or_of_lt hlt]

theorem fitsU_bitsAt (n lo width : Nat) : fitsU width (bitsAt n lo width) = true :=
  decide_eq_true (bitsAt_lt n lo width)

theorem fitsS_signedAt (n lo : Nat) {width : Nat} (h : 0 < width) : fitsS width (signedAt n lo width) = true :=
  signExtend_fits h (bitsAt_lt n lo width)

/-! ### The rows of the opcode map -/

/-- A row of the opcode map: the mask of R95 for `op`, and a well-formed command of `op` whose operand bits are the
defined bits of the word. -/
def IsRow (op n : Nat) (r : Except DecodeError Instr) : Prop :=
  ∃ i, opcodeOf i = op ∧ i.wf = true ∧ payloadOf i = n &&& definedMask op ∧ r = row (definedMask op) n i

theorem isRow_row {op mask n : Nat} {i : Instr} (ho : opcodeOf i = op) (hm : definedMask op = mask) (hw : i.wf = true)
    (hp : payloadOf i = n &&& mask) : IsRow op n (row mask n i) := ⟨i, ho, hw, hm ▸ hp, hm ▸ rfl⟩

/-- What the decoder does: it refuses an opcode outside R93, and reads another by its row of the opcode map. -/
theorem decode_cases (w : CmdWord) :
    w.toNat / 2 ^ 56 ∉ r93Opcodes ∧ decode w = .error .illegalOpcode ∨
    w.toNat / 2 ^ 56 ∈ r93Opcodes ∧ IsRow (w.toNat / 2 ^ 56) w.toNat (decode w) := by
  unfold decode
  dsimp only
  generalize w.toNat / 2 ^ 56 = op
  generalize w.toNat = n
  split
  case h_35 =>
    refine .inl ⟨fun h => ?_, rfl⟩
    fin_cases h <;> contradiction
  all_goals
    refine .inr ⟨by decide, isRow_row rfl rfl ?_ ?_⟩
    · simp [Instr.wf, fitsU_bitsAt, fitsS_signedAt]
    · simp (disch := decide) only [payloadOf, placeU_bitsAt, placeS_signedAt, placeB_flagAt, and_add_and_runMask,
        Nat.and_zero] <;> rfl

/-! ### A command is read back from its word (R98) -/

/-- Fields above a field do not touch it. -/
theorem bitsAt_add_mul_of_le {lo width hi : Nat} (h : lo + width ≤ hi) (a x : Nat) :
    bitsAt (a + x * 2 ^ hi) lo width = bitsAt a lo width := by
  obtain ⟨k, rfl⟩ := Nat.exists_eq_add_of_le h
  have hx : x * 2 ^ (lo + width + k) = 2 ^ lo * (2 ^ width * (x * 2 ^ k)) := by ring
  rw [bitsAt, hx, Nat.add_mul_div_left _ _ (Nat.two_pow_pos lo), Nat.add_mul_mod_self_left, bitsAt]

/-- Fields below a field do not touch it. -/
theorem bitsAt_add_mul_same {a lo : Nat} (h : a < 2 ^ lo) (x width : Nat) :
    bitsAt (a + x * 2 ^ lo) lo width = x % 2 ^ width := by
  rw [bitsAt, Nat.add_mul_div_right _ _ (Nat.two_pow_pos lo), Nat.div_eq_of_lt h, Nat.zero_add]

theorem bitsAt_mul_same (x lo width : Nat) : bitsAt (x * 2 ^ lo) lo width = x % 2 ^ width := by
  rw [bitsAt, Nat.mul_div_cancel _ (Nat.two_pow_pos lo)]

theorem bitsAt_encode {lo width : Nat} (h : lo + width ≤ 56) (i : Instr) :
    bitsAt (encode i).toNat lo width = bitsAt (payloadOf i) lo width := by
  rw [encode_toNat, Nat.add_comm, bitsAt_add_mul_of_le h]

theorem mod_of_fitsU {width v : Nat} (h : fitsU width v = true) : v % 2 ^ width = v :=
  Nat.mod_eq_of_lt (of_decide_eq_true h)

theorem signExtend_of_fitsS {width : Nat} {v : Int} (h : fitsS width v = true) (hw : 0 < width) :
    signExtend width ((v % 2 ^ width).toNat % 2 ^ width) = v := by
  obtain ⟨hlo, hhi⟩ := of_decide_eq_true h
  have hlt : (v % 2 ^ width).toNat < 2 ^ width :=
    (Int.toNat_lt' (by positivity)).2 (by exact_mod_cast Int.emod_lt_of_pos v (by positivity))
  rw [Nat.mod_eq_of_lt hlt, signExtend_toNat_emod hw hlo hhi]

theorem toNat_mod_two_beq_one (v : Bool) : (v.toNat % 2 ^ 1 == 1) = v := by
  cases v <;> rfl

/-- The row of a command reads every field of its word back: the fields above fall away, those below divide out, and the
value fits. -/
theorem decode_encode_eq_row {i : Instr} (h : i.wf = true) :
    decode (encode i) = row (definedMask (opcodeOf i)) (encode i).toNat i := by
  unfold decode
  dsimp only
  rw [encode_opcode]
  cases i
  case endSegment => rfl
  all_goals
    simp only [Instr.wf, Bool.and_eq_true] at h
    simp (disch := omega) only [opcodeOf, flagAt, signedAt, bitsAt_encode, payloadOf, placeU, placeS,
      placeB_eq_placeU, bitsAt_add_mul_of_le, bitsAt_add_mul_same, bitsAt_mul_same, Nat.mod_mod]
    simp only [mod_of_fitsU, signExtend_of_fitsS, toNat_mod_two_beq_one, Nat.reduceLT, *]
    rfl

/-- The word of every command has its opcode and only defined bits: the family OpcodeByte (30_encoding.md R95). -/
theorem encode_opcodeByte : ∀ i : Instr, Laws.OpcodeByte.Statement i
  | .resetEntropy _ _ _ => Laws.OpcodeByte.resetEntropy _ _ _
  | .determineInitIndex _ _ => Laws.OpcodeByte.determineInitIndex _ _
  | .updateContextTables _ _ _ _ => Laws.OpcodeByte.updateContextTables _ _ _ _
  | .endSegment => Laws.OpcodeByte.endSegment
  | .setConfig _ _ _ _ _ _ => Laws.OpcodeByte.setConfig _ _ _ _ _ _
  | .store _ => Laws.OpcodeByte.store _
  | .load _ => Laws.OpcodeByte.load _
  | .loadPartial _ _ => Laws.OpcodeByte.loadPartial _ _
  | .snapWrite _ _ _ _ => Laws.OpcodeByte.snapWrite _ _ _ _
  | .splitFlag _ _ _ _ _ _ _ => Laws.OpcodeByte.splitFlag _ _ _ _ _ _ _
  | .skipFlag _ _ _ _ _ => Laws.OpcodeByte.skipFlag _ _ _ _ _
  | .mergeFlag _ => Laws.OpcodeByte.mergeFlag _
  | .mergeIdx _ _ => Laws.OpcodeByte.mergeIdx _ _
  | .partSize _ _ _ _ _ => Laws.OpcodeByte.partSize _ _ _ _ _
  | .predMode _ => Laws.OpcodeByte.predMode _
  | .intraDirLuma _ _ _ _ => Laws.OpcodeByte.intraDirLuma _ _ _ _
  | .intraDirChroma _ => Laws.OpcodeByte.intraDirChroma _
  | .interDir _ _ _ => Laws.OpcodeByte.interDir _ _ _
  | .refIdx _ _ => Laws.OpcodeByte.refIdx _ _
  | .mvd _ _ => Laws.OpcodeByte.mvd _ _
  | .deltaQp _ => Laws.OpcodeByte.deltaQp _
  | .qtCbf _ _ _ => Laws.OpcodeByte.qtCbf _ _ _
  | .qtRootCbf _ => Laws.OpcodeByte.qtRootCbf _
  | .transSubdiv _ _ => Laws.OpcodeByte.transSubdiv _ _
  | .termBin _ => Laws.OpcodeByte.termBin _
  | .alfFlag _ => Laws.OpcodeByte.alfFlag _
  | .alfUvlc _ => Laws.OpcodeByte.alfUvlc _
  | .alfSvlc _ => Laws.OpcodeByte.alfSvlc _
  | .saoFlag _ => Laws.OpcodeByte.saoFlag _
  | .saoUvlc _ => Laws.OpcodeByte.saoUvlc _
  | .saoSvlc _ => Laws.OpcodeByte.saoSvlc _
  | .coefWrite _ _ => Laws.OpcodeByte.coefWrite _ _
  | .codeCoeff _ _ _ _ => Laws.OpcodeByte.codeCoeff _ _ _ _
  | .estRates _ _ => Laws.OpcodeByte.estRates _ _

theorem encode_reserved (i : Instr) : reservedBitsOf (definedMask (opcodeOf i)) (encode i).toNat = 0 := by
  obtain ⟨-, hop, hdef⟩ := encode_opcodeByte i
  exact (reservedBitsOf_eq_zero_iff (definedMask_lt hop) _).2 hdef

/-- Settles O1: the row of the command reads every field back, and no reserved bit is set. -/
theorem decodeOfEncode : Obligations.DecodeOfEncode := fun i h =>
  (decode_encode_eq_row h).trans (row_ok.2 ⟨encode_reserved i, rfl⟩)

/-! ### A word is the word of the command it decodes to -/

/-- With no reserved bit set, the defined bits are all the bits below the opcode. -/
theorem and_mask_of_reserved {mask n : Nat} (hm : mask < 2 ^ 56) (h : reservedBitsOf mask n = 0) :
    n &&& mask = n % 2 ^ 56 := by
  have hbits := (reservedBitsOf_eq_zero_iff hm n).1 h
  apply Nat.eq_of_testBit_eq
  intro b
  rw [Nat.testBit_and, Nat.testBit_mod_two_pow]
  by_cases hb : b < 56
  · cases hn : n.testBit b
    · simp
    · simp [hb, hbits b hb hn]
  · have : mask.testBit b = false :=
      Nat.testBit_lt_two_pow (Nat.lt_of_lt_of_le hm (Nat.pow_le_pow_right (by decide) (Nat.le_of_not_lt hb)))
    simp [hb, this]

/-- Settles O2: the operand bits of the decoded command are the defined bits of the word, and there are no others. -/
theorem encodeOfDecode : Obligations.EncodeOfDecode := by
  intro w i h
  rcases decode_cases w with ⟨-, he⟩ | ⟨hop, j, hj, hw, hp, hrow⟩
  · rw [he] at h
    cases h
  · rw [hrow] at h
    obtain ⟨hr, rfl⟩ := row_ok.1 h
    refine ⟨BitVec.eq_of_toNat_eq ?_, hw⟩
    rw [encode_toNat, hj, hp, and_mask_of_reserved (definedMask_lt hop) hr, Nat.div_add_mod']

/-! ### The words the decoder accepts -/

theorem reservedBitsOf_definedMask {op : Nat} (h : op ∈ r93Opcodes) (n : Nat) :
    reservedBitsOf (definedMask op) n = 0 ↔ ∀ b < 56, n.testBit b = true → definedBit op b = true :=
  reservedBitsOf_eq_zero_iff (definedMask_lt h) n

/-- Settles O3: the reserved bits of a listed opcode are those outside its mask. -/
theorem decoderAcceptsExactly : Obligations.DecoderAcceptsExactly := by
  intro w
  have hw := decode_cases w
  generalize w.toNat / 2 ^ 56 = op at hw ⊢
  rcases hw with ⟨hop, hd⟩ | ⟨hop, i, hi, -, -, hd⟩
  · simp [hd, hop]
  · have hr := reservedBitsOf_definedMask hop w.toNat
    refine ⟨?_, ?_, ?_⟩
    · simp [hd, row_error, hop]
    · simp [hd, row_error, hr, hop]
    · simp only [hd, row_ok, ← hr, hop, true_and]
      exact ⟨fun ⟨_, hj, _⟩ => hj.1, fun h => ⟨i, ⟨h, rfl⟩, hi⟩⟩

/-- Settles O4: each word is decoded by evaluation. -/
theorem wordsOfTheSpecDecode : Obligations.WordsOfTheSpecDecode := by
  unfold Obligations.WordsOfTheSpecDecode
  decide

end Sys2Proof.Machine
end

section
/-! PROOFS. The faults that come before the effect of a command (30_encoding.md R91, R92, R96). -/

namespace Sys2Proof.Machine

open Sys2Proof

/-- A block whose capacity check passed takes a command if it is not faulted or the command is RESET_ENTROPY
(30_encoding.md R96 step 1). -/
theorem rejects_eq_false {s : State} {op : Nat} (hc : s.fault.cause ≠ .capacity) (hf : s.faulted = true → op = 0x01) :
    s.rejects op = false := by
  simpa [State.rejects, hc] using hf

theorem opcodeByte_toNat (w : CmdWord) : (opcodeByte w).toNat = w.toNat / 2 ^ 56 := by
  rw [opcodeByte, BitVec.toNat_ofNat]
  omega

/-- A word that does not decode, taken by a block that does not reject it, faults (30_encoding.md R91, R92). -/
theorem step_of_decode_error {s : State} {w : CmdWord} {rest : List HostInput} {e : DecodeError}
    (hp : s.pending = .command w :: rest) (hr : s.rejects (w.toNat / 2 ^ 56) = false) (hd : decode w = .error e) :
    step s = .next ((s.withPending rest).afterFault (w.toNat / 2 ^ 56) (causeOfDecodeError e)) := by
  rw [← opcodeByte_toNat] at hr ⊢
  rw [step_of_command hp, issue, hd]
  exact command_of_error hr rfl

/-- Settles O5: the decoder names what the word breaks, and the block takes that fault. -/
theorem wordsThatAreNoCommandFault : Obligations.WordsThatAreNoCommandFault := by
  intro s w rest hp hc hf
  have hr := rejects_eq_false hc hf
  obtain ⟨hillegal, hreserved, -⟩ := decoderAcceptsExactly w
  exact ⟨fun hop => step_of_decode_error hp hr (hillegal.2 hop),
    fun b hb hop hbit hdef => step_of_decode_error hp hr (hreserved.2 ⟨hop, b, hb, hbit, hdef⟩)⟩

/-- Slice type 3 faults whatever the bank (30_encoding.md R96 step 4). -/
theorem effectOf_of_sliceTypeIs3 {i : Instr} (h : i.sliceTypeIs3 = true) (s : State) :
    effectOf i s = .error .badSliceType := by
  cases i with
  | resetEntropy | determineInitIndex | updateContextTables => exact unlessFault_error.2 (.inl ⟨h, rfl⟩)
  | _ => cases h

/-- Without a valid bank, a command that needs it faults before its own checks (30_encoding.md R96 step 5). -/
theorem effectOf_of_no_bank {i : Instr} {s : State} (h3 : i.sliceTypeIs3 = false) (hv : s.bankValid = false)
    (hi : i.needsNoBank = false) : effectOf i s = .error .notInitialised := by
  by_cases hb : i.codesBins = true
  · rw [effectOf_of_codesBins hb]
    exact coding_error.2 (.inl ⟨hv, rfl⟩)
  · cases i with
    | determineInitIndex | updateContextTables =>
      exact unlessFault_error.2 (.inr ⟨h3, needBank_of_invalid hv⟩)
    | endSegment | store | loadPartial | estRates =>
      simp only [effectOf, effectEndSegment, effectStore, effectLoadPartial, effectEstRates]
      exact needBank_of_invalid hv
    | resetEntropy | setConfig | load | snapWrite | coefWrite => cases hi
    | _ => exact absurd rfl hb

/-- Settles O15: both checks come before the own checks of every command that has them. -/
theorem checksBeforeTheEffect : Obligations.ChecksBeforeTheEffect := by
  intro i s hc hf
  have hr := rejects_eq_false hc hf
  rw [exec_eq_command]
  exact ⟨fun h3 => command_of_error hr (effectOf_of_sliceTypeIs3 h3 s),
    fun h3 hv hi => command_of_error hr (effectOf_of_no_bank h3 hv hi)⟩

end Sys2Proof.Machine
end

section
/-! PROOFS. Regular bins, initialisation and the commands that write the bank (40_context_bank.md R130 to R142, R150). -/

namespace Sys2Proof.Machine

open Sys2Proof

/-! ### Coding one bin (R134, R135) -/

theorem ctxAt_of_getElem? {bank : List Ctx} {i : Nat} {x : Ctx} (h : bank[i]? = some x) : ctxAt bank i = x := by
  rw [ctxAt, List.getD_eq_getElem?_getD, h, Option.getD_some]

theorem Ctx.update_mps (x : Ctx) : (x.update x.valMps).pStateIdx.toNat = min (x.pStateIdx.toNat + 1) 62 ∧
    (x.update x.valMps).valMps = x.valMps := by
  simp only [Ctx.update, if_true, transIdxMps, BitVec.toNat_ofNat, and_true]
  omega

theorem Ctx.update_lps {x : Ctx} {b : Bool} (hx : x.inRange) (hb : b ≠ x.valMps) :
    some (x.update b).pStateIdx.toNat = transIdxLps[x.pStateIdx.toNat]? ∧
    (x.update b).valMps = if x.pStateIdx = 0 then !x.valMps else x.valMps := by
  have hlt : x.pStateIdx.toNat < transIdxLps.length := Nat.lt_succ_of_le hx
  have hle := transIdxLps_le x.pStateIdx.toNat
  simp only [Ctx.update, if_neg hb, List.getD_eq_getElem?_getD, List.getElem?_eq_getElem hlt, Option.getD_some,
    BitVec.toNat_ofNat, Option.some.injEq, and_true] at hle ⊢
  omega

/-- Settles O17: the table of R135 is the one of the transition, and the order of the bins is `codeBins_append`. -/
theorem binCoding : Obligations.BinCoding := by
  refine ⟨?_, fun _ _ => ⟨rfl, rfl⟩, codeBins_append, fun _ _ => rfl⟩
  intro i b bank x hx hr lps
  refine ⟨x.update b, ?_, x.update_inRange b, ?_, Ctx.update_lps hr⟩
  · rw [codeBin, ctxAt_of_getElem? hx]
  · rintro rfl
    exact x.update_mps

/-! ### Initialisation of a context (R131) -/

theorem initPre_eq (iv : BitVec 8) (qp : Int) : initPre iv qp =
    max 1 (min 126 (((5 * (iv.toNat / 16 : Nat) - 45 : Int) * max 0 (min 51 qp)) / 16
      + (8 * (iv.toNat % 16 : Nat) - 16 : Int))) := by
  have hqp : clip3 0 51 qp = max 0 (min 51 qp) := by
    unfold clip3
    omega
  simp only [initPre, hqp, Int.mul_comm _ 5, Nat.cast_mul]
  unfold clip3
  omega

theorem initState_valMps (iv : BitVec 8) (qp : Int) : (initState iv qp).valMps = true ↔ 64 ≤ initPre iv qp := by
  unfold initState
  split
  · simp
    omega
  · simp
    omega

theorem initState_pStateIdx (iv : BitVec 8) (qp : Int) : ((initState iv qp).pStateIdx.toNat : Int) =
    if 64 ≤ initPre iv qp then initPre iv qp - 64 else 63 - initPre iv qp := by
  obtain ⟨hlo, hhi⟩ := initPre_bounds iv qp
  unfold initState
  split
  · rw [if_neg (by omega), BitVec.toNat_ofNat]
    omega
  · rw [if_pos (by omega), BitVec.toNat_ofNat]
    omega

/-- Settles O18: `pre` is the clipped value of R131, and the state is its distance from the middle. -/
theorem initStateFormula : Obligations.InitStateFormula := fun iv qp =>
  have ⟨hlo, hhi⟩ := initPre_bounds iv qp
  ⟨initState_inRange iv qp, initPre iv qp, hlo, hhi, initPre_eq iv qp, initState_valMps iv qp, initState_pStateIdx iv qp⟩

/-! ### A command that commits, and one that faults -/

theorem badSliceType_eq_false {st : Nat} (h : st ≤ 2) : badSliceType st = false := decide_eq_false (by omega)

/-- Each case of `Commits` is what the command does where its checks pass: the converse of `commits_of_effectOf`. -/
theorem effectOf_of_commits {i : Instr} {s u : State} (h : Commits i s u) : effectOf i s = .ok u := by
  cases h with
  | bins hi hv hb =>
    rw [effectOf_of_codesBins hi]
    exact coding_ok.2 ⟨hv, _, hb, rfl⟩
  | resetEntropy hst => exact unlessFault_ok.2 ⟨badSliceType_eq_false hst, rfl⟩
  | determineI hv =>
    simp only [effectOf, effectDetermineInitIndex, if_true]
    exact unlessFault_ok.2 ⟨rfl, needBank_ok.2 ⟨hv, rfl⟩⟩
  | determine hst hv =>
    refine unlessFault_ok.2 ⟨badSliceType_eq_false (by omega), needBank_ok.2 ⟨hv, ?_⟩⟩
    rw [if_neg (by omega)]
  | update hst hv => exact unlessFault_ok.2 ⟨badSliceType_eq_false hst, needBank_ok.2 ⟨hv, rfl⟩⟩
  | endSegment hv =>
    simp only [effectOf, effectEndSegment]
    exact needBank_ok.2 ⟨hv, rfl⟩
  | setConfig hq hm => exact unlessFault_ok.2 ⟨by simp; omega, rfl⟩
  | store hv hk =>
    simp only [effectOf, effectStore]
    exact needBank_ok.2 ⟨hv, unlessFault_ok.2 ⟨decide_eq_false (by omega), rfl⟩⟩
  | load hs => simp only [effectOf, effectLoad, hs]
  | loadPartial hv hs hg =>
    simp only [effectOf, effectLoadPartial]
    refine needBank_ok.2 ⟨hv, ?_⟩
    simp only [hs, hg]
  | snapWrite hs hi hp =>
    simp only [effectOf, effectSnapWrite, hs]
    exact unlessFault_ok.2 ⟨by simp; omega, rfl⟩
  | coefWrite => rfl
  | estRates hv hb =>
    simp only [effectOf, effectEstRates]
    exact needBank_ok.2 ⟨hv, unlessFault_ok.2 ⟨hb, rfl⟩⟩

/-- A command that commits on a block that takes commands counts once and completes with 0. -/
theorem exec_of_commits {i : Instr} {s u : State} (hs : s.takes) (h : Commits i s u) :
    exec i s = .next { u with cmdcnt := s.cmdcnt + 1, completions := s.completions ++ [false] } := by
  obtain ⟨-, -, -, -, hn, hc⟩ := h.keeps
  have hf : u.faulted = false := h.faulted.elim (·.trans hs.1) And.left
  rw [exec_of_ok hs (effectOf_of_commits h), State.complete, hn, hc, hf]

/-- A command whose checks fail, on a block that takes commands. -/
theorem exec_of_error {i : Instr} {s : State} {c : Cause} (hs : s.takes) (h : effectOf i s = .error c) :
    exec i s = .next (s.afterFault (opcodeOf i) c) :=
  (exec_eq_command i s).trans (command_of_error (hs.not_rejects _) h)

theorem exec_of_sliceTypeIs3 {i : Instr} {s : State} (hs : s.takes) (h : i.sliceTypeIs3 = true) :
    exec i s = .next (s.afterFault (opcodeOf i) .badSliceType) := exec_of_error hs (effectOf_of_sliceTypeIs3 h s)

theorem exec_of_no_bank {i : Instr} {s : State} (hs : s.takes) (h3 : i.sliceTypeIs3 = false) (hv : s.bankValid = false)
    (hi : i.needsNoBank = false) : exec i s = .next (s.afterFault (opcodeOf i) .notInitialised) :=
  exec_of_error hs (effectOf_of_no_bank h3 hv hi)

/-! ### Re-initialisation of the bank (R132, R137, R138) -/

theorem State.tableFor_eq (s : State) (st : Nat) (useRec : Bool) : s.tableFor st useRec =
    if st = 0 then 0 else if useRec = true ∧ s.initChoiceValid = true then s.initTable.toNat else st := by
  simp only [State.tableFor, Bool.and_eq_true]

/-- Settles O19: RESET_ENTROPY is taken in the faulted state too, and what it commits is the bank of the table of R132. -/
theorem resetEntropyEffect : Obligations.ResetEntropyEffect := by
  intro st qp useRec s hc
  have hr : s.rejects (opcodeOf (.resetEntropy st qp useRec)) = false := rejects_eq_false hc fun _ => rfl
  refine ⟨(checksBeforeTheEffect (.resetEntropy st qp useRec) s hc fun _ => rfl).1 ∘ decide_eq_true, ?_⟩
  intro hst t
  rw [exec_eq_command, command_of_ok hr (effectOf_of_commits (.resetEntropy hst)), State.reinit, State.tableFor_eq]
  rfl

/-- A terminating bin leaves the bank and EST_VALID alone (R136). -/
theorem State.code_trm (s : State) (b : Bool) : s.code [.trm b] = s.emit [.trm b] := by
  simp [State.code, State.emit, codeBins, codeBin, estValidAfter, Bin.isReg]

/-- The events UPDATE_CONTEXT_TABLES emits (R138). -/
theorem update_events (es : List BinEvent) (fin : Bool) :
    es ++ [.trm true] ++ (if fin then [.finish] else []) ++ [.start] =
      es ++ if fin then [.trm true, .finish, .start] else [.trm true, .start] := by
  cases fin <;> simp

/-- Settles O20: the segment ends with a terminating bin, then the bank is initialised as by RESET_ENTROPY. -/
theorem updateContextTablesEffect : Obligations.UpdateContextTablesEffect := by
  intro st qp useRec fin s hs
  refine ⟨exec_of_sliceTypeIs3 hs ∘ decide_eq_true,
    fun hst hv => exec_of_no_bank hs (badSliceType_eq_false hst) hv rfl, ?_⟩
  intro hst hv t
  rw [exec_of_commits hs (.update hst hv), State.code_trm, State.reinit, State.tableFor_eq, ← update_events]
  simp only [State.emit, State.setBank, hv]
  rfl

/-! ### CONFIG (R130) -/

/-- Settles O22: the checks are the ranges of R130, and the word of CONFIG reads its fields back. -/
theorem setConfigEffect : Obligations.SetConfigEffect := by
  intro sbh amp lm dis q m s hs
  refine ⟨fun ⟨hq, hm⟩ => ⟨_, exec_of_commits hs (.setConfig hq hm), rfl, ?_⟩, fun h => exec_of_error hs ?_⟩
  · refine (ConfigReg.word_toNat _).trans ?_
    simp only [BitVec.toNat_ofNat]
    omega
  · exact unlessFault_error.2 (.inl ⟨by simp; omega, rfl⟩)

/-! ### The costs of the tables (R139 to R142) -/

theorem binProb_false (b : Build) (x : Ctx) : binProb b x false =
    if x.valMps then b.probLpsQ16.getD x.pStateIdx.toNat 0 else 65536 - b.probLpsQ16.getD x.pStateIdx.toNat 0 := by
  unfold binProb
  cases x.valMps <;> rfl

theorem binProb_true (b : Build) (x : Ctx) : binProb b x true =
    if x.valMps then 65536 - b.probLpsQ16.getD x.pStateIdx.toNat 0 else b.probLpsQ16.getD x.pStateIdx.toNat 0 := by
  unfold binProb
  cases x.valMps <;> rfl

/-- The cost of a table runs over the contexts of the bank. -/
theorem tableCost_eq_sum {s : State} (h : s.ctx.length = s.build.numCtx) (t : Nat) (qp : Int) : tableCost s t qp =
    ((List.range s.build.numCtx).map fun i =>
      ctxCost s.build (ctxAt s.ctx i) (initState (s.build.initValueAt t i) qp)).sum := by
  have hctx : s.ctx = (List.range s.build.numCtx).map (ctxAt s.ctx) := by
    refine List.ext_getElem (by simp [h]) fun i hi _ => ?_
    simp [ctxAt, hi]
  rw [tableCost, initBank]
  conv_lhs => rw [hctx]
  rw [List.zipWith_map, List.zipWith_self]

/-- Settles O23: the two costs are sums over the bank, and the default build keeps the slice's own table on a tie. -/
theorem determineInitIndexEffect : Obligations.DetermineInitIndexEffect := by
  intro st qp s hs hbank htie bits cost
  have hcost : ∀ t, tableCost s t qp = cost t := fun t => by
    rw [tableCost_eq_sum hbank.1]
    simp only [ctxCost, binProb_false, binProb_true]
    rfl
  have hchoose : chooseTable s st qp = if cost (3 - st) < cost st then 3 - st else st := by
    simp only [chooseTable, htie, hcost]
  refine ⟨exec_of_sliceTypeIs3 hs ∘ decide_eq_true,
    fun hst hv => exec_of_no_bank hs (badSliceType_eq_false hst) hv rfl, ?_, fun hst hv => ?_⟩
  · rintro rfl hv
    exact exec_of_commits hs (.determineI hv)
  · rw [← hchoose, ← hcost, ← hcost]
    exact exec_of_commits hs (.determine hst hv)

/-! ### The end of a segment (R150; 42_syntax_elements.md R220) -/

/-- Settles O21: a terminating bin and, for END_SEGMENT, the event FINISH. -/
theorem endSegmentAndTermBin : Obligations.EndSegmentAndTermBin := by
  refine fun s hs => ⟨fun hv => ⟨exec_of_no_bank hs rfl hv rfl, fun v => exec_of_no_bank hs rfl hv rfl⟩,
    fun hv => ⟨?_, fun v => ?_⟩⟩
  · rw [exec_of_commits hs (.endSegment hv), State.code_trm]
    simp [State.emit]
  · rw [exec_of_commits hs (.bins rfl hv rfl), State.code_trm]
    rfl

end Sys2Proof.Machine
end

section
/-! PROOFS. The snapshot commands (40_context_bank.md R143 to R146). -/

namespace Sys2Proof.Machine

open Sys2Proof

/-- Settles O24: a slot inside the store takes the bank; the bank is checked before the slot. -/
theorem storeEffect : Obligations.StoreEffect := by
  refine fun k s hs => ⟨fun hv => exec_of_no_bank hs rfl hv rfl, fun hv hk => exec_of_commits hs (.store hv hk),
    fun hv hk => exec_of_error hs ?_⟩
  simp only [effectOf, effectStore]
  exact needBank_error.2 (.inr ⟨hv, unlessFault_error.2 (.inl ⟨decide_eq_true hk, rfl⟩)⟩)

/-- Settles O25: the slot is the only check. -/
theorem loadEffect : Obligations.LoadEffect := by
  refine fun k s hs => ⟨fun bank hk hsl => exec_of_commits hs (.load (State.validSlot_eq_some.2 ⟨hk, hsl⟩)),
    fun h => exec_of_error hs ?_⟩
  simp only [effectOf, effectLoad, State.validSlot_eq_none.2 h]

/-- Settles O27: the slot is checked before the index and the state to write. -/
theorem snapWriteEffect : Obligations.SnapWriteEffect := by
  refine fun k idx ps mps s hs => ⟨fun bank hk hsl => ?_, fun h => exec_of_error hs ?_⟩
  · have hslot := State.validSlot_eq_some.2 ⟨hk, hsl⟩
    refine ⟨fun ⟨hi, hp⟩ => exec_of_commits hs (.snapWrite hslot hi hp), fun h => exec_of_error hs ?_⟩
    simp only [effectOf, effectSnapWrite, hslot]
    exact unlessFault_error.2 (.inl ⟨by simp; omega, rfl⟩)
  · simp only [effectOf, effectSnapWrite, State.validSlot_eq_none.2 h]

/-! ### One group of the bank (R145) -/

/-- The sizes of the groups, in their order (10_state.md R31). -/
def groupSizes : List Nat := groupOrder.map Group.size

/-- A group starts where the groups before it end (10_state.md R31). -/
theorem groupOrder_bounds : ∀ n < 27, ∀ g ∈ groupOrder[n]?,
    g.base = (groupSizes.take n).sum ∧ g.base + g.size = (groupSizes.take (n + 1)).sum := by decide

/-- A group number above 26 names no group, and LOAD_PARTIAL faults as it does for a slot that is not valid. -/
theorem effectOf_loadPartial_error {s : State} {k n : Nat} (hv : s.bankValid = true)
    (h : s.validSlot k = none ∨ groupOrder[n]? = none) : effectOf (.loadPartial k n) s = .error .badSlot := by
  simp only [effectOf, effectLoadPartial]
  refine needBank_error.2 (.inr ⟨hv, ?_⟩)
  split
  · rename_i hs hg
    simp [hs, hg] at h
  · rfl

/-- Settles O26: the group takes the indexes from its base on, and the base is the sum of the sizes before it. -/
theorem loadPartialEffect : Obligations.LoadPartialEffect := by
  intro k n s hs hn hctx sizes
  refine ⟨fun hv => exec_of_no_bank hs rfl hv rfl, ?_, fun hv h => exec_of_error hs (effectOf_loadPartial_error hv ?_)⟩
  · intro bank hv hbank hk hsl hn26
    obtain ⟨g, hg⟩ : ∃ g, groupOrder[n]? = some g := ⟨_, List.getElem?_eq_getElem (Nat.lt_succ_of_le hn26)⟩
    obtain ⟨hbase, hend⟩ := groupOrder_bounds n (by omega) g hg
    have hlen : s.ctx.length = bank.length := hctx.1.trans hbank.1.symm
    have hin : g.base + g.size ≤ s.ctx.length := (group_in_bank g).trans (hctx.1 ▸ hn)
    refine ⟨copyGroup g s.ctx bank, exec_of_commits hs (.loadPartial hv (State.validSlot_eq_some.2 ⟨hk, hsl⟩) hg),
      (copyGroup_length hlen hin).trans hctx.1, fun i _ => ?_⟩
    rw [copyGroup_getElem? hlen hin, hend, hbase]
    rfl
  · rw [State.validSlot_eq_none, List.getElem?_eq_none_iff, or_assoc]
    exact h

end Sys2Proof.Machine
end

section
/-! PROOFS. Two runs of the block that differ in what a command does not read (40_context_bank.md R149). -/

namespace Sys2Proof.Machine

open Sys2Proof

/-! ### What the bins of a command depend on (42_syntax_elements.md R200) -/

theorem binsOf_congr {s u : State} (hb : u.build = s.build) (hc : u.config = s.config) (hm : u.coef = s.coef) (i : Instr) :
    binsOf i u = binsOf i s := by
  cases i with
  | partSize | intraDirChroma | deltaQp => simp only [binsOf, hc]
  | codeCoeff => simp only [binsOf, State.block, hb, hc, hm]
  | _ => rfl

/-! ### Answers that agree -/

/-- Two answers of an effect: states that `R` relates, or faults with one cause. -/
inductive Alike (R : State → State → Prop) : Except Cause State → Except Cause State → Prop
  | ok {u v : State} (h : R u v) : Alike R (.ok u) (.ok v)
  | error (c : Cause) : Alike R (.error c) (.error c)

section
variable {R : State → State → Prop} {u v : State}

theorem Alike.unlessFault {a b : Except Cause State} (bad : Bool) (c : Cause) (h : Alike R a b) :
    Alike R (unlessFault bad c a) (unlessFault bad c b) := by
  cases bad
  · exact h
  · exact .error c

theorem Alike.needBank {e : State → Except Cause State} (hv : u.bankValid = v.bankValid) (h : Alike R (e u) (e v)) :
    Alike R (needBank e u) (needBank e v) := by
  cases hb : v.bankValid
  · rw [needBank_of_invalid hb, needBank_of_invalid (hv.trans hb)]
    exact .error _
  · rwa [needBank_of_valid hb, needBank_of_valid (hv.trans hb)]

theorem Alike.coding {bins : State → Except Cause (List Bin)} (hv : u.bankValid = v.bankValid) (hb : bins u = bins v)
    (h : ∀ bs, R (u.code bs) (v.code bs)) : Alike R (coding bins u) (coding bins v) := by
  refine .needBank hv ?_
  simp only [hb]
  split
  · exact .ok (h _)
  · exact .error _

/-- The frame of a command keeps a relation that its effect, its count and its fault keep. -/
theorem exec_alike {i : Instr} (hr : u.rejects (opcodeOf i) = v.rejects (opcodeOf i))
    (he : Alike R (effectOf i u) (effectOf i v)) (huv : R u v) (hcomplete : ∀ {u v}, R u v → R u.complete v.complete)
    (hfault : ∀ op c, R (u.takeFault op c) (v.takeFault op c)) :
    ∃ u' v', exec i u = .next u' ∧ exec i v = .next v' ∧ R u' v' := by
  simp only [exec_eq_command]
  cases hv : v.rejects (opcodeOf i) with
  | true => exact ⟨_, _, command_of_rejects (hr.trans hv), command_of_rejects hv, hcomplete huv⟩
  | false =>
    generalize ha : effectOf i u = a at he
    generalize hb : effectOf i v = b at he
    cases he with
    | ok h => exact ⟨_, _, command_of_ok (hr.trans hv) ha, command_of_ok hv hb, hcomplete h⟩
    | error c => exact ⟨_, _, command_of_error (hr.trans hv) ha, command_of_error hv hb, hcomplete (hfault _ c)⟩

end

/-! ### The same output -/

/-- Two runs, from `s` to `u` and from `t` to `v`, that emitted the same events and left the same bank and the same
FAULTED bit. -/
structure SameOutput (s t u v : State) : Prop where
  ctx : u.ctx = v.ctx
  faulted : u.faulted = v.faulted
  events : ∃ es, u.bin = s.bin ++ es ∧ v.bin = t.bin ++ es

section
variable {s t u v : State} (h : SameOutput s t u v)
include h

theorem SameOutput.complete : SameOutput s t u.complete v.complete := { h with }

theorem SameOutput.takeFault (op : Nat) (c : Cause) : SameOutput s t (u.takeFault op c) (v.takeFault op c) :=
  { h with faulted := rfl }

theorem SameOutput.emit (es : List BinEvent) : SameOutput s t (u.emit es) (v.emit es) :=
  { h with
    events := by
      obtain ⟨fs, hu, hv⟩ := h.events
      exact ⟨fs ++ es, by simp [hu], by simp [hv]⟩ }

theorem SameOutput.code (bins : List Bin) : SameOutput s t (u.code bins) (v.code bins) :=
  { h with
    ctx := congrArg (fun bank => (codeBins bins bank).1) h.ctx
    events := by
      have := (h.emit (codeBins bins u.ctx).2).events
      simpa [h.ctx] using this }

end

/-- Settles O43: the bins are the same, and the same bins on the same bank give the same events and the same new bank. -/
theorem binsDependOnlyOnTheirInputs : Obligations.BinsDependOnlyOnTheirInputs := by
  intro i s u s' u' hi hbuild hctx hconfig hcoef hs hu hv hexec hexec'
  have h : SameOutput s u s u := ⟨hctx.symm, hs.1.trans hu.1.symm, [], by simp, by simp⟩
  have heffect : Alike (SameOutput s u) (effectOf i s) (effectOf i u) := by
    rw [effectOf_of_codesBins hi]
    exact .coding hv.symm (binsOf_congr hbuild hconfig hcoef i).symm h.code
  obtain ⟨_, _, ha, hb, hout⟩ := exec_alike ((hs.not_rejects _).trans (hu.not_rejects _).symm) heffect h
    SameOutput.complete h.takeFault
  cases hexec.symm.trans ha
  cases hexec'.symm.trans hb
  exact ⟨hout.ctx, hout.faulted, hout.events⟩

/-! ### The same state but for one slot -/

/-- Two runs, from `s` to `u` and from `t` to `v`, with the same output, that left the same in every part of the state a
command reads, but for slot `k`. What is not listed (EST, EST_VALID, the costs, FAULT_STICKY, the counts, the port) no
command reads. -/
structure SameButSlot (k : Nat) (s t u v : State) : Prop extends SameOutput s t u v where
  build : u.build = v.build
  config : u.config = v.config
  coef : u.coef = v.coef
  slice : u.slice = v.slice
  initTable : u.initTable = v.initTable
  initChoiceValid : u.initChoiceValid = v.initChoiceValid
  bankValid : u.bankValid = v.bankValid
  fault : u.fault = v.fault
  slots : ∀ j, j ≠ k → u.snap[j]? = v.snap[j]?

section
variable {k : Nat} {s t u v : State} (h : SameButSlot k s t u v)
include h

theorem SameButSlot.complete : SameButSlot k s t u.complete v.complete := { h with }

theorem SameButSlot.leaveFaulted : SameButSlot k s t u.leaveFaulted v.leaveFaulted := { h with faulted := rfl }

theorem SameButSlot.takeFault (op : Nat) (c : Cause) : SameButSlot k s t (u.takeFault op c) (v.takeFault op c) :=
  { h.toSameOutput.takeFault op c, h with fault := by simp only [State.takeFault_fault, h.faulted, h.fault] }

theorem SameButSlot.emit (es : List BinEvent) : SameButSlot k s t (u.emit es) (v.emit es) :=
  { h.toSameOutput.emit es, h with }

theorem SameButSlot.code (bins : List Bin) : SameButSlot k s t (u.code bins) (v.code bins) :=
  { h.toSameOutput.code bins, h with }

theorem SameButSlot.setBank (bank : List Ctx) : SameButSlot k s t (u.setBank bank) (v.setBank bank) :=
  { h with ctx := rfl, bankValid := rfl }

theorem SameButSlot.setSlot (j : Nat) (bank : List Ctx) : SameButSlot k s t (u.setSlot j bank) (v.setSlot j bank) :=
  { h with
    slots := fun l hl => by
      simp only [State.setSlot, List.getElem?_set', h.slots l hl] }

theorem SameButSlot.tableFor_eq (st : Nat) (useRec : Bool) : u.tableFor st useRec = v.tableFor st useRec := by
  simp only [State.tableFor, h.initTable, h.initChoiceValid]

theorem SameButSlot.reinit (st : Nat) (qp : Int) (useRec : Bool) :
    SameButSlot k s t (u.reinit st qp useRec) (v.reinit st qp useRec) :=
  { h with
    ctx := by simp only [State.reinit_ctx, h.build, h.tableFor_eq]
    slice := by simp only [State.reinit_slice, h.tableFor_eq]
    bankValid := rfl }

theorem SameButSlot.tableCost_eq (table : Nat) (qp : Int) : tableCost u table qp = tableCost v table qp := by
  simp only [tableCost, h.build, h.ctx]

theorem SameButSlot.chooseTable_eq (st : Nat) (qp : Int) : chooseTable u st qp = chooseTable v st qp := by
  unfold chooseTable
  rw [h.build, h.tableCost_eq, h.tableCost_eq]

theorem SameButSlot.validSlot_eq {j : Nat} (hj : j ≠ k) : u.validSlot j = v.validSlot j := by
  simp only [State.validSlot, h.build, h.slots j hj]

theorem SameButSlot.rejects_eq (op : Nat) : u.rejects op = v.rejects op := by
  simp only [State.rejects, h.fault, h.faulted]

/-- A command that does not read slot `k` answers alike. -/
theorem SameButSlot.effectOf_alike {i : Instr} (hi : i.readsSlot ≠ some k) :
    Alike (SameButSlot k s t) (effectOf i u) (effectOf i v) := by
  by_cases hb : i.codesBins = true
  · rw [effectOf_of_codesBins hb]
    exact .coding h.bankValid (binsOf_congr h.build h.config h.coef i) h.code
  · cases i with
    | resetEntropy st qp useRec => exact .unlessFault _ _ (.ok ((h.reinit st qp useRec).leaveFaulted.emit _))
    | determineInitIndex st qp =>
      refine .unlessFault _ _ (.needBank h.bankValid ?_)
      split
      · exact .ok { h with initTable := rfl, initChoiceValid := rfl }
      · exact .ok { h with
          initTable := congrArg (BitVec.ofNat 2) (h.chooseTable_eq st qp)
          initChoiceValid := rfl }
    | updateContextTables st qp useRec fin =>
      exact .unlessFault _ _ (.needBank h.bankValid (.ok ((((h.code _).emit _).reinit st qp useRec).emit _)))
    | endSegment =>
      simp only [effectOf, effectEndSegment]
      exact .needBank h.bankValid (.ok ((h.code _).emit _))
    | setConfig => exact .unlessFault _ _ (.ok { h with config := rfl })
    | store j =>
      simp only [effectOf, effectStore]
      refine .needBank h.bankValid ?_
      simp only [h.build, h.ctx]
      exact .unlessFault _ _ (.ok ((h.setSlot j _).emit _))
    | load j =>
      simp only [effectOf, effectLoad, h.validSlot_eq (ne_of_apply_ne some hi)]
      split
      · exact .ok ((h.setBank _).emit _)
      · exact .error _
    | loadPartial j n =>
      simp only [effectOf, effectLoadPartial]
      refine .needBank h.bankValid ?_
      simp only [h.validSlot_eq (ne_of_apply_ne some hi), h.ctx]
      split
      · refine .ok (SameButSlot.emit ?_ _)
        exact { h with ctx := rfl }
      · exact .error _
    | snapWrite j idx ps mps =>
      simp only [effectOf, effectSnapWrite, h.validSlot_eq (ne_of_apply_ne some hi), h.build]
      split
      · exact .unlessFault _ _ (.ok (h.setSlot j _))
      · exact .error _
    | coefWrite idx val => exact .ok { h with coef := by simp only [h.coef] }
    | estRates =>
      simp only [effectOf, effectEstRates]
      exact .needBank h.bankValid (.unlessFault _ _ (.ok { h with }))
    | _ => exact absurd rfl hb

theorem SameButSlot.exec {i : Instr} (hi : i.readsSlot ≠ some k) :
    ∃ u' v', exec i u = .next u' ∧ exec i v = .next v' ∧ SameButSlot k s t u' v' :=
  exec_alike (h.rejects_eq _) (h.effectOf_alike hi) h SameButSlot.complete h.takeFault

end

/-- A sequence of commands that do not read slot `k` runs the same from both states. -/
theorem SameButSlot.runAll {k : Nat} {s t u v : State} {is : List Instr} (h : SameButSlot k s t u v)
    (his : ∀ i ∈ is, i.readsSlot ≠ some k) :
    ∃ u' v', runAll is u = some u' ∧ runAll is v = some v' ∧ SameButSlot k s t u' v' := by
  induction is generalizing u v with
  | nil => exact ⟨u, v, rfl, rfl, h⟩
  | cons i is ih =>
    obtain ⟨hi, his⟩ := List.forall_mem_cons.1 his
    obtain ⟨u₁, v₁, hu, hv, h₁⟩ := h.exec hi
    rw [runAll_cons hu, runAll_cons hv]
    exact ih h₁ his

/-! ### STORE and LOAD of one slot -/

/-- The state after STORE `k` and LOAD `k`. -/
def State.afterStoreLoad (s : State) (k : Nat) : State :=
  ((((s.setSlot k s.ctx).emit [.copyTo (BitVec.ofNat 8 k)]).complete.setBank s.ctx).emit
    [.copyFrom (BitVec.ofNat 8 k)]).complete

theorem runAll_store_load {k : Nat} {s : State} (hs : s.ready) (hk : k < s.build.numSnapshots)
    (hlen : s.snap.length = s.build.numSnapshots) : runAll [.store k, .load k] s = some (s.afterStoreLoad k) := by
  have hload := exec_load (s := ((s.setSlot k s.ctx).emit [.copyTo (BitVec.ofNat 8 k)]).complete) hs.1
    (State.validSlot_setSlot hk hlen s.ctx)
  exact (runAll_cons (exec_store hs hk) _).trans (runAll_cons hload [])

/-- They write slot `k`, the stream and the flag of the estimator only. -/
theorem sameButSlot_afterStoreLoad {s : State} (k : Nat) (hv : s.bankValid = true) :
    SameButSlot k s (s.afterStoreLoad k) s (s.afterStoreLoad k) where
  ctx := rfl
  faulted := rfl
  events := ⟨[], (List.append_nil _).symm, (List.append_nil _).symm⟩
  build := rfl
  config := rfl
  coef := rfl
  slice := rfl
  initTable := rfl
  initChoiceValid := rfl
  bankValid := hv
  fault := rfl
  slots := fun _ hj => (List.getElem?_set_ne hj.symm).symm

/-- Settles O28: STORE and LOAD leave the same state but for the slot, and the two runs stay the same but for it. -/
theorem storeThenLoadRestores : Obligations.StoreThenLoadRestores := by
  intro k s hs hinv hk
  refine ⟨_, runAll_store_load hs hk hinv.slots, rfl, by simp [State.afterStoreLoad], rfl, rfl, hs.1.1, fun is his => ?_⟩
  obtain ⟨u, v, hu, hv, h⟩ := (sameButSlot_afterStoreLoad k hs.2).runAll his
  obtain ⟨es, hes, hes'⟩ := h.events
  exact ⟨u, v, es, hu, hv, hes, hes', h.ctx, h.bankValid, h.coef, h.config, h.slice, h.faulted, h.fault⟩

end Sys2Proof.Machine
end

section
/-! PROOFS. The binarizers: their inverses, and the number of bins of a Golomb-Rice string (41_binarization.md). -/

namespace Sys2Proof.Machine

open Sys2Proof

/-! ### The inverses (41_binarization.md R186) -/

theorem invTU_binTU {s cMax : Nat} (h : s ≤ cMax) : invTU (binTU s cMax) cMax = s := by
  induction cMax generalizing s with
  | zero => simp [invTU, Nat.le_zero.1 h]
  | succ m ih =>
    cases s with
    | zero => simp [binTU, invTU]
    | succ s =>
      have hs : binTU (s + 1) (m + 1) = true :: binTU s m := by simp [binTU, List.replicate_succ]
      rw [hs, invTU, ih (Nat.le_of_succ_le_succ h)]

/-- Reading on from the integer `a` adds the fixed-length bins below it. -/
theorem foldl_binFL (v n a : Nat) : (binFL v n).foldl (fun a b => 2 * a + b.toNat) a = a * 2 ^ n + v % 2 ^ n := by
  induction n generalizing a with
  | zero => simp [binFL, Nat.mod_one]
  | succ n ih => 
    rw [binFL, List.foldl_cons, ih, Nat.mod_pow_succ, Nat.toNat_testBit]
    ring

/-- Fixed-length bins read most significant first are the low bits of the value (41_binarization.md R183). -/
theorem msbFirst_binFL (v n : Nat) : msbFirst (binFL v n) n = v % 2 ^ n := by
  rw [msbFirst, List.take_of_length_le (by simp [binFL_eq_bitsDown]), foldl_binFL, Nat.zero_mul, Nat.zero_add]

/-- The inverse of EGk undoes one round of its loop at a time. -/
theorem invEGk_binEGLoop {fuel v k : Nat} (h : v < fuel) : invEGk (binEGLoop fuel v k) k = v := by
  induction fuel generalizing v k with
  | zero => omega
  | succ n ih =>
    have hp := Nat.two_pow_pos k
    unfold binEGLoop
    split
    · rw [invEGk, ih (by omega)]
      omega
    · rw [invEGk, msbFirst_binFL, Nat.mod_eq_of_lt (by omega)]

/-- The inverse of GR on a string of `q` ones, a 0 and a rest. -/
theorem invGR_ones (q r : Nat) (rest : List Bool) :
    invGR (List.replicate q true ++ false :: rest) r =
      if q < 3 then q * 2 ^ r + msbFirst rest r
      else 3 * 2 ^ r + (2 ^ (q - 3 + r) - 2 ^ r) + msbFirst rest (q - 3 + r) := by
  have hones : ((List.replicate q true ++ false :: rest).takeWhile id).length = q := by
    rw [List.takeWhile_append_of_pos (by simp)]
    simp
  have hrest : (List.replicate q true ++ false :: rest).drop (q + 1) = rest := by simp [List.drop_append]
  simp only [invGR, hones, hrest]

theorem invGR_grBins (sym r : Nat) : invGR (grBins sym r) r = sym := by
  have hp := Nat.two_pow_pos r
  unfold grBins
  split
  next hlt =>
    have hq : sym / 2 ^ r < 3 := (Nat.div_lt_iff_lt_mul hp).2 hlt
    rw [List.append_assoc, List.singleton_append, invGR_ones, if_pos hq, msbFirst_binFL, Nat.div_add_mod']
  next hge =>
    obtain ⟨q, c, hloop, hsum, hc⟩ := escapeLoop_eq (fuel := sym + 1) (c := sym - 3 * 2 ^ r) (len := r) (by omega)
    have hones : 3 + (r + q) + 1 - r - 1 = 3 + q := by omega
    have hlen : 3 + q - 3 + r = r + q := by omega
    have hpow := Nat.pow_le_pow_right (n := 2) (by omega) (Nat.le_add_right r q)
    simp only [hloop, hones, List.append_assoc, List.singleton_append]
    rw [invGR_ones, if_neg (by omega), hlen, msbFirst_binFL, Nat.mod_eq_of_lt hc]
    omega

/-- Settles O44: TU by induction on the maximum, EGk by its loop, GR by its number of leading ones. -/
theorem binarizersInvert : Obligations.BinarizersInvert :=
  ⟨fun _ _ h => invTU_binTU h, fun v _ => invEGk_binEGLoop (Nat.lt_succ_self v), invGR_grBins⟩

/-! ### The bound of the Golomb-Rice code (41_binarization.md R184) -/

/-- The strings with `q` ones beyond the first three start at the symbol 2 * 2^r + 2^(r + q) and have 4 + r + 2 * q bins;
no string has one bin less than that. -/
theorem lt_grBins_length_iff {n q r : Nat} (sym : Nat) (hq : 0 < q) (hlo : 2 + r + 2 * q ≤ n) (hhi : n ≤ 3 + r + 2 * q) :
    n < (grBins sym r).length ↔ 2 * 2 ^ r + 2 ^ (r + q) ≤ sym := by
  have hp := Nat.two_pow_pos r
  have hpow := Nat.pow_le_pow_right (n := 2) (by omega) (Nat.le_add_right r q)
  rw [grBins_eq_r184Bins]
  by_cases hlt : sym < 3 * 2 ^ r
  · have hd : sym / 2 ^ r < 3 := (Nat.div_lt_iff_lt_mul hp).2 hlt
    rw [r184Bins_length_of_lt hlt]
    omega
  · obtain ⟨p, c, -, hsum, hc⟩ := escapeLoop_eq (fuel := sym + 1) (c := sym - 3 * 2 ^ r) (len := r) (by omega)
    have hpp := Nat.pow_le_pow_right (n := 2) (by omega) (Nat.le_add_right r p)
    rw [r184Bins_length (q := p) (c := c) (by omega) hc]
    rcases Nat.lt_or_ge p q with hpq | hqp
    · have hstep := Nat.pow_le_pow_right (n := 2) (by omega) (Nat.add_le_add_left hpq r)
      rw [Nat.add_succ, Nat.pow_succ] at hstep
      omega
    · have hstep := Nat.pow_le_pow_right (n := 2) (by omega) (Nat.add_le_add_left hqp r)
      omega

theorem binGR_eq_ok {maxBins sym r : Nat} (h : (grBins sym r).length ≤ maxBins) :
    binGR maxBins sym r = .ok (grBins sym r) := if_neg (Nat.not_lt.2 h)

theorem binGR_eq_error {maxBins sym r : Nat} (h : maxBins < (grBins sym r).length) :
    binGR maxBins sym r = .error .binCount := if_pos h

/-- Where the first symbol above the bound is known, the code and its check agree about it. -/
theorem grBins_bound {maxBins sym r smallest : Nat} (h : maxBins < (grBins sym r).length ↔ smallest ≤ sym) :
    (sym < smallest → (grBins sym r).length ≤ maxBins ∧ binGR maxBins sym r = .ok (grBins sym r)) ∧
    (smallest ≤ sym → maxBins < (grBins sym r).length ∧ binGR maxBins sym r = .error .binCount) := by
  refine ⟨fun hlt => ?_, fun hle => ⟨h.2 hle, binGR_eq_error (h.2 hle)⟩⟩
  have hlen : (grBins sym r).length ≤ maxBins := Nat.not_lt.1 fun hgt => Nat.not_lt.2 (h.1 hgt) hlt
  exact ⟨hlen, binGR_eq_ok hlen⟩

/-- Settles O45: with parameter `r` the strings of more than 32 bins are those with (30 - r) / 2 ones or more beyond the
first three. -/
theorem golombRiceBound : Obligations.GolombRiceBound := by
  intro sym r hr
  have hiff := lt_grBins_length_iff (n := 32) (q := (30 - r) / 2) (r := r) sym (by omega) (by omega) (by omega)
  have hsmallest : [32770, 32772, 65544, 65552, 131104].getD r 0 = 2 * 2 ^ r + 2 ^ (r + (30 - r) / 2) := by
    interval_cases r <;> rfl
  rw [← hsmallest] at hiff
  refine ⟨?_, ?_, grBins_bound hiff⟩
  · interval_cases r <;> decide
  · interval_cases r <;> decide

end Sys2Proof.Machine
end

section
/-! PROOFS. The bins of each command in the form of its rule (42_syntax_elements.md R200 to R218). -/

namespace Sys2Proof.Machine

open Sys2Proof

/-! ### Flags (R201 to R203, R206, R213 to R216) -/

/-- One regular bin on a block that is not faulted: the whole next state (40_context_bank.md R134). -/
theorem State.afterBins_reg {s : State} (hs : s.faulted = false) (i : Nat) (v : Bool) :
    s.afterBins [.reg i v] = { s with
      ctx := s.ctx.set i ((ctxAt s.ctx i).update v)
      bin := s.bin ++ [.reg v (BitVec.ofNat 9 i) (ctxAt s.ctx i).pStateIdx (ctxAt s.ctx i).valMps]
      estValid := false
      cmdcnt := s.cmdcnt + 1
      completions := s.completions ++ [false] } := by
  simp [State.afterBins, codeBins_cons, codeBin, Bin.isReg, hs]

/-- Settles O30: each of these commands codes the one bin V in the first context of its group. -/
theorem singleContextFlags : Obligations.SingleContextFlags := by
  intro v s hs p hp
  rw [← State.afterBins_reg hs.1.1]
  simp only [List.mem_cons, List.not_mem_nil, or_false] at hp
  obtain rfl | rfl | rfl | rfl | rfl := hp <;> exact exec_of_bins rfl hs rfl

/-- Counting neighbours with a list of two is adding two flags. -/
theorem length_filter_pair {α : Type} (p : α → Bool) (a b : α) :
    ([a, b].filter p).length = (p a).toNat + (p b).toNat := by
  cases ha : p a <;> cases hb : p b <;> simp [ha, hb]

/-- Settles O31: the context is the count of R201 or R202, and the check at the maximum depth comes before the bin. -/
theorem neighbourCountFlags : Obligations.NeighbourCountFlags := by
  refine fun s hs => ⟨fun v avL avA dL dA dC => ?_, fun avL avA dL dA dC => ⟨?_, ?_⟩, fun v avL skL avA skA => ?_⟩
  · refine exec_of_bins rfl hs ?_
    simp [binsOf, binsSplitFlag, rb, splitInc, Group.base, length_filter_pair, Bool.toNat, Bool.cond_eq_ite]
  · exact exec_of_bins rfl hs rfl
  · exact exec_of_bins_error rfl hs rfl
  · refine exec_of_bins rfl hs ?_
    simp [binsOf, binsSkipFlag, rb, skipInc, Group.base, length_filter_pair]

/-- Settles O32: the check of CI comes before the bin. -/
theorem transformTreeFlags : Obligations.TransformTreeFlags := by
  refine fun v pl ci s hs => ⟨fun h => exec_of_bins rfl hs ?_, fun h => exec_of_bins_error rfl hs ?_,
    fun h => exec_of_bins rfl hs ?_, fun h => exec_of_bins_error rfl hs ?_⟩
  · cases pl <;> simp [binsOf, binsQtCbf, rb, Group.base, Nat.not_lt.2 h, ← Nat.add_assoc]
  · simp [binsOf, binsQtCbf, h]
  · simp [binsOf, binsTransSubdiv, rb, Group.base, Nat.not_lt.2 h]
  · simp [binsOf, binsTransSubdiv, h]

/-! ### Truncated unary indexes (R204, R210) -/

theorem firstRegular_eq (g : Group) (inc : Nat) (bs : List Bool) :
    firstRegular g inc bs = (bs.take 1).map (.reg (g.base + inc)) ++ (bs.drop 1).map .ep := by
  cases bs <;> rfl

theorem firstTwoRegular_eq (g : Group) (bs : List Bool) : firstTwoRegular g bs =
    (bs.take 1).map (.reg g.base) ++ ((bs.drop 1).take 1).map (.reg (g.base + 1)) ++ (bs.drop 2).map .ep := by
  cases bs with
  | nil => rfl
  | cons b bs => simp [firstTwoRegular, firstRegular_eq, rb]

/-- Settles O33: the count is checked before the index, and TU is a string of ones with a 0 below the maximum. -/
theorem truncatedUnaryIndexes : Obligations.TruncatedUnaryIndexes := by
  refine fun v n s hs => ⟨fun h => exec_of_bins_error rfl hs ?_, fun ⟨h1, h5, hv⟩ => exec_of_bins_error rfl hs ?_,
    fun ⟨h1, h5, hv⟩ => exec_of_bins rfl hs ?_, fun h => exec_of_bins_error rfl hs ?_,
    fun ⟨h1, h16, hv⟩ => exec_of_bins_error rfl hs ?_, fun ⟨h1, h16, hv⟩ => exec_of_bins rfl hs ?_⟩
  · simp only [binsOf, binsMergeIdx, ← Bool.decide_or, h, decide_true, unlessFault_true]
  · simp [binsOf, binsMergeIdx, unlessFault_error, h5, hv, Nat.pos_iff_ne_zero.1 h1]
  · simp [binsOf, binsMergeIdx, firstRegular_eq, unlessFault_ok, Group.base, binTU, h5, hv, Nat.pos_iff_ne_zero.1 h1]
  · simp only [binsOf, binsRefIdx, ← Bool.decide_or, h, decide_true, unlessFault_true]
  · simp [binsOf, binsRefIdx, unlessFault_error, h16, hv, Nat.pos_iff_ne_zero.1 h1]
  · simp [binsOf, binsRefIdx, firstTwoRegular_eq, unlessFault_ok, Group.base, binTU, h16, hv, Nat.pos_iff_ne_zero.1 h1]

/-! ### Partitions (R205) -/

/-- With LOG2CB accepted, the bins of PART_SIZE are the entry of the table of R205, and an absent entry is a fault. Past
that check only four flags and the partition count, where `amp` excludes the minimum size, so the table is compared entry by
entry. -/
theorem binsPartSize_eq_r205Bins (c : ConfigReg) {part log2Cb : Nat} (intra atMin ampOk : Bool) (hpart : part < 8)
    (hlog : 3 ≤ log2Cb ∧ log2Cb ≤ 6) : binsPartSize c part intra atMin log2Cb ampOk =
      (r205Bins intra atMin (ampAllowed c ampOk atMin) (atMin && !no4x4 c log2Cb) part).elim (.error .badCombination) .ok := by
  have hrange : (decide (log2Cb < 3) || decide (6 < log2Cb)) = false := by simp; omega
  rw [binsPartSize, hrange, unlessFault_false]
  have hamp : ampAllowed c ampOk atMin = true → atMin = false := by simp [ampAllowed]
  generalize ampAllowed c ampOk atMin = amp at *
  generalize no4x4 c log2Cb = no44
  revert part
  revert intra atMin amp no44
  decide

/-- Settles O34: LOG2CB is checked first, and the rest is the table. -/
theorem partSizeFollowsTheTable : Obligations.PartSizeFollowsTheTable := by
  intro part log2Cb intra atMin ampOk s hs hpart
  refine ⟨fun h => exec_of_bins_error rfl hs ?_, fun h => ?_⟩
  · simp only [binsOf, binsPartSize, ← Bool.decide_or, h, decide_true, unlessFault_true]
  · have hbins := binsPartSize_eq_r205Bins s.config intra atMin ampOk hpart h
    split
    next bins hb => exact exec_of_bins rfl hs (hbins.trans (congrArg (Option.elim · _ _) hb))
    next hb => exact exec_of_bins_error rfl hs (hbins.trans (congrArg (Option.elim · _ _) hb))

/-! ### Intra modes (R207, R208) -/

/-- Renumbering from the largest candidate down counts the candidates below the mode. -/
theorem foldl_dropAbove {l : List Nat} (hl : l.Pairwise (· > ·)) {mode : Nat} (hm : mode ∉ l) :
    l.foldl dropAbove mode = mode - (l.filter fun c => decide (c < mode)).length := by
  induction l generalizing mode with
  | nil => rfl
  | cons s l ih =>
    obtain ⟨hs, hl⟩ := List.pairwise_cons.1 hl
    obtain ⟨hne, hm⟩ := not_or.1 (mt List.mem_cons.2 hm)
    by_cases hlt : s < mode
    · have hbelow : ∀ c ∈ l, decide (c < mode - 1) = decide (c < mode) := fun c hc => by
        have := hs c hc
        simp; omega
      have hm' : mode - 1 ∉ l := fun h => by have := hs _ h; omega
      rw [List.foldl_cons, dropAbove, if_pos hlt, ih hl hm', List.filter_congr hbelow,
        List.filter_cons_of_pos (by simpa using hlt), List.length_cons]
      omega
    · rw [List.foldl_cons, dropAbove, if_neg hlt, ih hl hm, List.filter_cons_of_neg (by simpa using hlt)]

theorem sortDesc_pairwise {c0 c1 c2 : Nat} (h01 : c0 ≠ c1) (h02 : c0 ≠ c2) (h12 : c1 ≠ c2) :
    (sortDesc c0 c1 c2).Pairwise (· > ·) := by
  simp only [sortDesc, List.pairwise_cons, List.mem_cons, List.not_mem_nil, or_false, forall_eq_or_imp, forall_eq,
    List.Pairwise.nil, and_true, IsEmpty.forall_iff, implies_true]
  omega

theorem mem_sortDesc {c0 c1 c2 x : Nat} : x ∈ sortDesc c0 c1 c2 ↔ x ∈ [c0, c1, c2] := by
  simp only [sortDesc, List.mem_cons, List.not_mem_nil, or_false]
  omega

theorem sortDesc_perm {c0 c1 c2 : Nat} (h01 : c0 ≠ c1) (h02 : c0 ≠ c2) (h12 : c1 ≠ c2) :
    (sortDesc c0 c1 c2).Perm [c0, c1, c2] :=
  (List.perm_ext_iff_of_nodup ((sortDesc_pairwise h01 h02 h12).imp Nat.ne_of_gt) (by simp [h01, h02, h12])).2
    fun _ => mem_sortDesc

/-- The remainder of R207 in closed form. -/
theorem intraRem_eq {mode c0 c1 c2 : Nat} (h01 : c0 ≠ c1) (h02 : c0 ≠ c2) (h12 : c1 ≠ c2) (hm : mode ∉ [c0, c1, c2]) :
    intraRem mode c0 c1 c2 = mode - ([c0, c1, c2].filter fun c => decide (c < mode)).length := by
  rw [intraRem, foldl_dropAbove (sortDesc_pairwise h01 h02 h12) (mt mem_sortDesc.1 hm),
    ((sortDesc_perm h01 h02 h12).filter _).length_eq]

/-- Of the 35 modes at most 32 are no candidates, so the remainder fits five bins. -/
theorem sub_length_below_lt {mode c0 c1 c2 : Nat} (hmode : mode ≤ 34) (hc : c0 ≤ 34 ∧ c1 ≤ 34 ∧ c2 ≤ 34)
    (h01 : c0 ≠ c1) (h02 : c0 ≠ c2) (h12 : c1 ≠ c2) (hm : mode ∉ [c0, c1, c2]) :
    mode - ([c0, c1, c2].filter fun c => decide (c < mode)).length < 32 := by
  simp only [List.mem_cons, List.not_mem_nil, or_false, not_or] at hm
  simp only [List.filter_cons, decide_eq_true_eq, List.filter_nil]
  split_ifs <;> simp only [List.length_cons, List.length_nil] <;> omega

/-- No more candidates lie below the mode than there are modes below it. -/
theorem length_below_le {mode c0 c1 c2 : Nat} (h01 : c0 ≠ c1) (h02 : c0 ≠ c2) (h12 : c1 ≠ c2) :
    ([c0, c1, c2].filter fun c => decide (c < mode)).length ≤ mode := by
  simp only [List.filter_cons, decide_eq_true_eq, List.filter_nil]
  split_ifs <;> simp only [List.length_cons, List.length_nil] <;> omega

/-- INTRA_DIR_LUMA with its checks passed: the first candidate that is the mode, or the remainder. -/
theorem binsIntraDirLuma_eq_ok {mode c0 c1 c2 : Nat} (hle : mode ≤ 34 ∧ c0 ≤ 34 ∧ c1 ≤ 34 ∧ c2 ≤ 34)
    (hne : c0 ≠ c1 ∧ c0 ≠ c2 ∧ c1 ≠ c2) : binsIntraDirLuma mode c0 c1 c2 = .ok
      (if mode = c0 then [.reg 13 true, .ep false]
       else if mode = c1 then [.reg 13 true, .ep true, .ep false]
       else if mode = c2 then [.reg 13 true, .ep true, .ep true]
       else .reg 13 false :: epBitsOf (intraRem mode c0 c1 c2) 5) := by
  rw [← epBins_eq_epBitsOf]
  exact unlessFault_ok.2 ⟨by simp; omega, unlessFault_ok.2 ⟨by simp [hne], rfl⟩⟩

/-- Settles O35: renumbering counts the candidates below the mode, and of 35 modes 32 are no candidates. -/
theorem intraLumaModes : Obligations.IntraLumaModes := by
  refine fun mode c0 c1 c2 s hs => ⟨fun h => exec_of_bins_error rfl hs (unlessFault_error.2 (.inl ⟨?_, rfl⟩)),
    fun hle => ⟨fun h => exec_of_bins_error rfl hs (unlessFault_error.2 (.inr ⟨?_, unlessFault_error.2 (.inl ⟨?_, rfl⟩)⟩)),
      fun hne => ?_⟩⟩
  · simpa [or_assoc] using h
  · simp; omega
  · simpa [or_assoc] using h
  have hbins := binsIntraDirLuma_eq_ok hle hne
  obtain ⟨h01, h02, h12⟩ := hne
  refine ⟨?_, ?_, ?_, ?_⟩
  · rintro rfl
    exact exec_of_bins rfl hs (hbins.trans (by simp))
  · rintro rfl
    exact exec_of_bins rfl hs (hbins.trans (by simp [h01.symm]))
  · rintro rfl
    exact exec_of_bins rfl hs (hbins.trans (by simp [h02.symm, h12.symm]))
  · rintro ⟨h0, h1, h2⟩
    have hm : mode ∉ [c0, c1, c2] := by simp [h0, h1, h2]
    exact ⟨sub_length_below_lt hle.1 hle.2 h01 h02 h12 hm, length_below_le h01 h02 h12,
      exec_of_bins rfl hs (hbins.trans (by simp [h0, h1, h2, intraRem_eq h01 h02 h12 hm]))⟩

/-- Settles O36: one case a code, and a case on LM_EN for the explicit directions. -/
theorem intraChromaModes : Obligations.IntraChromaModes := by
  refine fun code s hs => ⟨fun h => exec_of_bins_error rfl hs ?_, exec_of_bins rfl hs rfl,
    fun hlm => exec_of_bins_error rfl hs ?_, fun hlm => exec_of_bins rfl hs ?_, fun h => exec_of_bins rfl hs ?_⟩
  · simp [binsOf, binsIntraDirChroma, h]
  · simp [binsOf, binsIntraDirChroma, hlm]
  · simp [binsOf, binsIntraDirChroma, rb, Group.base, hlm]
  · have h4 : code ≠ 4 := by omega
    have h5 : code ≠ 5 := by omega
    have hle : code ≤ 5 := by omega
    cases hlm : s.config.lmEn <;>
      simp [binsOf, binsIntraDirChroma, unlessFault_ok, rb, Group.base, epBins_eq_epBitsOf, hlm, h4, h5, hle]

/-! ### Directions of prediction (R209) -/

/-- Settles O37: one case a direction. -/
theorem interDirections : Obligations.InterDirections := by
  refine fun dir ctd s hs => ⟨fun h small => exec_of_bins_error rfl hs ?_, exec_of_bins_error rfl hs rfl,
    exec_of_bins rfl hs rfl, fun list1 => ⟨?_, ?_⟩⟩
  · simp [binsOf, binsInterDir, h]
  · cases list1 <;> exact exec_of_bins rfl hs rfl
  · cases list1 <;> exact exec_of_bins rfl hs rfl

/-! ### Motion vectors and delta-QP (R211, R212) -/

/-- Settles O38: EGk is the string of R182, and a component is nonzero where its magnitude is positive. -/
theorem mvdBins : Obligations.MvdBins := by
  intro x y s hs
  refine exec_of_bins rfl hs ?_
  simp [binsOf, binsMvd, mvdGreater1, mvdTail, rb, Group.base, epAll, binEGk_eq_r182Bins, Int.natAbs_pos]

/-- The wrap of R212: into 52 + o values, modulo 52 + o. -/
theorem wrapDeltaQp_spec (o : Nat) (dqp : Int) :
    (-26 - (o / 2 : Nat) ≤ wrapDeltaQp o dqp ∧ wrapDeltaQp o dqp < 26 + o - (o / 2 : Nat)) ∧
      ∃ n : Int, wrapDeltaQp o dqp = dqp + n * (52 + o) := by
  have h0 := Int.emod_nonneg (dqp + 78 + o + (o / 2 : Nat)) (b := 52 + o) (by omega)
  have h1 := Int.emod_lt_of_pos (dqp + 78 + o + (o / 2 : Nat)) (b := 52 + o) (by omega)
  have h2 := Int.emod_add_mul_ediv (dqp + 78 + o + (o / 2 : Nat)) (52 + o)
  unfold wrapDeltaQp
  refine ⟨by omega, 1 - (dqp + 78 + o + (o / 2 : Nat)) / (52 + o), ?_⟩
  linarith

/-- A truncated unary string whose first bin is in one context and whose others are in another. -/
theorem regularThen_binTU (g : Group) (inc0 inc1 s cMax : Nat) (h : 0 < cMax) : regularThen g inc0 inc1 (binTU s cMax) =
    rb g inc0 (decide (s ≠ 0)) :: (List.replicate (s - 1) (rb g inc1 true) ++
      if 0 < s ∧ s < cMax then [rb g inc1 false] else []) := by
  cases s with
  | zero => simp [binTU, regularThen, h]
  | succ s => by_cases hs : s + 1 < cMax <;> simp [binTU, regularThen, List.replicate_succ, hs]

/-- Settles O40: d is the wrapped value, TU(min(|d|, 5), 5) is the first bin and up to four more, and EG0 follows from 5 on. -/
theorem deltaQpBins : Obligations.DeltaQpBins := by
  intro dqp s hs
  obtain ⟨hrange, hmod⟩ := wrapDeltaQp_spec s.config.qpBdOffsetY.toNat dqp
  refine ⟨_, hrange, hmod, exec_of_bins rfl hs ?_⟩
  simp only [binsOf, binsDeltaQp]
  generalize wrapDeltaQp s.config.qpBdOffsetY.toNat dqp = d
  rw [regularThen_binTU _ _ _ _ _ (by decide)]
  simp [rb, Group.base, epAll, binEGk_eq_r182Bins]

/-! ### Filter magnitudes (R217, R218) -/

theorem binsUvlc_eq (g : Group) (val : Nat) : binsUvlc g val = if val = 0 then [.reg g.base false]
    else .reg g.base true :: (List.replicate (val - 1) (.reg (g.base + 1) true) ++ [.reg (g.base + 1) false]) := by
  cases val <;> simp [binsUvlc, binU, rb]

theorem binsSvlc_eq_ok (g : Group) {val : Int} (h : val ≠ -256) : binsSvlc g val = .ok (if val = 0 then [.reg g.base false]
    else .reg g.base true :: .reg (g.base + 1) (decide (val < 0)) ::
      (List.replicate (val.natAbs - 1) (.reg (g.base + 2) true) ++ [.reg (g.base + 2) false])) := by
  by_cases h0 : val = 0 <;> simp [binsSvlc, binU, rb, h, h0]

/-- Settles O41: both families code the same string, each in its own group. -/
theorem filterMagnitudes : Obligations.FilterMagnitudes := by
  refine fun s hs => ⟨fun val p hp => ?_, fun val p hp => ⟨?_, fun hval => ?_⟩⟩
  · simp only [List.mem_cons, List.not_mem_nil, or_false] at hp
    obtain rfl | rfl := hp <;> exact exec_of_bins rfl hs (congrArg _ (binsUvlc_eq _ val))
  · rintro rfl
    simp only [List.mem_cons, List.not_mem_nil, or_false] at hp
    obtain rfl | rfl := hp <;> exact exec_of_bins_error rfl hs rfl
  · simp only [List.mem_cons, List.not_mem_nil, or_false] at hp
    obtain rfl | rfl := hp <;> exact exec_of_bins rfl hs (binsSvlc_eq_ok _ hval)

end Sys2Proof.Machine
end

section
/-! PROOFS. The value of a command read back from its bins: a decoder for the commands of 42_syntax_elements.md, and that it
undoes them (R219). -/

namespace Sys2Proof.Machine

open Sys2Proof

/-! ### The bits of a bin string -/

/-- The value of a bin, without its coder and its context. -/
def Bin.bit : Bin → Bool
  | .reg _ b | .ep b | .trm b => b

@[simp] theorem Bin.bit_reg (i : Nat) (b : Bool) : (Bin.reg i b).bit = b := rfl

@[simp] theorem Bin.bit_ep (b : Bool) : (Bin.ep b).bit = b := rfl

@[simp] theorem Bin.bit_trm (b : Bool) : (Bin.trm b).bit = b := rfl

@[simp] theorem Bin.bit_rb (g : Group) (inc : Nat) (b : Bool) : (rb g inc b).bit = b := rfl

@[simp] theorem map_bit_epAll (bs : List Bool) : (epAll bs).map Bin.bit = bs := by
  simp [epAll, Function.comp_def]

@[simp] theorem map_bit_epBins (v n : Nat) : (epBins v n).map Bin.bit = binFL v n := map_bit_epAll _

@[simp] theorem map_bit_map_rb (g : Group) (inc : Nat) (bs : List Bool) : (bs.map (rb g inc)).map Bin.bit = bs := by
  simp [Function.comp_def]

@[simp] theorem map_bit_firstRegular (g : Group) (inc : Nat) (bs : List Bool) : (firstRegular g inc bs).map Bin.bit = bs := by
  cases bs <;> simp [firstRegular]

@[simp] theorem map_bit_firstTwoRegular (g : Group) (bs : List Bool) : (firstTwoRegular g bs).map Bin.bit = bs := by
  cases bs <;> simp [firstTwoRegular]

@[simp] theorem map_bit_regularThen (g : Group) (inc0 inc1 : Nat) (bs : List Bool) :
    (regularThen g inc0 inc1 bs).map Bin.bit = bs := by
  cases bs with
  | nil => rfl
  | cons b bs => rw [regularThen, List.map_cons, map_bit_map_rb, Bin.bit_rb]

theorem Bin.bit_eq_of_event_eq {x y : Bin} {a b : List Ctx} (h : (codeBin x a).2 = (codeBin y b).2) : x.bit = y.bit := by
  cases x <;> cases y <;> simp_all [codeBin]

/-- Equal events carry equal bits, whatever the banks they were coded on. -/
theorem map_bit_eq_of_events_eq {xs ys : List Bin} {a b : List Ctx} (h : (codeBins xs a).2 = (codeBins ys b).2) :
    xs.map Bin.bit = ys.map Bin.bit := by
  induction xs generalizing ys a b with
  | nil => cases ys with
    | nil => rfl
    | cons y ys => cases h
  | cons x xs ih => cases ys with
    | nil => cases h
    | cons y ys =>
      obtain ⟨hxy, hrest⟩ := List.cons.inj h
      rw [List.map_cons, List.map_cons, Bin.bit_eq_of_event_eq hxy, ih hrest]

/-! ### Binarizers with more bins behind them (41_binarization.md R186) -/

theorem invTU_binTU_append {s cMax : Nat} (h : s ≤ cMax) (rest : List Bool) : invTU (binTU s cMax ++ rest) cMax = s := by
  induction cMax generalizing s with
  | zero => rw [Nat.le_zero.1 h, invTU]
  | succ m ih =>
    cases s with
    | zero => rfl
    | succ s =>
      have hs : binTU (s + 1) (m + 1) = true :: binTU s m := by simp [binTU, List.replicate_succ]
      rw [hs, List.cons_append, invTU, ih (Nat.le_of_succ_le_succ h)]

theorem msbFirst_binFL_append (v n : Nat) (rest : List Bool) : msbFirst (binFL v n ++ rest) n = v % 2 ^ n := by
  rw [← msbFirst_binFL, msbFirst, msbFirst, List.take_append_of_le_length (by simp [binFL_eq_bitsDown])]

theorem invEGk_binEGk_append (v k : Nat) (rest : List Bool) : invEGk (binEGk v k ++ rest) k = v := by
  suffices h : ∀ fuel v k, v < fuel → invEGk (binEGLoop fuel v k ++ rest) k = v from h _ _ _ (Nat.lt_succ_self v)
  intro fuel
  induction fuel with
  | zero => intro v k h; omega
  | succ n ih =>
    intro v k h
    have hp := Nat.two_pow_pos k
    unfold binEGLoop
    split
    · rw [List.cons_append, invEGk, ih _ _ (by omega)]
      omega
    · rw [List.cons_append, invEGk, msbFirst_binFL_append, Nat.mod_eq_of_lt (by omega)]

/-! ### Reading back the values with a code of their own -/

/-- A value from its sign and its magnitude. -/
def signed (neg : Bool) (a : Nat) : Int := if neg then -(a : Int) else a

theorem signed_natAbs (v : Int) : signed (decide (v < 0)) v.natAbs = v := by
  unfold signed
  split_ifs with h <;> rw [decide_eq_true_eq] at h <;> omega

/-- The partition of R205, in a column where bin 2 is present or not. -/
def readPart (intra bin2 : Bool) (bs : List Bool) : Nat :=
  if bs.headD true then 0
  else if intra then 3
  else if bs.getD 1 false then (if bs.getD 2 true then 1 else 4 + (bs.getD 3 false).toNat)
  else if bin2 then (if bs.getD 2 false then 2 else 3)
  else if bs.getD 2 true then 2 else 6 + (bs.getD 3 false).toNat

/-- The table of R205 is read back column by column; asymmetric partitions and bin 2 never come together. -/
theorem readPart_r205Bins : ∀ intra atMin amp bin2 : Bool, (amp = true → atMin = false) → (bin2 = true → atMin = true) →
    ∀ part < 8, ∀ bins ∈ r205Bins intra atMin amp bin2 part, readPart intra bin2 (bins.map Bin.bit) = part := by
  decide

theorem readPart_binsPartSize {c : ConfigReg} {part log2Cb : Nat} {intra atMin ampOk : Bool} {bins : List Bin}
    (hpart : part < 8) (h : binsPartSize c part intra atMin log2Cb ampOk = .ok bins) :
    readPart intra (atMin && !no4x4 c log2Cb) (bins.map Bin.bit) = part := by
  have hlog := (unlessFault_ok.1 h).1
  simp only [Bool.or_eq_false_iff, decide_eq_false_iff_not, Nat.not_lt] at hlog
  rw [binsPartSize_eq_r205Bins c intra atMin ampOk hpart hlog] at h
  refine readPart_r205Bins intra atMin (ampAllowed c ampOk atMin) _ (by simp [ampAllowed]) (by simp +contextual) part hpart
    bins ?_
  cases htable : r205Bins intra atMin (ampAllowed c ampOk atMin) (atMin && !no4x4 c log2Cb) part with
  | some entry => rw [htable] at h; cases h; rfl
  | none => rw [htable] at h; cases h

/-- One step back to the numbering with the candidate `s` (42_syntax_elements.md R207). -/
def raiseFrom (s rem : Nat) : Nat := if s ≤ rem then rem + 1 else rem

/-- Raising from the smallest candidate up undoes the renumbering from the largest down. -/
theorem foldr_raiseFrom_foldl_dropAbove {l : List Nat} (hl : l.Pairwise (· > ·)) {mode : Nat} (hm : mode ∉ l) :
    l.foldr raiseFrom (l.foldl dropAbove mode) = mode := by
  induction l generalizing mode with
  | nil => rfl
  | cons s l ih =>
    obtain ⟨hs, hl⟩ := List.pairwise_cons.1 hl
    obtain ⟨hne, hm⟩ := not_or.1 (mt List.mem_cons.2 hm)
    have hm' : dropAbove mode s ∉ l := by
      unfold dropAbove
      split
      · exact fun h => by have := hs _ h; omega
      · exact hm
    rw [List.foldl_cons, List.foldr_cons, ih hl hm', raiseFrom, dropAbove]
    split_ifs <;> omega

/-- The intra mode of R207: a candidate, or a remainder numbered without the candidates. -/
def readMode (c0 c1 c2 : Nat) (bs : List Bool) : Nat :=
  if bs.headD false then [c0, c1, c2].getD (invTU bs.tail 2) 0
  else (sortDesc c0 c1 c2).foldr raiseFrom (msbFirst bs.tail 5)

theorem readMode_binsIntraDirLuma {mode c0 c1 c2 : Nat} {bins : List Bin} (h : binsIntraDirLuma mode c0 c1 c2 = .ok bins) :
    readMode c0 c1 c2 (bins.map Bin.bit) = mode := by
  obtain ⟨hle, h⟩ := unlessFault_ok.1 h
  obtain ⟨hne, h⟩ := unlessFault_ok.1 h
  obtain rfl := Except.ok.inj h
  have hle : mode ≤ 34 ∧ c0 ≤ 34 ∧ c1 ≤ 34 ∧ c2 ≤ 34 := by simpa [and_assoc] using hle
  obtain ⟨h01, h02, h12⟩ : c0 ≠ c1 ∧ c0 ≠ c2 ∧ c1 ≠ c2 := by simpa [and_assoc] using hne
  split_ifs with h0 h1 h2
  · exact h0.symm
  · exact h1.symm
  · exact h2.symm
  · have hm : mode ∉ [c0, c1, c2] := by simp [h0, h1, h2]
    have hlt : intraRem mode c0 c1 c2 < 2 ^ 5 :=
      intraRem_eq h01 h02 h12 hm ▸ sub_length_below_lt hle.1 hle.2 h01 h02 h12 hm
    have hback := foldr_raiseFrom_foldl_dropAbove (sortDesc_pairwise h01 h02 h12) (mt mem_sortDesc.1 hm)
    rw [List.map_cons, map_bit_epBins, readMode, Bin.bit_rb, List.headD_cons, if_neg Bool.false_ne_true, List.tail_cons,
      msbFirst_binFL, Nat.mod_eq_of_lt hlt]
    exact hback

/-- The direction of R208. -/
def readChroma (lmEn : Bool) (bs : List Bool) : Nat :=
  if !bs.headD false then 4
  else if lmEn then (if bs.getD 1 false then msbFirst (bs.drop 2) 2 else 5)
  else msbFirst (bs.drop 1) 2

theorem readChroma_binsIntraDirChroma {c : ConfigReg} {code : Nat} {bins : List Bin}
    (h : binsIntraDirChroma c code = .ok bins) : readChroma c.lmEn (bins.map Bin.bit) = code := by
  obtain ⟨hle, h⟩ := unlessFault_ok.1 h
  obtain ⟨hlm, h⟩ := unlessFault_ok.1 h
  obtain rfl := Except.ok.inj h
  have hle : code ≤ 5 := by simpa using hle
  split_ifs with h4 hen h5
  · exact h4.symm
  · simp [readChroma, hen, h5]
  · have hlt : code < 4 := by omega
    simp [readChroma, hen, msbFirst_binFL, Nat.mod_eq_of_lt hlt]
  · have h5 : code ≠ 5 := fun h5 => by simp [h5, hen] at hlm
    have hlt : code < 4 := by omega
    simp [readChroma, hen, msbFirst_binFL, Nat.mod_eq_of_lt hlt]

/-- The direction of R209. -/
def readInterDir (small : Bool) (bs : List Bool) : Nat :=
  if small then (bs.headD false).toNat
  else if bs.headD false then 2 else (bs.getD 1 false).toNat

theorem readInterDir_binsInterDir {dir ctd : Nat} {small : Bool} {bins : List Bin}
    (h : binsInterDir dir ctd small = .ok bins) : readInterDir small (bins.map Bin.bit) = dir := by
  obtain ⟨hlt, h⟩ := unlessFault_ok.1 h
  obtain ⟨hbi, h⟩ := unlessFault_ok.1 h
  obtain rfl := Except.ok.inj h
  have hlt : dir < 3 := by simpa using hlt
  clear h
  interval_cases dir <;> cases small <;> simp_all [readInterDir]

/-- The flag that opens a string where it is there, and what is behind it. -/
def readFlag (present : Bool) (bs : List Bool) : Bool × List Bool := if present then (bs.headD false, bs.tail) else (false, bs)

/-- One MVD component behind its two flags, and what is behind it (42_syntax_elements.md R211). -/
def readComponent (gt0 gt1 : Bool) (bs : List Bool) : Int × List Bool :=
  if gt0 then
    if gt1 then
      let rest := bs.drop (binEGk (invEGk bs 1) 1).length
      (signed (rest.headD false) (invEGk bs 1 + 2), rest.tail)
    else (signed (bs.headD false) 1, bs.tail)
  else (0, bs)

theorem readFlag_mvdGreater1 (v : Int) (rest : List Bool) : readFlag (decide (v ≠ 0)) ((mvdGreater1 v).map Bin.bit ++ rest) =
    (decide (1 < v.natAbs), rest) := by
  by_cases h : v = 0 <;> simp [readFlag, mvdGreater1, h]

theorem readComponent_mvdTail (v : Int) (rest : List Bool) :
    readComponent (decide (v ≠ 0)) (decide (1 < v.natAbs)) ((mvdTail v).map Bin.bit ++ rest) = (v, rest) := by
  have hsign := signed_natAbs v
  by_cases h0 : v = 0
  · simp [readComponent, mvdTail, h0]
  · have hpos : 0 < v.natAbs := Int.natAbs_pos.2 h0
    by_cases h1 : 1 < v.natAbs
    · rw [← Nat.sub_add_cancel h1] at hsign
      simpa [readComponent, mvdTail, h0, h1, invEGk_binEGk_append] using hsign
    · rw [show v.natAbs = 1 by omega] at hsign
      simpa [readComponent, mvdTail, h0, h1] using hsign

/-- Both components of an MVD (42_syntax_elements.md R211). -/
def readMvd (bs : List Bool) : Int × Int :=
  let gx := bs.getD 0 false
  let gy := bs.getD 1 false
  let fx := readFlag gx (bs.drop 2)
  let fy := readFlag gy fx.2
  let x := readComponent gx fx.1 fy.2
  (x.1, (readComponent gy fy.1 x.2).1)

theorem readMvd_binsMvd (x y : Int) : readMvd ((binsMvd x y).map Bin.bit) = (x, y) := by
  have hy := readComponent_mvdTail y []
  rw [List.append_nil] at hy
  have hbits : (binsMvd x y).map Bin.bit = decide (x ≠ 0) :: decide (y ≠ 0) :: ((mvdGreater1 x).map Bin.bit ++
      ((mvdGreater1 y).map Bin.bit ++ ((mvdTail x).map Bin.bit ++ (mvdTail y).map Bin.bit))) := by
    simp [binsMvd]
  simp only [readMvd, hbits, List.getD_cons_zero, List.getD_cons_succ, List.drop_succ_cons, List.drop_zero,
    readFlag_mvdGreater1, readComponent_mvdTail, hy]

/-- The wrapped delta-QP of R212; the last bin of a value other than 0 is its sign. -/
def readDeltaQp (bs : List Bool) : Int :=
  signed (bs.getLastD false) (if invTU bs 5 < 5 then invTU bs 5 else 5 + invEGk (bs.drop 5) 0)

theorem readDeltaQp_binsDeltaQp (c : ConfigReg) (dqp : Int) :
    readDeltaQp ((binsDeltaQp c dqp).map Bin.bit) = wrapDeltaQp c.qpBdOffsetY.toNat dqp := by
  unfold binsDeltaQp
  dsimp only
  generalize wrapDeltaQp c.qpBdOffsetY.toNat dqp = d
  have hsign := signed_natAbs d
  have htu := invTU_binTU_append (s := min d.natAbs 5) (cMax := 5) (Nat.min_le_right _ _)
  by_cases h0 : d = 0
  · subst h0
    rfl
  have hpos : 0 < d.natAbs := Int.natAbs_pos.2 h0
  by_cases h5 : 5 ≤ d.natAbs
  · rw [Nat.min_eq_right h5] at htu ⊢
    rw [← Nat.add_sub_cancel' h5] at hsign
    have hdrop : ∀ rest, (binTU 5 5 ++ rest).drop 5 = rest := fun _ => rfl
    simpa [readDeltaQp, h5, h0, htu, hdrop, invEGk_binEGk_append] using hsign
  · have hlt : d.natAbs < 5 := Nat.lt_of_not_le h5
    rw [Nat.min_eq_left (Nat.le_of_lt hlt)] at htu ⊢
    simpa [readDeltaQp, h5, h0, htu, hlt] using hsign

/-- A signed filter magnitude: one bin for 0, else the sign and one bin more than the magnitude (R218). -/
def readSvlc (bs : List Bool) : Int := signed (bs.getD 1 false) (bs.length - 2)

theorem readSvlc_binsSvlc {g : Group} {val : Int} {bins : List Bin} (h : binsSvlc g val = .ok bins) :
    readSvlc (bins.map Bin.bit) = val := by
  obtain rfl := Except.ok.inj (unlessFault_ok.1 h).2
  by_cases h0 : val = 0
  · simp [readSvlc, signed, h0]
  · have hsign := signed_natAbs val
    have hpos : 0 < val.natAbs := Int.natAbs_pos.2 h0
    rw [← Nat.sub_add_cancel hpos] at hsign
    simpa [readSvlc, binU, h0] using hsign

/-- An unsigned filter magnitude has one bin more than its value (R217). -/
theorem binsUvlc_length (g : Group) (val : Nat) : (binsUvlc g val).length = val + 1 := by
  cases val <;> simp [binsUvlc, binU]

/-! ### Reading back a command (R219) -/

/-- The command that emitted the bits `bs`, from the operands the decoder knows and CONFIG. -/
def readBack (c : ConfigReg) (bs : List Bool) : Instr → Instr
  | .splitFlag _ atMax avL avA dL dA dC => .splitFlag (bs.headD false) atMax avL avA dL dA dC
  | .skipFlag _ avL skL avA skA => .skipFlag (bs.headD false) avL skL avA skA
  | .mergeFlag _ => .mergeFlag (bs.headD false)
  | .mergeIdx _ nc => .mergeIdx (invTU bs (nc - 1)) nc
  | .partSize _ intra atMin log2Cb ampOk =>
    .partSize (readPart intra (atMin && !no4x4 c log2Cb) bs) intra atMin log2Cb ampOk
  | .predMode _ => .predMode (bs.headD false)
  | .intraDirLuma _ c0 c1 c2 => .intraDirLuma (readMode c0 c1 c2 bs) c0 c1 c2
  | .intraDirChroma _ => .intraDirChroma (readChroma c.lmEn bs)
  | .interDir _ ctd small => .interDir (readInterDir small bs) ctd small
  | .refIdx _ nr => .refIdx (invTU bs (nr - 1)) nr
  | .mvd _ _ => .mvd (readMvd bs).1 (readMvd bs).2
  | .deltaQp _ => .deltaQp (readDeltaQp bs)
  | .qtCbf _ pl ci => .qtCbf (bs.headD false) pl ci
  | .qtRootCbf _ => .qtRootCbf (bs.headD false)
  | .transSubdiv _ ci => .transSubdiv (bs.headD false) ci
  | .termBin _ => .termBin (bs.headD false)
  | .alfFlag _ => .alfFlag (bs.headD false)
  | .alfUvlc _ => .alfUvlc (bs.length - 1)
  | .alfSvlc _ => .alfSvlc (readSvlc bs)
  | .saoFlag _ => .saoFlag (bs.headD false)
  | .saoUvlc _ => .saoUvlc (bs.length - 1)
  | .saoSvlc _ => .saoSvlc (readSvlc bs)
  | i => i

/-- A command with its delta-QP, if it has one, wrapped as R212 codes it. -/
def wrapped (c : ConfigReg) : Instr → Instr
  | .deltaQp dqp => .deltaQp (wrapDeltaQp c.qpBdOffsetY.toNat dqp)
  | i => i

theorem codesBins_withoutValue (i : Instr) : i.withoutValue.codesBins = i.codesBins := by cases i <;> rfl

/-- What a command emits reads back as that command, a delta-QP as its wrapped value. -/
theorem readBack_binsOf {i : Instr} {s : State} {bins : List Bin} (hw : i.wf = true) (h : binsOf i s = .ok bins) :
    readBack s.config (bins.map Bin.bit) i.withoutValue = wrapped s.config i := by
  cases i with
  | splitFlag v atMax avL avA dL dA dC =>
    cases atMax
    · cases h; rfl
    · obtain ⟨rfl, h⟩ := unlessFault_ok.1 h
      cases h; rfl
  | mergeIdx idx nc =>
    obtain ⟨hnc, h⟩ := unlessFault_ok.1 h
    obtain ⟨hidx, h⟩ := unlessFault_ok.1 h
    cases h
    have hle : idx ≤ nc - 1 := by simp at hidx; omega
    simp [Instr.withoutValue, readBack, wrapped, invTU_binTU hle]
  | refIdx ri nr =>
    obtain ⟨hnr, h⟩ := unlessFault_ok.1 h
    obtain ⟨hri, h⟩ := unlessFault_ok.1 h
    cases h
    have hle : ri ≤ nr - 1 := by simp at hri; omega
    simp [Instr.withoutValue, readBack, wrapped, invTU_binTU hle]
  | partSize part intra atMin log2Cb ampOk =>
    obtain ⟨hpart, -⟩ := Bool.and_eq_true_iff.1 hw
    simp only [Instr.withoutValue, readBack, wrapped, readPart_binsPartSize (of_decide_eq_true hpart) h]
  | intraDirLuma mode c0 c1 c2 => simp only [Instr.withoutValue, readBack, wrapped, readMode_binsIntraDirLuma h]
  | intraDirChroma code => simp only [Instr.withoutValue, readBack, wrapped, readChroma_binsIntraDirChroma h]
  | interDir dir ctd small => simp only [Instr.withoutValue, readBack, wrapped, readInterDir_binsInterDir h]
  | mvd x y => cases h; simp only [Instr.withoutValue, readBack, wrapped, readMvd_binsMvd]
  | deltaQp dqp => cases h; simp only [Instr.withoutValue, readBack, wrapped, readDeltaQp_binsDeltaQp]
  | qtCbf v pl ci | transSubdiv v ci =>
    cases (unlessFault_ok.1 h).2
    rfl
  | alfUvlc val | saoUvlc val =>
    cases h
    simp [Instr.withoutValue, readBack, wrapped, binsUvlc_length]
  | alfSvlc val | saoSvlc val => simp only [Instr.withoutValue, readBack, wrapped, readSvlc_binsSvlc h]
  | skipFlag | mergeFlag | predMode | qtRootCbf | termBin | alfFlag | saoFlag => cases h; rfl
  | _ => rfl

theorem wrapDeltaQp_congr {o : Nat} {d e : Int} (h : wrapDeltaQp o d = wrapDeltaQp o e) : (d - e) % (52 + o) = 0 := by
  obtain ⟨-, n, hd⟩ := wrapDeltaQp_spec o d
  obtain ⟨-, m, he⟩ := wrapDeltaQp_spec o e
  exact Int.emod_eq_zero_of_dvd ⟨m - n, by linarith⟩

theorem wrapped_cases (c : ConfigReg) (i : Instr) : (∃ d, i = .deltaQp d) ∨ (∀ d, i ≠ .deltaQp d) ∧ wrapped c i = i := by
  cases i with
  | deltaQp d => exact .inl ⟨d, rfl⟩
  | _ => exact .inr ⟨nofun, rfl⟩

/-- Commands equal up to the wrap are equal, or are delta-QPs that differ by a multiple of 52 + o. -/
theorem eq_of_wrapped_eq {c : ConfigReg} {i j : Instr} (h : wrapped c i = wrapped c j) :
    i = j ∨ ∃ d e : Int, i = .deltaQp d ∧ j = .deltaQp e ∧ (d - e) % (52 + c.qpBdOffsetY.toNat) = 0 := by
  obtain ⟨d, rfl⟩ | ⟨hi, hwi⟩ := wrapped_cases c i <;> obtain ⟨e, rfl⟩ | ⟨hj, hwj⟩ := wrapped_cases c j
  · exact .inr ⟨d, e, rfl, rfl, wrapDeltaQp_congr (Instr.deltaQp.inj h)⟩
  · exact absurd (hwj.symm.trans h.symm) (hj _)
  · exact absurd (hwi.symm.trans h) (hi _)
  · exact .inl (hwi.symm.trans (h.trans hwj))

/-- A command that codes bins and did not fault emitted its bins. -/
theorem exec_bins_of_not_faulted {i : Instr} {s t : State} (hi : i.codesBins = true) (hs : s.ready)
    (h : exec i s = .next t) (ht : t.faulted = false) : ∃ bins, binsOf i s = .ok bins ∧ t = s.afterBins bins := by
  cases hb : binsOf i s with
  | ok bins =>
    rw [exec_of_bins hi hs hb] at h
    cases h
    exact ⟨bins, rfl, rfl⟩
  | error c =>
    rw [exec_of_bins_error hi hs hb] at h
    cases h
    cases ht

/-- Settles O39: the events give the bits, and the bits and the operands the decoder knows give the command. -/
theorem syntaxValuesAreRecoverable : Obligations.SyntaxValuesAreRecoverable := by
  intro i j s t u hwi hwj hs hi _ hv ht hu htf huf hbin
  have hj : j.codesBins = true := by rw [← hi, ← codesBins_withoutValue, ← hv, codesBins_withoutValue]
  obtain ⟨bi, hbi, rfl⟩ := exec_bins_of_not_faulted hi hs ht htf
  obtain ⟨bj, hbj, rfl⟩ := exec_bins_of_not_faulted hj hs hu huf
  have hbits := map_bit_eq_of_events_eq (List.append_cancel_left hbin)
  apply eq_of_wrapped_eq (c := s.config)
  rw [← readBack_binsOf hwi hbi, ← readBack_binsOf hwj hbj, hv, hbits]

end Sys2Proof.Machine
end

section
/-! PROOFS. The residual coder taken apart (43_residual.md R262, R272): what a string of remaining levels, a sub-block and a
row of sub-blocks answer, one step at a time, and the scan as a numbering of the block. -/

namespace Sys2Proof.Machine

open Sys2Proof

/-! ### The scan is a numbering (R263, R264) -/

/-- What `r263Scan` lists: every position of the square, once. -/
theorem r263Scan_positions {n scan : Nat} (hn : n = 1 ∨ n = 2 ∨ n = 4 ∨ n = 8) (hs : scan ≤ 2) :
    (r263Scan n scan).Nodup ∧ (r263Scan n scan).length = n * n ∧ ∀ x < n, ∀ y < n, (x, y) ∈ r263Scan n scan := by
  have : scan = 0 ∨ scan = 1 ∨ scan = 2 := by omega
  rcases hn with rfl | rfl | rfl | rfl <;> rcases this with rfl | rfl | rfl <;> decide +kernel

theorem r263Scan_surjective {n scan x y : Nat} (hn : n = 1 ∨ n = 2 ∨ n = 4 ∨ n = 8) (hs : scan ≤ 2) (hx : x < n)
    (hy : y < n) : ∃ i < n * n, (r263Scan n scan).getD i (0, 0) = (x, y) := by
  obtain ⟨-, hlen, hmem⟩ := r263Scan_positions hn hs
  obtain ⟨i, hi, he⟩ := List.mem_iff_getElem.1 (hmem x hx y hy)
  exact ⟨i, hlen ▸ hi, by rw [← List.getElem_eq_getD (h := hi), he]⟩

theorem r263Scan_injective {n scan i j : Nat} (hn : n = 1 ∨ n = 2 ∨ n = 4 ∨ n = 8) (hs : scan ≤ 2) (hi : i < n * n)
    (hj : j < n * n) (h : (r263Scan n scan).getD i (0, 0) = (r263Scan n scan).getD j (0, 0)) : i = j := by
  obtain ⟨hnodup, hlen, -⟩ := r263Scan_positions hn hs
  rw [← hlen] at hi hj
  rw [← List.getElem_eq_getD (h := hi), ← List.getElem_eq_getD (h := hj)] at h
  exact (List.Nodup.getElem_inj_iff hnodup).1 h

/-- Every scan starts at the corner. -/
theorem r263Scan_zero {n scan : Nat} (hn : n = 1 ∨ n = 2 ∨ n = 4 ∨ n = 8) (hs : scan ≤ 2) :
    (r263Scan n scan).getD 0 (0, 0) = (0, 0) := by
  have : scan = 0 ∨ scan = 1 ∨ scan = 2 := by omega
  rcases hn with rfl | rfl | rfl | rfl <;> rcases this with rfl | rfl | rfl <;> decide +kernel

variable {k : Block}

theorem Block.ok.side (h : k.ok) : 2 ^ k.l2 = 4 * 2 ^ (k.l2 - 2) ∧ 4 ^ (k.l2 - 2) = 2 ^ (k.l2 - 2) * 2 ^ (k.l2 - 2) := by
  constructor
  · rw [← Nat.pow_add 2 2]
    have := h.two
    congr
    omega
  · rw [← Nat.mul_pow]

theorem Block.ok.side_cases (h : k.ok) :
    2 ^ (k.l2 - 2) = 1 ∨ 2 ^ (k.l2 - 2) = 2 ∨ 2 ^ (k.l2 - 2) = 4 ∨ 2 ^ (k.l2 - 2) = 8 :=
  Block.ns_eq h.two ▸ h.ns_cases

/-- The position of scan index `p`, as sub-block and place in it. -/
theorem Block.ok.pos_eq (h : k.ok) (p : Nat) : k.pos p = k.residual.pos (p / 16) (p % 16) := by
  rw [← h.pos _ _ (Nat.mod_lt _ (by decide)), Nat.div_add_mod]

/-- A scan index names a position of the block. -/
theorem Block.ok.residual_pos_lt (h : k.ok) (i n : Nat) :
    (k.residual.pos i n).1 < 2 ^ k.l2 ∧ (k.residual.pos i n).2 < 2 ^ k.l2 := by
  have hsub := h.sub_lt i
  have hdiv := Residual.pos_div (r := k.residual) h.scan i n
  have hside := h.side.1
  omega

theorem Block.ok.pos_lt_side (h : k.ok) (p : Nat) : (k.pos p).1 < 2 ^ k.l2 ∧ (k.pos p).2 < 2 ^ k.l2 :=
  h.pos_eq p ▸ h.residual_pos_lt _ _

/-- Every position of the block has a scan index. -/
theorem Block.ok.pos_surjective (h : k.ok) {x y : Nat} (hx : x < 2 ^ k.l2) (hy : y < 2 ^ k.l2) :
    ∃ p < 4 ^ k.l2, k.pos p = (x, y) := by
  obtain ⟨hside, hsq⟩ := h.side
  obtain ⟨i, hi, hi'⟩ := r263Scan_surjective (x := x / 4) (y := y / 4) h.side_cases h.scan (by omega) (by omega)
  obtain ⟨n, hn, hn'⟩ := r263Scan_surjective (n := 4) (x := x % 4) (y := y % 4) (by simp) h.scan (by omega) (by omega)
  have hsub : k.residual.sub i = (x / 4, y / 4) := hi'
  refine ⟨16 * i + n, by rw [h.pow]; omega, ?_⟩
  rw [h.pos i n hn, Residual.pos, show k.residual.scan = k.scan from rfl, hn', hsub]
  exact Prod.ext (Nat.div_add_mod x 4) (Nat.div_add_mod y 4)

/-- No position has two scan indexes. -/
theorem Block.ok.pos_injective (h : k.ok) {p q : Nat} (hp : p < 4 ^ k.l2) (hq : q < 4 ^ k.l2) (he : k.pos p = k.pos q) :
    p = q := by
  obtain ⟨-, hsq⟩ := h.side
  rw [h.pow] at hp hq
  rw [h.pos_eq, h.pos_eq] at he
  have hlt := fun n => r263Scan_lt (n := 4) (i := n) (by simp) h.scan
  have hp4 := hlt (p % 16)
  have hq4 := hlt (q % 16)
  simp only [Residual.pos, Prod.mk.injEq, show k.residual.scan = k.scan from rfl] at he
  have hsub : k.residual.sub (p / 16) = k.residual.sub (q / 16) := Prod.ext (by omega) (by omega)
  have hin : (r263Scan 4 k.scan).getD (p % 16) (0, 0) = (r263Scan 4 k.scan).getD (q % 16) (0, 0) :=
    Prod.ext (by omega) (by omega)
  have h1 := r263Scan_injective h.side_cases h.scan (i := p / 16) (j := q / 16) (by omega) (by omega) hsub
  have h2 := r263Scan_injective (n := 4) (by simp) h.scan (i := p % 16) (j := q % 16) (by omega) (by omega) hin
  omega

/-! ### Remaining levels (R272 step 4f, R277, R278) -/

theorem remLevels_nil_ok {b : Build} {first : Option Nat} {g2 : Bool} {i c : Nat} {r : List Bin × Nat} :
    remLevels b first g2 [] i c = .ok r ↔ r = ([], c) := by
  simp [remLevels, eq_comm]

/-- A magnitude that gets a remaining level. -/
theorem remLevels_cons_ok {b : Build} {first : Option Nat} {g2 : Bool} {a i c : Nat} {as : List Nat} {r : List Bin × Nat}
    (hbase : baseLevel b.gt1MaxPerGroup first g2 i a = neededLevel b.gt1MaxPerGroup first i) :
    remLevels b first g2 (a :: as) i c = .ok r ↔
      ∃ bins t, binGR b.grMaxBins (a - baseLevel b.gt1MaxPerGroup first g2 i a) c = .ok bins ∧
        remLevels b first g2 as (i + 1) (nextRice b.riceMax a c) = .ok t ∧ r = (epAll bins ++ t.1, t.2) := by
  rw [remLevels, if_pos hbase]
  cases binGR b.grMaxBins (a - baseLevel b.gt1MaxPerGroup first g2 i a) c with
  | error e => simp
  | ok bins => cases remLevels b first g2 as (i + 1) (nextRice b.riceMax a c) <;> simp [eq_comm]

/-- A magnitude that its flags have conveyed. -/
theorem remLevels_cons_of_ne {b : Build} {first : Option Nat} {g2 : Bool} {a i c : Nat} {as : List Nat}
    (hbase : baseLevel b.gt1MaxPerGroup first g2 i a ≠ neededLevel b.gt1MaxPerGroup first i) :
    remLevels b first g2 (a :: as) i c = remLevels b first g2 as (i + 1) c := by
  rw [remLevels, if_neg hbase]

/-! ### The levels of a sub-block (R272) -/

/-- The hidden sign of a sub-block does not fit (R275, R276). -/
def Block.hiddenMismatch (k : Block) (S : List Nat) : Bool := k.signHidden S && parityMismatch (S.map k.coefAt)

/-- The magnitudes at the scan indexes given (R262). -/
def Block.magnitudesOf (k : Block) (S : List Nat) : List Nat := (S.map k.coefAt).map Int.natAbs

theorem Block.mem_magnitudesOf {S : List Nat} {a : Nat} : a ∈ k.magnitudesOf S ↔ ∃ p ∈ S, (k.coefAt p).natAbs = a := by
  simp [Block.magnitudesOf]

/-- The first flagged magnitude above 1 (R272). -/
def firstAbove1 (gt1Max : Nat) (A : List Nat) : Option Nat := (A.take gt1Max).findIdx? fun a => decide (1 < a)

/-- The greater-than-2 flag (R272, R274). -/
def gt2Flag (first : Option Nat) (A : List Nat) : Bool := first.any fun f => decide (2 < A.getD f 0)

/-- The bin of the greater-than-2 flag (R274). -/
def gt2Bins (chroma : Bool) (set : Nat) (first : Option Nat) (A : List Nat) : List Bin :=
  if first.isSome then [rb .gt2 (set + if chroma then 4 else 0) (gt2Flag first A)] else []

theorem exceptMap_ok {ε α β : Type} {r : Except ε α} {f : α → β} {y : β} :
    r.map f = .ok y ↔ ∃ x, r = .ok x ∧ y = f x := by
  cases r <;> simp [Except.map, eq_comm]

theorem exceptMap_error {ε α β : Type} {r : Except ε α} {f : α → β} {e : ε} : r.map f = .error e ↔ r = .error e := by
  cases r <;> simp [Except.map]

theorem exceptBind_ok {ε α β : Type} {r : Except ε α} {f : α → Except ε β} {y : β} :
    r.bind f = .ok y ↔ ∃ x, r = .ok x ∧ f x = .ok y := by
  cases r <;> simp [Except.bind]

theorem exceptBind_error {ε α β : Type} {r : Except ε α} {f : α → Except ε β} {e : ε} :
    r.bind f = .error e ↔ r = .error e ∨ ∃ x, r = .ok x ∧ f x = .error e := by
  cases r <;> simp [Except.bind]

/-- The levels of a sub-block: the check of the hidden sign, then the flags, the signs and the remaining levels. -/
theorem Block.codeLevels_eq (k : Block) (i c1 c : Nat) (S : List Nat) :
    k.codeLevels i S c1 c =
      let A := k.magnitudesOf S
      let first := firstAbove1 k.build.gt1MaxPerGroup A
      let set := ctxSetOf k.chroma i c1
      let g1 := gt1Flags k.chroma set (A.take k.build.gt1MaxPerGroup) 1
      unlessFault (k.hiddenMismatch S) .sbhParity ((remLevels k.build first (gt2Flag first A) A 0 c).map fun r =>
        (g1.1 ++ gt2Bins k.chroma set first A ++ signBins (k.signHidden S) (S.map k.coefAt) ++ r.1, g1.2, r.2)) := by
  unfold Block.codeLevels Block.hiddenMismatch Block.magnitudesOf firstAbove1
  dsimp only
  generalize List.findIdx? _ (List.take _ _) = first
  cases k.signHidden S && parityMismatch (S.map k.coefAt) with
  | true => rfl
  | false =>
    cases first with
    | none => cases h : remLevels k.build none _ _ 0 c <;> simp_all [gt2Flag, gt2Bins, Except.map]
    | some f => cases h : remLevels k.build (some f) _ _ 0 c <;> simp_all [gt2Flag, gt2Bins, Except.map]

/-! ### The sub-blocks (R262 step 4) -/

/-- The levels of a sub-block with the nonzero coefficients `S`: none where there are none, and then c1 and cRice stay
(R262, R279). -/
def Block.subBlockLevels (k : Block) (i : Nat) (S : List Nat) (c1 c : Nat) : Except Cause (List Bin × Nat × Nat) :=
  if S = [] then .ok ([], c1, c) else k.codeLevels i S c1 c

/-- One sub-block, and then those before it in scan order. -/
theorem Block.subBlocks_succ (k : Block) (last i c1 c : Nat) : k.subBlocks last (i + 1) c1 c =
    (k.subBlockLevels i (k.subBlockFlags last i).2 c1 (riceAtSubBlock k.build c)).bind fun l =>
      (k.subBlocks last i l.2.1 l.2.2).map fun rest => (k.subBlockFlags last i).1 ++ l.1 ++ rest := by
  rw [Block.subBlocks, Block.subBlockLevels]
  split
  · cases h : k.subBlocks last i c1 (riceAtSubBlock k.build c) <;> simp [Except.bind, Except.map, h]
  · cases k.codeLevels i (k.subBlockFlags last i).2 c1 (riceAtSubBlock k.build c) with
    | error e => rfl
    | ok l => cases h : k.subBlocks last i l.2.1 l.2.2 <;> simp [Except.bind, Except.map, h]

theorem Block.subBlocks_succ_ok {last i c1 c : Nat} {bins : List Bin} : k.subBlocks last (i + 1) c1 c = .ok bins ↔
    ∃ l rest, k.subBlockLevels i (k.subBlockFlags last i).2 c1 (riceAtSubBlock k.build c) = .ok l ∧
      k.subBlocks last i l.2.1 l.2.2 = .ok rest ∧ bins = (k.subBlockFlags last i).1 ++ l.1 ++ rest := by
  simp only [Block.subBlocks_succ, exceptBind_ok, exceptMap_ok, exists_and_left]

/-- A block with a nonzero coefficient. -/
theorem Block.bins_of_last {p : Nat} (hl : k.last? = some p) : k.bins =
    (k.subBlocks p (p / 16 + 1) 1 0).map (k.lastPosBins (k.pos p).1 (k.pos p).2 ++ ·) := by
  rw [Block.bins, hl]
  cases h : k.subBlocks p (p / 16 + 1) 1 0 <;> simp [Except.map, h]

theorem Block.bins_of_no_last (hl : k.last? = none) : k.bins = .ok [] := by rw [Block.bins, hl]

end Sys2Proof.Machine
end

section
/-! PROOFS. A block read back from its bins (43_residual.md R262 to R281): two blocks of one geometry are taken apart side by
side, and where their bits agree each part holds the same values and ends at the same bin. -/

namespace Sys2Proof.Machine

open Sys2Proof

/-- Two codes that are read back with anything behind them: equal strings hold equal values and go on alike. -/
theorem append_inj_of_read {α : Type} {code : α → List Bool} {read : List Bool → α} {a b : α} {xs ys : List Bool}
    (ha : ∀ rest, read (code a ++ rest) = a) (hb : ∀ rest, read (code b ++ rest) = b)
    (h : code a ++ xs = code b ++ ys) : a = b ∧ xs = ys := by
  have hab : a = b := by rw [← ha xs, h, hb]
  subst hab
  exact ⟨rfl, List.append_cancel_left h⟩

/-! ### Last position (R265) -/

theorem map_bit_lastPrefix (g : Group) (l2 : Nat) (chroma : Bool) (v : Nat) :
    (lastPrefix g l2 chroma v).map Bin.bit = binTU (groupIdx v) (2 * l2 - 1) := by
  simp [lastPrefix, Function.comp_def]

/-- The group index of a coordinate fits its code (R265). -/
theorem groupIdx_le_cMax {l2 v : Nat} (h2 : 2 ≤ l2) (h5 : l2 ≤ 5) (hv : v < 2 ^ l2) : groupIdx v ≤ 2 * l2 - 1 := by
  have hl : l2 = 2 ∨ l2 = 3 ∨ l2 = 4 ∨ l2 = 5 := by omega
  unfold groupIdx
  rcases hl with rfl | rfl | rfl | rfl <;> split_ifs <;> omega

/-- A coordinate is its group and its distance from the group's start, which fits the suffix (R265). -/
theorem groupIdx_spec : ∀ v < 32, minInGroup (groupIdx v) ≤ v ∧
    v - minInGroup (groupIdx v) < if 3 < groupIdx v then 2 ^ (groupIdx v / 2 - 1) else 1 := by decide

theorem lastPrefix_inj {g : Group} {l2 u v : Nat} {chroma : Bool} {xs ys : List Bool} (hu : groupIdx u ≤ 2 * l2 - 1)
    (hv : groupIdx v ≤ 2 * l2 - 1)
    (h : (lastPrefix g l2 chroma u).map Bin.bit ++ xs = (lastPrefix g l2 chroma v).map Bin.bit ++ ys) :
    groupIdx u = groupIdx v ∧ xs = ys := by
  rw [map_bit_lastPrefix, map_bit_lastPrefix] at h
  exact append_inj_of_read (code := (binTU · (2 * l2 - 1))) (read := (invTU · (2 * l2 - 1)))
    (invTU_binTU_append hu) (invTU_binTU_append hv) h

theorem lastSuffix_inj {u v : Nat} {xs ys : List Bool} (hu : u < 32) (hv : v < 32) (hg : groupIdx u = groupIdx v)
    (h : (lastSuffix u).map Bin.bit ++ xs = (lastSuffix v).map Bin.bit ++ ys) : u = v ∧ xs = ys := by
  obtain ⟨hu1, hu2⟩ := groupIdx_spec u hu
  obtain ⟨hv1, hv2⟩ := groupIdx_spec v hv
  unfold lastSuffix at h
  rw [← hg] at h hv1 hv2
  split at h
  · rename_i h3
    rw [if_pos h3] at hu2 hv2
    rw [map_bit_epBins, map_bit_epBins] at h
    obtain ⟨hd, hrest⟩ := append_inj_of_read (code := (binFL · (groupIdx u / 2 - 1)))
      (read := (msbFirst · (groupIdx u / 2 - 1)))
      (fun rest => by rw [msbFirst_binFL_append, Nat.mod_eq_of_lt hu2])
      (fun rest => by rw [msbFirst_binFL_append, Nat.mod_eq_of_lt hv2]) h
    exact ⟨by omega, hrest⟩
  · rename_i h3
    rw [if_neg h3] at hu2 hv2
    exact ⟨by omega, h⟩

variable {k m : Block}

/-- Two blocks that the decoder knows the same of: all but the buffer. -/
structure Block.Alike (k m : Block) : Prop where
  build : m.build = k.build
  l2 : m.l2 = k.l2
  chroma : m.chroma = k.chroma
  scan : m.scan = k.scan
  hideOk : m.hideOk = k.hideOk

theorem Block.Alike.ok (h : k.Alike m) (hk : k.ok) : m.ok :=
  ⟨h.l2 ▸ hk.two, h.l2 ▸ hk.five, h.scan ▸ hk.scan⟩

theorem Block.Alike.pos (h : k.Alike m) (p : Nat) : m.pos p = k.pos p := by
  rw [Block.pos, Block.pos, h.l2, h.scan]

/-- The bins of two coordinates, in the order of R265. -/
def coordBins (l2 : Nat) (chroma : Bool) (u v : Nat) : List Bin :=
  lastPrefix .lastX l2 chroma u ++ lastPrefix .lastY l2 chroma v ++ lastSuffix u ++ lastSuffix v

theorem Block.lastPosBins_eq_coordBins (k : Block) (x y : Nat) : k.lastPosBins x y =
    if swapsLast k.build k.scan then coordBins k.l2 k.chroma y x else coordBins k.l2 k.chroma x y := by
  unfold Block.lastPosBins coordBins
  cases swapsLast k.build k.scan <;> rfl

theorem coordBins_inj {l2 u v u' v' : Nat} {chroma : Bool} {xs ys : List Bool} (h2 : 2 ≤ l2) (h5 : l2 ≤ 5)
    (hu : u < 2 ^ l2) (hv : v < 2 ^ l2) (hu' : u' < 2 ^ l2) (hv' : v' < 2 ^ l2)
    (he : (coordBins l2 chroma u v).map Bin.bit ++ xs = (coordBins l2 chroma u' v').map Bin.bit ++ ys) :
    (u = u' ∧ v = v') ∧ xs = ys := by
  have hle : 2 ^ l2 ≤ 2 ^ 5 := Nat.pow_le_pow_right (by decide) h5
  have hg := fun {w} => groupIdx_le_cMax (v := w) h2 h5
  simp only [coordBins, List.map_append, List.append_assoc] at he
  obtain ⟨hgu, he⟩ := lastPrefix_inj (hg hu) (hg hu') he
  obtain ⟨hgv, he⟩ := lastPrefix_inj (hg hv) (hg hv') he
  obtain ⟨hux, he⟩ := lastSuffix_inj (by omega) (by omega) hgu he
  obtain ⟨hvy, he⟩ := lastSuffix_inj (by omega) (by omega) hgv he
  exact ⟨⟨hux, hvy⟩, he⟩

/-- The bins of the last position give it back. -/
theorem lastPosBins_inj (hk : k.ok) (h : k.Alike m) {p q : Nat × Nat} {xs ys : List Bool}
    (hp : p.1 < 2 ^ k.l2 ∧ p.2 < 2 ^ k.l2) (hq : q.1 < 2 ^ k.l2 ∧ q.2 < 2 ^ k.l2)
    (he : (k.lastPosBins p.1 p.2).map Bin.bit ++ xs = (m.lastPosBins q.1 q.2).map Bin.bit ++ ys) : p = q ∧ xs = ys := by
  rw [Block.lastPosBins_eq_coordBins, Block.lastPosBins_eq_coordBins, h.build, h.l2, h.chroma, h.scan] at he
  split at he
  · obtain ⟨⟨h2, h1⟩, he⟩ := coordBins_inj hk.two hk.five hp.2 hp.1 hq.2 hq.1 he
    exact ⟨Prod.ext h1 h2, he⟩
  · obtain ⟨⟨h1, h2⟩, he⟩ := coordBins_inj hk.two hk.five hp.1 hp.2 hq.1 hq.2 he
    exact ⟨Prod.ext h1 h2, he⟩

/-! ### Significance (R262, R271) -/

/-- The significance flags give back the positions they show. -/
theorem sigFlags_inj {i prev prev' n : Nat} {infer : Bool} {xs ys : List Bool}
    (he : (k.sigFlags i prev n infer).1.map Bin.bit ++ xs = (m.sigFlags i prev' n infer).1.map Bin.bit ++ ys) :
    (k.sigFlags i prev n infer).2 = (m.sigFlags i prev' n infer).2 ∧ xs = ys := by
  induction n generalizing infer with
  | zero => exact ⟨rfl, he⟩
  | succ n ih =>
    unfold Block.sigFlags at he ⊢
    by_cases h0 : n = 0 ∧ infer = true
    · rw [if_pos h0, if_pos h0] at he ⊢
      exact ⟨rfl, he⟩
    · rw [if_neg h0, if_neg h0] at he ⊢
      obtain ⟨hbit, he⟩ := List.cons.inj he
      rw [Bin.bit_rb, Bin.bit_rb] at hbit
      dsimp only at hbit he ⊢
      rw [hbit] at he ⊢
      obtain ⟨hS, he⟩ := ih he
      exact ⟨by rw [hS], he⟩

/-- The flags of a sub-block give back the positions of its nonzero coefficients. -/
theorem subBlockFlags_inj {last i : Nat} {xs ys : List Bool}
    (he : (k.subBlockFlags last i).1.map Bin.bit ++ xs = (m.subBlockFlags last i).1.map Bin.bit ++ ys) :
    (k.subBlockFlags last i).2 = (m.subBlockFlags last i).2 ∧ xs = ys := by
  unfold Block.subBlockFlags at he ⊢
  dsimp only at he ⊢
  generalize (decide (0 < i) && decide (i < last / 16)) = coded at he ⊢
  cases coded with
  | false =>
    simp only [Bool.false_eq_true, if_false, Bool.not_false, Bool.true_or, if_true, List.nil_append] at he ⊢
    obtain ⟨hS, he⟩ := sigFlags_inj he
    exact ⟨by rw [hS], he⟩
  | true =>
    simp only [if_true, Bool.not_true, Bool.false_or, List.map_cons, List.cons_append, Bin.bit_rb,
      List.cons.injEq] at he ⊢
    obtain ⟨hbit, he⟩ := he
    rw [← hbit] at he ⊢
    by_cases hflag : k.csbf (k.sub i).1 (k.sub i).2 = true
    · simp only [hflag, if_true, List.nil_append] at he ⊢
      obtain ⟨hS, he⟩ := sigFlags_inj he
      exact ⟨by rw [hS], he⟩
    · simp only [if_neg hflag] at he ⊢
      exact ⟨trivial, he⟩

/-! ### Levels (R272 to R278) -/

theorem invGR_grBins_append (sym r : Nat) (rest : List Bool) : invGR (grBins sym r ++ rest) r = sym := by
  have hp := Nat.two_pow_pos r
  unfold grBins
  split
  next hlt =>
    have hq : sym / 2 ^ r < 3 := (Nat.div_lt_iff_lt_mul hp).2 hlt
    rw [List.append_assoc, List.append_assoc, List.singleton_append, invGR_ones, if_pos hq, msbFirst_binFL_append,
      Nat.div_add_mod']
  next hge =>
    obtain ⟨q, c, hloop, hsum, hc⟩ := escapeLoop_eq (fuel := sym + 1) (c := sym - 3 * 2 ^ r) (len := r) (by omega)
    have hones : 3 + (r + q) + 1 - r - 1 = 3 + q := by omega
    have hlen : 3 + q - 3 + r = r + q := by omega
    have hpow := Nat.pow_le_pow_right (n := 2) (by omega) (Nat.le_add_right r q)
    simp only [hloop, hones, List.append_assoc, List.cons_append, List.nil_append]
    rw [invGR_ones, if_neg (by omega), hlen, msbFirst_binFL_append, Nat.mod_eq_of_lt hc]
    omega

theorem binGR_inj {maxBins maxBins' a b r : Nat} {as bs xs ys : List Bool} (ha : binGR maxBins a r = .ok as)
    (hb : binGR maxBins' b r = .ok bs) (he : as ++ xs = bs ++ ys) : a = b ∧ xs = ys := by
  rw [binGR_ok ha, binGR_ok hb, ← grBins_eq_r184Bins, ← grBins_eq_r184Bins] at he
  exact append_inj_of_read (code := (grBins · r)) (read := (invGR · r)) (invGR_grBins_append a r)
    (invGR_grBins_append b r) he

theorem map_bit_gt1Flags (chroma : Bool) (set : Nat) (as : List Nat) (c1 : Nat) :
    (gt1Flags chroma set as c1).1.map Bin.bit = as.map fun a => decide (1 < a) := by
  induction as generalizing c1 with
  | nil => rfl
  | cons a as ih => simp [gt1Flags, ih]

theorem gt2Bins_inj {chroma chroma' : Bool} {set set' : Nat} {first : Option Nat} {A B : List Nat} {xs ys : List Bool}
    (he : (gt2Bins chroma set first A).map Bin.bit ++ xs = (gt2Bins chroma' set' first B).map Bin.bit ++ ys) :
    gt2Flag first A = gt2Flag first B ∧ xs = ys := by
  cases first with
  | none => exact ⟨rfl, he⟩
  | some f => simpa [gt2Bins] using he

/-- The greater-than-1 flags give back the first magnitude above 1. -/
theorem firstAbove1_congr {n : Nat} {A B : List Nat}
    (h : (A.take n).map (fun a => decide (1 < a)) = (B.take n).map fun a => decide (1 < a)) :
    firstAbove1 n A = firstAbove1 n B := by
  have hmap : ∀ C : List Nat, firstAbove1 n C = ((C.take n).map fun a => decide (1 < a)).findIdx? id := fun C => by
    rw [List.findIdx?_map]
    rfl
  rw [hmap, hmap, h]

/-- The greater-than-1 and greater-than-2 flags give back the base levels. -/
theorem baseLevel_congr {n : Nat} {first : Option Nat} {g2 : Bool} {A B : List Nat} (hlen : A.length = B.length)
    (h : (A.take n).map (fun a => decide (1 < a)) = (B.take n).map fun a => decide (1 < a)) :
    (A.zipIdx.map fun p => baseLevel n first g2 p.2 p.1) = B.zipIdx.map fun p => baseLevel n first g2 p.2 p.1 := by
  refine List.ext_getElem (by simp [hlen]) fun j h1 h2 => ?_
  have hA : j < A.length := by simpa using h1
  have hB : j < B.length := hlen ▸ hA
  have hj := congrArg (·[j]?) h
  by_cases hn : j < n
  · have hj : 1 < A[j] ↔ 1 < B[j] := by simpa [hn, hA, hB] using hj
    simp [baseLevel, hn, hj]
  · simp [baseLevel, hn]

/-- The remaining levels of `as`, from index `i` on, make up for what their base levels leave open (R277). -/
def LevelsConvey (n : Nat) (first : Option Nat) (g2 : Bool) (i : Nat) (as : List Nat) : Prop :=
  ∀ p ∈ as.zipIdx i, 1 ≤ p.1 ∧ (baseLevel n first g2 p.2 p.1 = neededLevel n first p.2 ↔ neededLevel n first p.2 ≤ p.1)

theorem levelsConvey_cons {n i a : Nat} {first : Option Nat} {g2 : Bool} {as : List Nat} :
    LevelsConvey n first g2 i (a :: as) ↔
      (1 ≤ a ∧ (baseLevel n first g2 i a = neededLevel n first i ↔ neededLevel n first i ≤ a)) ∧
        LevelsConvey n first g2 (i + 1) as := by
  simp [LevelsConvey]

/-- Where no remaining level is coded, the base level is all there is to know. -/
theorem eq_of_baseLevel_eq {n i a b : Nat} {first : Option Nat} {g2 : Bool} (ha : 1 ≤ a) (hb : 1 ≤ b)
    (h : baseLevel n first g2 i a = baseLevel n first g2 i b) (hna : ¬ neededLevel n first i ≤ a)
    (hnb : ¬ neededLevel n first i ≤ b) : a = b := by
  unfold baseLevel at h
  unfold neededLevel at hna hnb
  split_ifs at h hna hnb <;> omega

/-- The remaining levels and the base levels give back the magnitudes. -/
theorem remLevels_inj {b : Build} {first : Option Nat} {g2 : Bool} {as bs : List Nat} {i c : Nat} {r t : List Bin × Nat}
    {xs ys : List Bool} (has : LevelsConvey b.gt1MaxPerGroup first g2 i as)
    (hbs : LevelsConvey b.gt1MaxPerGroup first g2 i bs)
    (hbase : ((as.zipIdx i).map fun p => baseLevel b.gt1MaxPerGroup first g2 p.2 p.1) =
      (bs.zipIdx i).map fun p => baseLevel b.gt1MaxPerGroup first g2 p.2 p.1)
    (hr : remLevels b first g2 as i c = .ok r) (ht : remLevels b first g2 bs i c = .ok t)
    (he : r.1.map Bin.bit ++ xs = t.1.map Bin.bit ++ ys) : as = bs := by
  induction as generalizing bs i c r t with
  | nil =>
    cases bs with
    | nil => rfl
    | cons b bs => cases hbase
  | cons a as ih =>
    cases bs with
    | nil => cases hbase
    | cons b' bs =>
      obtain ⟨⟨ha, haiff⟩, hrest⟩ := levelsConvey_cons.1 has
      obtain ⟨⟨hb, hbiff⟩, hrest'⟩ := levelsConvey_cons.1 hbs
      obtain ⟨hbase, htail⟩ := List.cons.inj hbase
      dsimp only at hbase
      rw [← hbase] at hbiff
      by_cases hneed : baseLevel b.gt1MaxPerGroup first g2 i a = neededLevel b.gt1MaxPerGroup first i
      · obtain ⟨wa, u, hwa, hu, rfl⟩ := (remLevels_cons_ok hneed).1 hr
        obtain ⟨wb, v, hwb, hv, rfl⟩ := (remLevels_cons_ok (hbase ▸ hneed)).1 ht
        rw [← hbase] at hwb
        simp only [List.map_append, map_bit_epAll, List.append_assoc] at he
        obtain ⟨hsub, he⟩ := binGR_inj hwa hwb he
        have hna := haiff.1 hneed
        have hnb := hbiff.1 hneed
        obtain rfl : a = b' := by omega
        rw [ih hrest hrest' htail hu hv he]
      · rw [remLevels_cons_of_ne hneed] at hr
        rw [remLevels_cons_of_ne (hbase ▸ hneed)] at ht
        rw [eq_of_baseLevel_eq ha hb hbase (mt haiff.2 hneed) (mt hbiff.2 hneed), ih hrest hrest' htail hr ht he]

theorem eq_of_signs_of_natAbs {vs ws : List Int} (hsign : (vs.map fun v => decide (v < 0)) = ws.map fun v => decide (v < 0))
    (habs : vs.map Int.natAbs = ws.map Int.natAbs) : vs = ws := by
  have hback : ∀ us : List Int, us = List.zipWith signed (us.map fun v => decide (v < 0)) (us.map Int.natAbs) := fun us => by
    induction us with
    | nil => rfl
    | cons u us ih => rw [List.map_cons, List.map_cons, List.zipWith_cons_cons, signed_natAbs, ← ih]
  rw [hback vs, hsign, habs, ← hback ws]

/-- The sign that a fitting parity hides (R276). -/
theorem hiddenSign_eq {vs : List Int} (h : parityMismatch vs = false) :
    decide (vs.getLastD 0 < 0) = decide ((vs.map Int.natAbs).sum % 2 = 1) :=
  (bne_eq_false_iff_eq.1 h).symm

/-- The signs, the hidden one included, and the magnitudes give back the coefficients. -/
theorem signBins_inj {hide : Bool} {vs ws : List Int} (hv : (hide && parityMismatch vs) = false)
    (hw : (hide && parityMismatch ws) = false) (habs : vs.map Int.natAbs = ws.map Int.natAbs)
    (he : (signBins hide vs).map Bin.bit = (signBins hide ws).map Bin.bit) : vs = ws := by
  simp only [signBins, List.map_map, Function.comp_def, Bin.bit_ep] at he
  refine eq_of_signs_of_natAbs ?_ habs
  cases hide with
  | false => exact he
  | true =>
    have hlast : decide (vs.getLastD 0 < 0) = decide (ws.getLastD 0 < 0) := by
      rw [hiddenSign_eq hv, hiddenSign_eq hw, habs]
    have hlen : vs.length = ws.length := by simpa using congrArg List.length habs
    rcases List.eq_nil_or_concat vs with rfl | ⟨vs', v, rfl⟩
    · rw [List.eq_nil_of_length_eq_zero hlen.symm]
    · rcases List.eq_nil_or_concat ws with rfl | ⟨ws', w, rfl⟩
      · simp at hlen
      · have hvw : decide (v < 0) = decide (w < 0) := by simpa using hlast
        have hinit : (vs'.map fun v => decide (v < 0)) = ws'.map fun v => decide (v < 0) := by simpa using he
        rw [List.concat_eq_append, List.concat_eq_append, List.map_append, List.map_append, hinit, List.map_singleton,
          List.map_singleton, hvw]

/-! ### Sub-blocks (R262 step 4) -/

theorem Block.Alike.signHidden (h : k.Alike m) (S : List Nat) : m.signHidden S = k.signHidden S := by
  rw [Block.signHidden, Block.signHidden, h.hideOk, h.build]

theorem Block.magnitudesOf_pos {S : List Nat} (hS : ∀ p ∈ S, k.coefAt p ≠ 0) : ∀ a ∈ k.magnitudesOf S, 1 ≤ a := by
  intro a ha
  obtain ⟨p, hp, rfl⟩ := Block.mem_magnitudesOf.1 ha
  exact Int.natAbs_pos.2 (hS p hp)

theorem Block.levelsConvey {S : List Nat} (hS : ∀ p ∈ S, k.coefAt p ≠ 0) (n : Nat) :
    LevelsConvey n (firstAbove1 n (k.magnitudesOf S)) (gt2Flag (firstAbove1 n (k.magnitudesOf S)) (k.magnitudesOf S)) 0
      (k.magnitudesOf S) := fun p hp =>
  ⟨Block.magnitudesOf_pos hS _ (List.fst_mem_of_mem_zipIdx hp),
    baseLevel_iff (Block.magnitudesOf_pos hS) rfl (fun f hf => by rw [firstAbove1, hf]; rfl) p hp⟩

/-- The levels of a sub-block give back its coefficients. -/
theorem codeLevels_inj (h : k.Alike m) {i c1 c : Nat} {S : List Nat} {l t : List Bin × Nat × Nat} {xs ys : List Bool}
    (hk : ∀ p ∈ S, k.coefAt p ≠ 0) (hm : ∀ p ∈ S, m.coefAt p ≠ 0) (hl : k.codeLevels i S c1 c = .ok l)
    (ht : m.codeLevels i S c1 c = .ok t) (he : l.1.map Bin.bit ++ xs = t.1.map Bin.bit ++ ys) :
    S.map k.coefAt = S.map m.coefAt := by
  have hcA := k.levelsConvey hk k.build.gt1MaxPerGroup
  have hcB := m.levelsConvey hm k.build.gt1MaxPerGroup
  have hlen : (k.magnitudesOf S).length = (m.magnitudesOf S).length := by simp [Block.magnitudesOf]
  rw [Block.codeLevels_eq] at hl ht
  obtain ⟨hkfit, hl⟩ := unlessFault_ok.1 hl
  obtain ⟨hmfit, ht⟩ := unlessFault_ok.1 ht
  obtain ⟨r, hr, rfl⟩ := exceptMap_ok.1 hl
  obtain ⟨u, hu, rfl⟩ := exceptMap_ok.1 ht
  rw [h.build] at hu he
  rw [Block.hiddenMismatch, h.signHidden] at hmfit
  simp only [List.map_append, List.append_assoc, map_bit_gt1Flags, h.signHidden] at he
  obtain ⟨hg1, he⟩ := List.append_inj he (by simp [hlen])
  rw [← firstAbove1_congr hg1] at hu he hcB
  obtain ⟨hg2, he⟩ := gt2Bins_inj he
  rw [← hg2] at hu hcB
  obtain ⟨hsigns, he⟩ := List.append_inj he (by simp [signBins]; split <;> simp)
  have habs := remLevels_inj hcA hcB (baseLevel_congr hlen hg1) hr hu he
  exact signBins_inj hkfit hmfit habs hsigns

/-- What the levels of a sub-block read of a block. -/
theorem codeLevels_congr (h : k.Alike m) {S : List Nat} (hS : S.map k.coefAt = S.map m.coefAt) (i c1 c : Nat) :
    k.codeLevels i S c1 c = m.codeLevels i S c1 c := by
  simp only [Block.codeLevels_eq, Block.hiddenMismatch, Block.magnitudesOf, hS, h.signHidden, h.build, h.chroma]

/-- The levels of a sub-block, coded or absent, give back its coefficients and leave both coders in one state. -/
theorem subBlockLevels_inj (h : k.Alike m) {i c1 c : Nat} {S : List Nat} {l t : List Bin × Nat × Nat} {xs ys : List Bool}
    (hk : ∀ p ∈ S, k.coefAt p ≠ 0) (hm : ∀ p ∈ S, m.coefAt p ≠ 0) (hl : k.subBlockLevels i S c1 c = .ok l)
    (ht : m.subBlockLevels i S c1 c = .ok t) (he : l.1.map Bin.bit ++ xs = t.1.map Bin.bit ++ ys) :
    S.map k.coefAt = S.map m.coefAt ∧ l = t ∧ xs = ys := by
  unfold Block.subBlockLevels at hl ht
  by_cases hnil : S = []
  · rw [if_pos hnil] at hl ht
    obtain rfl : l = t := Except.ok.inj (hl.symm.trans ht)
    exact ⟨by simp [hnil], rfl, List.append_cancel_left he⟩
  · rw [if_neg hnil] at hl ht
    have hS := codeLevels_inj h hk hm hl ht he
    rw [codeLevels_congr h hS, ht] at hl
    obtain rfl := Except.ok.inj hl
    exact ⟨hS, rfl, List.append_cancel_left he⟩

/-- The last nonzero position of the block, as the sub-blocks see it (R262). -/
def Block.EndsAt (k : Block) (last : Nat) : Prop :=
  k.residual.nonzero (last / 16) = last % 16 ::
    (List.range (last % 16)).reverse.filter fun n => decide (k.residual.at (last / 16) n ≠ 0)

theorem Block.ok.endsAt (hk : k.ok) {last : Nat} (hl : k.last? = some last) : k.EndsAt last := (hk.last_some hl).2.2

theorem Block.ok.shown_nonzero (hk : k.ok) {last i : Nat} (hl : k.EndsAt last) (hi : i ≤ last / 16) :
    ∀ p ∈ (k.subBlockFlags last i).2, k.coefAt p ≠ 0 := by
  rw [hk.subBlockFlags hi hl]
  intro p hp
  obtain ⟨n, hn, rfl⟩ := List.mem_map.1 hp
  obtain ⟨hn, hne⟩ := Residual.mem_nonzero.1 hn
  rwa [hk.coefAt _ _ hn]

/-- A coefficient whose position the flags of its sub-block do not show is 0. -/
theorem Block.ok.eq_zero_of_not_shown (hk : k.ok) {last i n : Nat} (hl : k.EndsAt last) (hi : i ≤ last / 16) (hn : n < 16)
    (h : 16 * i + n ∉ (k.subBlockFlags last i).2) : k.coefAt (16 * i + n) = 0 := by
  rw [hk.subBlockFlags hi hl] at h
  by_contra hne
  rw [hk.coefAt _ _ hn] at hne
  exact h (List.mem_map.2 ⟨n, Residual.mem_nonzero.2 ⟨hn, hne⟩, rfl⟩)

/-- The sub-blocks give back all their coefficients: the induction over R262 step 4, in one state of c1 and cRice. -/
theorem subBlocks_inj (hk : k.ok) (h : k.Alike m) {last n c1 c : Nat} {bs bs' : List Bin} (hkl : k.EndsAt last)
    (hml : m.EndsAt last) (hn : n ≤ last / 16 + 1) (hb : k.subBlocks last n c1 c = .ok bs)
    (hb' : m.subBlocks last n c1 c = .ok bs') (he : bs.map Bin.bit = bs'.map Bin.bit) :
    ∀ p < 16 * n, k.coefAt p = m.coefAt p := by
  have hm := h.ok hk
  induction n generalizing c1 c bs bs' with
  | zero => intro p hp; omega
  | succ i ih =>
    obtain ⟨l, rest, hl, hrest, rfl⟩ := Block.subBlocks_succ_ok.1 hb
    obtain ⟨t, rest', ht, hrest', rfl⟩ := Block.subBlocks_succ_ok.1 hb'
    rw [h.build] at ht
    simp only [List.map_append, List.append_assoc] at he
    obtain ⟨hS, he⟩ := subBlockFlags_inj he
    have hi : i ≤ last / 16 := by omega
    have hkne := hk.shown_nonzero hkl hi
    have hmne := hm.shown_nonzero hml hi
    rw [← hS] at ht hmne
    obtain ⟨hcoef, rfl, hbits⟩ := subBlockLevels_inj h hkne hmne hl ht he
    intro p hp
    rcases Nat.lt_or_ge p (16 * i) with hlt | hge
    · exact ih (by omega) hrest hrest' hbits p hlt
    · obtain ⟨n, rfl⟩ := Nat.exists_eq_add_of_le hge
      by_cases hmem : 16 * i + n ∈ (k.subBlockFlags last i).2
      · exact List.map_inj_left.1 hcoef _ hmem
      · rw [hk.eq_zero_of_not_shown hkl hi (by omega) hmem, hm.eq_zero_of_not_shown hml hi (by omega) (hS ▸ hmem)]

/-! ### The block -/

theorem binTU_ne_nil (s : Nat) {cMax : Nat} (h : 0 < cMax) : binTU s cMax ≠ [] := by
  cases s <;> simp [binTU, h, List.replicate_succ]

theorem coordBins_ne_nil {l2 : Nat} (h : 2 ≤ l2) (chroma : Bool) (u v : Nat) : coordBins l2 chroma u v ≠ [] := by
  intro hnil
  have hbits := congrArg (List.map Bin.bit) hnil
  simp only [coordBins, List.map_append, map_bit_lastPrefix, List.append_assoc, List.map_nil, List.append_eq_nil_iff] at hbits
  exact binTU_ne_nil _ (by omega) hbits.1

theorem lastPosBins_ne_nil (hk : k.ok) (x y : Nat) : k.lastPosBins x y ≠ [] := by
  rw [Block.lastPosBins_eq_coordBins]
  split <;> exact coordBins_ne_nil hk.two _ _ _

/-- Two blocks with the same bins end at the same position, and hold the same coefficients up to it. -/
theorem coefAt_eq_of_bins_eq (hk : k.ok) (h : k.Alike m) {bins : List Bin} (hkb : k.bins = .ok bins)
    (hmb : m.bins = .ok bins) : ∀ p < 4 ^ k.l2, k.coefAt p = m.coefAt p := by
  have hm := h.ok hk
  cases hkl : k.last? with
  | none =>
    cases hml : m.last? with
    | none => exact fun p hp => (Block.last?_none hkl p hp).trans (Block.last?_none hml p (h.l2 ▸ hp)).symm
    | some q =>
      rw [Block.bins_of_no_last hkl] at hkb
      rw [Block.bins_of_last hml] at hmb
      obtain ⟨rest, -, hbins⟩ := exceptMap_ok.1 hmb
      rw [← Except.ok.inj hkb] at hbins
      exact absurd (List.append_eq_nil_iff.1 hbins.symm).1 (lastPosBins_ne_nil hm _ _)
  | some p =>
    rw [Block.bins_of_last hkl] at hkb
    obtain ⟨rest, hrest, rfl⟩ := exceptMap_ok.1 hkb
    cases hml : m.last? with
    | none =>
      rw [Block.bins_of_no_last hml] at hmb
      exact absurd (List.append_eq_nil_iff.1 (Except.ok.inj hmb).symm).1 (lastPosBins_ne_nil hk _ _)
    | some q =>
      rw [Block.bins_of_last hml] at hmb
      obtain ⟨rest', hrest', hbins⟩ := exceptMap_ok.1 hmb
      obtain ⟨hp, -, hkz⟩ := Block.last?_some hkl
      obtain ⟨hq, -, hmz⟩ := Block.last?_some hml
      rw [h.l2] at hq hmz
      have he := congrArg (List.map Bin.bit) hbins
      rw [List.map_append, List.map_append] at he
      obtain ⟨hpos, hbits⟩ := lastPosBins_inj hk h (hk.pos_lt_side p) (h.pos q ▸ hk.pos_lt_side q) he
      obtain rfl : p = q := hk.pos_injective hp hq (hpos.trans (h.pos q))
      intro j hj
      rcases Nat.lt_or_ge j (16 * (p / 16 + 1)) with hlt | hge
      · exact subBlocks_inj hk h (hk.endsAt hkl) (hm.endsAt hml) (le_refl _) hrest hrest' hbits j hlt
      · rw [hkz j (by omega) hj, hmz j (by omega) hj]

/-- Settles O51: the bits of the two blocks are read side by side, sub-block by sub-block, and every position of the block
has a scan index. -/
theorem blockIsRecoverable : Obligations.BlockIsRecoverable := by
  intro k m bins h2 h5 hscan hb hl2 hch hsc hh hkb hmb x hx y hy
  have hk : k.ok := ⟨h2, h5, hscan⟩
  have h : k.Alike m := ⟨hb, hl2, hch, hsc, hh⟩
  obtain ⟨p, hp, hpos⟩ := hk.pos_surjective hx hy
  have hcoef := coefAt_eq_of_bins_eq hk h hkb hmb p hp
  rwa [Block.coefAt, Block.coefAt, h.pos, hpos] at hcoef

end Sys2Proof.Machine
end

section
/-! PROOFS. What COEF_WRITE and CODE_COEFF answer (43_residual.md R260, R261, R276, R280): the geometry and the hidden signs
that fault, and that nothing else does. -/

namespace Sys2Proof.Machine

open Sys2Proof

/-! ### The buffer and the geometry (R260, R261) -/

/-- Settles O46: the write commits in every state that takes it, and the rules of the buffer say what is read afterwards. -/
theorem coefWriteEffect : Obligations.CoefWriteEffect := by
  intro idx val s hs hwf hidx hlo hhi
  have hmod : idx % 1024 = idx := Nat.mod_eq_of_lt hidx
  refine ⟨s.coef.write (idx % 1024) (BitVec.ofInt 16 val), exec_of_commits hs .coefWrite, ?_, ?_, fun a ha => ?_⟩
  · exact Memory.wf_write _ hwf (by omega)
  · rw [hmod, Memory.read_write_same _ _ hwf, BitVec.toInt_ofInt_eq_self (by decide) (by omega) (by omega)]
  · exact Memory.read_write_other _ _ (hmod.symm ▸ ha)

theorem badBlockSize_iff {l2 : Nat} {pl : Bool} : badBlockSize l2 pl = true ↔ l2 < 2 ∨ 5 < l2 ∨ (pl = true ∧ 4 < l2) := by
  simp [badBlockSize, or_assoc]

theorem badGeometry_iff {c : ConfigReg} {l2 scan : Nat} {pl : Bool} : badGeometry c l2 pl scan = true ↔
    (l2 < 2 ∨ 5 < l2 ∨ (pl = true ∧ 4 < l2)) ∨ c.maxLog2Tb.toNat < l2 ∨ 3 ≤ scan := by
  simp [badGeometry, badBlockSize_iff, or_assoc]

theorem badGeometry_eq_false {c : ConfigReg} {l2 scan : Nat} {pl : Bool} : badGeometry c l2 pl scan = false ↔
    2 ≤ l2 ∧ l2 ≤ c.maxLog2Tb.toNat ∧ l2 ≤ 5 ∧ (pl = true → l2 ≤ 4) ∧ scan ≤ 2 := by
  rw [← Bool.not_eq_true, badGeometry_iff]
  cases pl <;> simp <;> omega

theorem binsOf_codeCoeff_of_badGeometry {s : State} {l2 scan : Nat} {pl : Bool} (ll : Bool)
    (h : badGeometry s.config l2 pl scan = true) : binsOf (.codeCoeff l2 pl scan ll) s = .error .badGeometry :=
  unlessFault_error.2 (.inl ⟨h, rfl⟩)

/-- On a geometry it accepts, CODE_COEFF codes the bins of the block or faults with it. -/
theorem binsOf_codeCoeff {s : State} {l2 scan : Nat} {pl : Bool} (ll : Bool)
    (h : badGeometry s.config l2 pl scan = false) :
    binsOf (.codeCoeff l2 pl scan ll) s = (s.block l2 pl scan ll).bins := by
  rw [binsOf, h, unlessFault_false]

/-- Settles O47: both commands check the block size after the bank, CODE_COEFF with CONFIG and the scan. -/
theorem badGeometryFaults : Obligations.BadGeometryFaults := by
  intro l2 scan pl ll s hs
  refine ⟨fun h => ?_, fun h => ?_⟩
  · have hbad : badGeometry s.config l2 pl scan = true := badGeometry_iff.2 (by tauto)
    exact exec_of_bins_error rfl hs (binsOf_codeCoeff_of_badGeometry ll hbad)
  · have hbad : effectOf (.estRates l2 pl) s = .error .badGeometry := by
      simp only [effectOf, effectEstRates]
      exact needBank_error.2 (.inr ⟨hs.2, unlessFault_error.2 (.inl ⟨badBlockSize_iff.2 h, rfl⟩)⟩)
    exact exec_of_error hs.1 hbad

/-! ### Hidden signs (R275, R276, R281) -/

variable {k : Block}

/-- A sub-block of the block whose hidden sign does not fit. -/
def Block.Misfit (k : Block) : Prop :=
  ∃ i < k.ns * k.ns, k.nonzeros i ≠ [] ∧ k.hiddenMismatch (k.nonzeros i) = true

theorem getLastD_map_of_ne_nil {α β : Type} {f : α → β} {xs : List α} (h : xs ≠ []) (a : α) (b : β) :
    (xs.map f).getLastD b = f (xs.getLastD a) := by
  rw [List.getLastD_eq_getLast?, List.getLastD_eq_getLast?, List.getLast?_map, List.getLast?_eq_some_getLast h]
  rfl

/-- A misfit needs hiding to be permitted, a span of SBH_THRESHOLD, and a sign against the parity (R275, R276). -/
theorem Block.hiddenMismatch_iff {S : List Nat} (hS : S ≠ []) : k.hiddenMismatch S = true ↔
    k.hideOk = true ∧ k.build.sbhThreshold ≤ S.headD 0 - S.getLastD 0 ∧
      ¬ ((S.map fun p => (k.coefAt p).natAbs).sum % 2 = 1 ↔ k.coefAt (S.getLastD 0) < 0) := by
  simp only [Block.hiddenMismatch, Block.signHidden, parityMismatch, getLastD_map_of_ne_nil hS 0 (0 : Int), List.map_map,
    Function.comp_def, Bool.and_eq_true, decide_eq_true_eq, bne_iff_ne, ne_eq, decide_eq_decide, and_assoc]

theorem Block.hiddenSignsFit_iff (h : k.hideOk = true) : k.hiddenSignsFit ↔ ¬ k.Misfit := by
  unfold Block.hiddenSignsFit Block.Misfit
  constructor
  · rintro hfit ⟨i, hi, hne, hbad⟩
    obtain ⟨-, hfar, hpar⟩ := (Block.hiddenMismatch_iff hne).1 hbad
    exact hpar (hfit i hi hne hfar)
  · intro hfit i hi hne hfar
    by_contra hpar
    exact hfit ⟨i, hi, hne, (Block.hiddenMismatch_iff hne).2 ⟨h, hfar, hpar⟩⟩

theorem Block.Misfit.hideOk (h : k.Misfit) : k.hideOk = true := by
  obtain ⟨i, -, hne, hbad⟩ := h
  exact ((Block.hiddenMismatch_iff hne).1 hbad).1

theorem Block.ok.nonzeros (h : k.ok) (i : Nat) : k.nonzeros i = (k.residual.nonzero i).map (16 * i + ·) := by
  rw [Block.nonzeros, List.filter_map, Residual.nonzero]
  congr 1
  refine List.filter_congr fun n hn => ?_
  rw [Function.comp_apply, h.coefAt i n (by simpa using hn)]

/-- The flags of a sub-block show its nonzero coefficients. -/
theorem Block.ok.shown_eq_nonzeros (h : k.ok) {last i : Nat} (hl : k.EndsAt last) (hi : i ≤ last / 16) :
    (k.subBlockFlags last i).2 = k.nonzeros i := by
  rw [h.subBlockFlags hi hl, h.nonzeros]

theorem Block.nonzeros_eq_nil {i : Nat} (hz : ∀ n < 16, k.coefAt (16 * i + n) = 0) : k.nonzeros i = [] := by
  refine List.filter_eq_nil_iff.2 fun p hp => ?_
  obtain ⟨n, hn, rfl⟩ := List.mem_map.1 hp
  simp [hz n (by simpa using hn)]

theorem Block.ok.lt_of_sub_lt (h : k.ok) {i n : Nat} (hi : i < k.ns * k.ns) (hn : n < 16) : 16 * i + n < 4 ^ k.l2 := by
  rw [Block.ns_eq h.two, ← h.side.2] at hi
  rw [h.pow]
  omega

/-- Behind the last nonzero coefficient there is none. -/
theorem Block.ok.le_last_of_nonzeros (h : k.ok) {last i : Nat} (hl : k.last? = some last) (hi : i < k.ns * k.ns)
    (hne : k.nonzeros i ≠ []) : i ≤ last / 16 := by
  obtain ⟨-, -, hz⟩ := Block.last?_some hl
  by_contra hlt
  exact hne (Block.nonzeros_eq_nil fun n hn => hz _ (by omega) (h.lt_of_sub_lt hi hn))

theorem Block.ok.no_misfit_of_no_last (h : k.ok) (hl : k.last? = none) : ¬ k.Misfit := by
  rintro ⟨i, hi, hne, -⟩
  exact hne (Block.nonzeros_eq_nil fun n hn => Block.last?_none hl _ (h.lt_of_sub_lt hi hn))

/-! ### What a block answers (R276, R280) -/

/-- Sub-blocks that are coded had hidden signs that fit. -/
theorem subBlocks_fit {last n c1 c : Nat} {bins : List Bin} (hb : k.subBlocks last n c1 c = .ok bins) :
    ∀ i < n, (k.subBlockFlags last i).2 ≠ [] → k.hiddenMismatch (k.subBlockFlags last i).2 = false := by
  induction n generalizing c1 c bins with
  | zero => intro i hi; omega
  | succ n ih =>
    obtain ⟨l, rest, hl, hrest, -⟩ := Block.subBlocks_succ_ok.1 hb
    intro i hi hne
    rcases Nat.lt_succ_iff_lt_or_eq.1 hi with hlt | rfl
    · exact ih hrest i hlt hne
    · rw [Block.subBlockLevels, if_neg hne, Block.codeLevels_eq] at hl
      exact (unlessFault_ok.1 hl).1

/-- Every hidden sign of a block that is coded fits, in every build. -/
theorem Block.ok.no_misfit_of_bins (h : k.ok) {bins : List Bin} (hb : k.bins = .ok bins) : ¬ k.Misfit := by
  cases hl : k.last? with
  | none => exact h.no_misfit_of_no_last hl
  | some last =>
    rw [Block.bins_of_last hl] at hb
    obtain ⟨rest, hrest, -⟩ := exceptMap_ok.1 hb
    rintro ⟨i, hi, hne, hbad⟩
    have hle := h.le_last_of_nonzeros hl hi hne
    rw [← h.shown_eq_nonzeros (h.endsAt hl) hle] at hne hbad
    exact absurd hbad (by simp [subBlocks_fit hrest i (by omega) hne])

/-- A Golomb-Rice string of a level a coefficient can have fits in 32 bins (R280). -/
theorem binGR_of_level {maxBins sym r : Nat} (hmax : 32 ≤ maxBins) (hsym : sym ≤ 32767) (hr : r ≤ 4) :
    binGR maxBins sym r = .ok (grBins sym r) := by
  obtain ⟨hlevel, -, hshort, -⟩ := golombRiceBound sym r hr
  exact binGR_eq_ok ((hshort (hsym.trans_lt hlevel)).1.trans hmax)

theorem Block.natAbs_coefAt_le (k : Block) (p : Nat) : (k.coefAt p).natAbs ≤ 32768 := by
  unfold Block.coefAt Block.at
  have hlo := BitVec.le_toInt (k.coef.read ((k.pos p).2 * 2 ^ k.l2 + (k.pos p).1))
  have hhi := BitVec.toInt_lt (x := k.coef.read ((k.pos p).2 * 2 ^ k.l2 + (k.pos p).1))
  simp only [Nat.add_one_sub_one, Int.reducePow] at hlo hhi
  omega

theorem nextRice_le {riceMax a c n : Nat} (hmax : riceMax ≤ n) (hc : c ≤ n) : nextRice riceMax a c ≤ n := by
  unfold nextRice
  split <;> omega

/-- In a build with room for 32 bins, remaining levels never fault, and the parameter stays within RICE_MAX. -/
theorem remLevels_total {b : Build} (hmax : 32 ≤ b.grMaxBins) (hrice : b.riceMax ≤ 4) (first : Option Nat) (g2 : Bool)
    {as : List Nat} (has : ∀ a ∈ as, a ≤ 32768) (i : Nat) {c : Nat} (hc : c ≤ 4) :
    ∃ r, remLevels b first g2 as i c = .ok r ∧ r.2 ≤ 4 := by
  induction as generalizing i c with
  | nil => exact ⟨_, remLevels_nil_ok.2 rfl, hc⟩
  | cons a as ih =>
    obtain ⟨ha, has⟩ := List.forall_mem_cons.1 has
    by_cases hneed : baseLevel b.gt1MaxPerGroup first g2 i a = neededLevel b.gt1MaxPerGroup first i
    · obtain ⟨t, ht, ht4⟩ := ih has (i + 1) (nextRice_le hrice hc (a := a))
      have hsym : a - baseLevel b.gt1MaxPerGroup first g2 i a ≤ 32767 := by unfold baseLevel; omega
      exact ⟨_, (remLevels_cons_ok hneed).2 ⟨_, t, binGR_of_level hmax hsym hc, ht, rfl⟩, ht4⟩
    · rw [remLevels_cons_of_ne hneed]
      exact ih has (i + 1) hc

/-- A sub-block is coded or its hidden sign does not fit. -/
theorem subBlockLevels_cases (hmax : 32 ≤ k.build.grMaxBins) (hrice : k.build.riceMax ≤ 4) (i c1 : Nat) (S : List Nat)
    {c : Nat} (hc : c ≤ 4) : (∃ l, k.subBlockLevels i S c1 c = .ok l ∧ l.2.2 ≤ 4) ∨
      (S ≠ [] ∧ k.hiddenMismatch S = true ∧ k.subBlockLevels i S c1 c = .error .sbhParity) := by
  unfold Block.subBlockLevels
  by_cases hS : S = []
  · rw [if_pos hS]
    exact .inl ⟨_, rfl, hc⟩
  · rw [if_neg hS, Block.codeLevels_eq]
    have hmag : ∀ a ∈ k.magnitudesOf S, a ≤ 32768 := by
      intro a ha
      obtain ⟨p, -, rfl⟩ := Block.mem_magnitudesOf.1 ha
      exact k.natAbs_coefAt_le p
    cases hbad : k.hiddenMismatch S with
    | true => exact .inr ⟨hS, rfl, rfl⟩
    | false =>
      obtain ⟨r, hr, hr4⟩ := remLevels_total hmax hrice (firstAbove1 k.build.gt1MaxPerGroup (k.magnitudesOf S))
        (gt2Flag (firstAbove1 k.build.gt1MaxPerGroup (k.magnitudesOf S)) (k.magnitudesOf S)) hmag 0 hc
      exact .inl ⟨_, unlessFault_ok.2 ⟨rfl, exceptMap_ok.2 ⟨r, hr, rfl⟩⟩, hr4⟩

theorem riceAtSubBlock_le (b : Build) (c : Nat) : riceAtSubBlock b c ≤ c := by
  unfold riceAtSubBlock
  split <;> omega

/-- The sub-blocks are coded, or one of them has a hidden sign that does not fit. -/
theorem subBlocks_cases (hmax : 32 ≤ k.build.grMaxBins) (hrice : k.build.riceMax ≤ 4) (last n c1 : Nat) {c : Nat}
    (hc : c ≤ 4) : (∃ bins, k.subBlocks last n c1 c = .ok bins) ∨
      (k.subBlocks last n c1 c = .error .sbhParity ∧ ∃ i < n, (k.subBlockFlags last i).2 ≠ [] ∧
        k.hiddenMismatch (k.subBlockFlags last i).2 = true) := by
  induction n generalizing c1 c with
  | zero => exact .inl ⟨[], rfl⟩
  | succ i ih =>
    rw [Block.subBlocks_succ]
    have hc' := (riceAtSubBlock_le k.build c).trans hc
    rcases subBlockLevels_cases hmax hrice i c1 (k.subBlockFlags last i).2 hc' with ⟨l, hl, hl4⟩ | ⟨hne, hbad, hl⟩
    · rcases ih l.2.1 hl4 with ⟨rest, hrest⟩ | ⟨hrest, j, hj, hbad⟩
      · exact .inl ⟨_, exceptBind_ok.2 ⟨l, hl, exceptMap_ok.2 ⟨rest, hrest, rfl⟩⟩⟩
      · exact .inr ⟨exceptBind_error.2 (.inr ⟨l, hl, exceptMap_error.2 hrest⟩), j, by omega, hbad⟩
    · exact .inr ⟨exceptBind_error.2 (.inl hl), i, by omega, hne, hbad⟩

/-- A block of an accepted geometry is coded, or a hidden sign of it does not fit: no coefficient raises BIN_COUNT (R280). -/
theorem Block.ok.bins_cases (h : k.ok) (hmax : 32 ≤ k.build.grMaxBins) (hrice : k.build.riceMax ≤ 4) :
    (∃ bins, k.bins = .ok bins) ∨ (k.bins = .error .sbhParity ∧ k.Misfit) := by
  cases hl : k.last? with
  | none => exact .inl ⟨[], Block.bins_of_no_last hl⟩
  | some last =>
    obtain ⟨-, hlast, -⟩ := h.last_some hl
    rw [Block.bins_of_last hl]
    rcases subBlocks_cases hmax hrice last (last / 16 + 1) 1 (Nat.zero_le 4) with ⟨rest, hrest⟩ | ⟨herr, i, hi, hbad⟩
    · exact .inl ⟨_, exceptMap_ok.2 ⟨rest, hrest, rfl⟩⟩
    · rw [h.shown_eq_nonzeros (h.endsAt hl) (by omega)] at hbad
      refine .inr ⟨exceptMap_error.2 herr, i, ?_, hbad⟩
      rw [Block.ns_eq h.two, ← h.side.2]
      omega

theorem State.block_ok {s : State} {l2 scan : Nat} {pl : Bool} (ll : Bool)
    (h : badGeometry s.config l2 pl scan = false) : (s.block l2 pl scan ll).ok := by
  obtain ⟨h2, -, h5, -, hscan⟩ := badGeometry_eq_false.1 h
  exact ⟨h2, h5, hscan⟩

/-- A coefficient of the block the command codes, by its entry in the buffer (R261). -/
theorem State.block_coefAt (s : State) (l2 : Nat) (pl : Bool) (scan : Nat) (ll : Bool) (p : Nat) :
    (s.block l2 pl scan ll).coefAt p =
      (s.coef.read (((s.block l2 pl scan ll).pos p).2 * 2 ^ l2 + ((s.block l2 pl scan ll).pos p).1)).toInt := rfl

theorem State.block_coefAt_eq_zero {s : State} {l2 scan p : Nat} {pl ll : Bool}
    (h : s.coef.read (((s.block l2 pl scan ll).pos p).2 * 2 ^ l2 + ((s.block l2 pl scan ll).pos p).1) = 0) :
    (s.block l2 pl scan ll).coefAt p = 0 := by
  rw [State.block_coefAt, h]
  rfl

theorem Block.last?_eq_none (h : ∀ p < 4 ^ k.l2, k.coefAt p = 0) : k.last? = none := by
  simpa [Block.last?] using h

/-- Settles O48: a block that faults has a hidden sign that does not fit, where hiding is permitted. -/
theorem codeCoeffCompletes : Obligations.CodeCoeffCompletes := by
  intro l2 scan pl ll s hs hmax hrice h2 hcfg h5 hpl hscan hfit
  have hgeo := badGeometry_eq_false.2 ⟨h2, hcfg, h5, hpl, hscan⟩
  have hok := s.block_ok ll hgeo
  have hno : ¬ (s.block l2 pl scan ll).Misfit := fun hbad => by
    have hhide := hbad.hideOk
    exact (Block.hiddenSignsFit_iff hhide).1 (hfit (by simpa [State.block] using hhide)) hbad
  rcases hok.bins_cases hmax hrice with ⟨bins, hbins⟩ | ⟨-, hbad⟩
  · refine ⟨bins, hbins, exec_of_bins rfl hs (by rw [binsOf_codeCoeff ll hgeo, hbins]), fun hz => ?_⟩
    have hlast : (s.block l2 pl scan ll).last? = none := Block.last?_eq_none fun p _ => by
      obtain ⟨hx, hy⟩ := hok.pos_lt_side p
      exact State.block_coefAt_eq_zero (hz _ hx _ hy)
    rw [Block.bins_of_no_last hlast] at hbins
    exact (Except.ok.inj hbins).symm
  · exact absurd hbad hno

/-- Settles O49: such a block is not coded, and not being coded is that fault; a block that is coded fits. -/
theorem hiddenSignMismatchFaults : Obligations.HiddenSignMismatchFaults := by
  intro l2 scan pl s hs hsbh
  have hhide : (s.block l2 pl scan false).hideOk = true := by simp [State.block, hsbh]
  refine ⟨fun hmax hrice h2 hcfg h5 hpl hscan hnofit => ?_, fun t ht hfault => ?_⟩
  · have hgeo := badGeometry_eq_false.2 ⟨h2, hcfg, h5, hpl, hscan⟩
    have hok := s.block_ok false hgeo
    rcases hok.bins_cases hmax hrice with ⟨bins, hbins⟩ | ⟨herr, -⟩
    · exact absurd ((Block.hiddenSignsFit_iff hhide).2 (hok.no_misfit_of_bins hbins)) hnofit
    · exact exec_of_bins_error rfl hs (by rw [binsOf_codeCoeff false hgeo, herr])
  · obtain ⟨bins, hbins, -⟩ := exec_bins_of_not_faulted rfl hs ht hfault
    obtain ⟨hgeo, hbins⟩ := unlessFault_ok.1 hbins
    exact (Block.hiddenSignsFit_iff hhide).2 ((s.block_ok false hgeo).no_misfit_of_bins hbins)

end Sys2Proof.Machine
end

section
/-! PROOFS. The bins of a block in the form of its rules (43_residual.md R262 to R279): the block with a DC coefficient only,
and the closed form of every block with the contexts of its plane. -/

namespace Sys2Proof.Machine

open Sys2Proof

variable {k : Block}

/-! ### A block with a DC coefficient only (R267) -/

/-- Scan index 0 is the DC position. -/
theorem Block.ok.pos_zero (h : k.ok) : k.pos 0 = (0, 0) := by
  have hsub : k.residual.sub 0 = (0, 0) := r263Scan_zero h.side_cases h.scan
  have hin : (r263Scan 4 k.residual.scan).getD (0 % 16) (0, 0) = (0, 0) := r263Scan_zero (by simp) h.scan
  rw [h.pos_eq, Residual.pos, hin, hsub]
  rfl

theorem Block.last?_eq_zero (h0 : k.coefAt 0 ≠ 0) (hz : ∀ p < 4 ^ k.l2, p ≠ 0 → k.coefAt p = 0) : k.last? = some 0 := by
  cases hl : k.last? with
  | none => exact absurd (Block.last?_none hl 0 (Nat.pow_pos (by decide))) h0
  | some p =>
    obtain ⟨hp, hne, -⟩ := Block.last?_some hl
    by_cases hp0 : p = 0
    · rw [hp0]
    · exact absurd (hz p hp hp0) hne

theorem lastPrefix_zero {g : Group} {l2 : Nat} (h : 2 ≤ l2) (chroma : Bool) :
    lastPrefix g l2 chroma 0 = [rb g (lastCtx l2 chroma 0) false] := by
  have hg : binTU (groupIdx 0) (2 * l2 - 1) = [false] := if_pos (by show 0 < 2 * l2 - 1; omega)
  rw [lastPrefix, hg]
  rfl

theorem Block.ok.lastPosBins_zero (h : k.ok) : k.lastPosBins 0 0 =
    [rb .lastX (lastCtx k.l2 k.chroma 0) false, rb .lastY (lastCtx k.l2 k.chroma 0) false] := by
  simp [Block.lastPosBins, lastPrefix_zero h.two, lastSuffix, groupIdx]

/-- A last position of 0 leaves nothing to flag. -/
theorem Block.subBlockFlags_zero (k : Block) : k.subBlockFlags 0 0 = ([], [0]) := by
  simp [Block.subBlockFlags, Block.sigFlags]

/-- A single magnitude is flagged where any is. -/
theorem firstAbove1_single {n : Nat} (hn : 0 < n) (a : Nat) : firstAbove1 n [a] = if 1 < a then some 0 else none := by
  rw [firstAbove1, List.take_of_length_le hn, List.findIdx?_cons]
  simp

theorem gt2Flag_single (a : Nat) : gt2Flag (if 1 < a then some 0 else none) [a] = decide (2 < a) := by
  by_cases h1 : 1 < a
  · simp [gt2Flag, h1]
  · simp [gt2Flag, h1, show ¬ 2 < a by omega]

/-- The remaining level of a single magnitude: that of one above 2 (R277). -/
theorem remLevels_single {b : Build} (hmax : 32 ≤ b.grMaxBins) (hgt1 : 0 < b.gt1MaxPerGroup) {a : Nat} (ha : 1 ≤ a)
    (hle : a ≤ 32768) :
    ∃ c, remLevels b (if 1 < a then some 0 else none) (decide (2 < a)) [a] 0 0 =
      .ok (if 2 < a then (r184Bins (a - 3) 0).map .ep else [], c) := by
  by_cases h2 : 2 < a
  · have h1 : 1 < a := by omega
    have hbase : baseLevel b.gt1MaxPerGroup (some 0) true 0 a = 3 := by simp [baseLevel, hgt1, h1]
    have hneed : neededLevel b.gt1MaxPerGroup (some 0) 0 = 3 := by simp [neededLevel, hgt1]
    have hcode : binGR b.grMaxBins (a - baseLevel b.gt1MaxPerGroup (some 0) true 0 a) 0 = .ok (r184Bins (a - 3) 0) := by
      rw [hbase, binGR_of_level hmax (by omega) (by decide), grBins_eq_r184Bins]
    rw [if_pos h1, if_pos h2, decide_eq_true h2]
    exact ⟨nextRice b.riceMax a 0, (remLevels_cons_ok (hbase.trans hneed.symm)).2
      ⟨_, _, hcode, remLevels_nil_ok.2 rfl, Prod.ext (List.append_nil _).symm rfl⟩⟩
  · have hne : baseLevel b.gt1MaxPerGroup (if 1 < a then some 0 else none) (decide (2 < a)) 0 a ≠
        neededLevel b.gt1MaxPerGroup (if 1 < a then some 0 else none) 0 := by
      by_cases h1 : 1 < a <;> simp [baseLevel, neededLevel, hgt1, h1, h2]
    rw [remLevels_cons_of_ne hne, if_neg h2]
    exact ⟨_, remLevels_nil_ok.2 rfl⟩

/-- The levels of a sub-block with its first position only (R272). -/
theorem subBlockLevels_single {c : Nat} (hmax : 32 ≤ k.build.grMaxBins) (hgt1 : 0 < k.build.gt1MaxPerGroup)
    (hsbh : 1 ≤ k.build.sbhThreshold) (h0 : k.coefAt 0 ≠ 0) (hc : c = 0) :
    ∃ l, k.subBlockLevels 0 [0] 1 c = .ok l ∧ l.1 =
      [rb .gt1 (if k.chroma then 17 else 1) (decide (1 < (k.coefAt 0).natAbs))] ++
      (if 1 < (k.coefAt 0).natAbs then [rb .gt2 (if k.chroma then 4 else 0) (decide (2 < (k.coefAt 0).natAbs))] else []) ++
      [.ep (decide (k.coefAt 0 < 0))] ++
      (if 2 < (k.coefAt 0).natAbs then (r184Bins ((k.coefAt 0).natAbs - 3) 0).map .ep else []) := by
  obtain ⟨c', hrem⟩ := remLevels_single hmax hgt1 (Int.natAbs_pos.2 h0) (k.natAbs_coefAt_le 0)
  have hA : k.magnitudesOf [0] = [(k.coefAt 0).natAbs] := rfl
  have hhide : k.signHidden [0] = false := by simp [Block.signHidden]; omega
  have hset : ctxSetOf k.chroma 0 1 = 0 := by simp [ctxSetOf]
  rw [Block.subBlockLevels, if_neg (by simp), Block.codeLevels_eq, hc, hA]
  dsimp only
  rw [firstAbove1_single hgt1, gt2Flag_single, hrem, List.take_of_length_le hgt1, hset,
    Block.hiddenMismatch, hhide]
  refine ⟨_, rfl, ?_⟩
  have hg1 : (gt1Flags k.chroma 0 [(k.coefAt 0).natAbs] 1).1 =
      [rb .gt1 (if k.chroma then 17 else 1) (decide (1 < (k.coefAt 0).natAbs))] := by
    cases k.chroma <;> rfl
  have hg2 : gt2Bins k.chroma 0 (if 1 < (k.coefAt 0).natAbs then some 0 else none) [(k.coefAt 0).natAbs] =
      if 1 < (k.coefAt 0).natAbs then [rb .gt2 (if k.chroma then 4 else 0) (decide (2 < (k.coefAt 0).natAbs))] else [] := by
    rw [gt2Bins, gt2Flag_single, Nat.zero_add]
    split <;> rfl
  rw [hg1, hg2]
  rfl

theorem riceAtSubBlock_zero (b : Build) : riceAtSubBlock b 0 = 0 := Nat.le_zero.1 (riceAtSubBlock_le b 0)

/-- The entries a block reads: those of the buffer below W * W, entry 0 for the DC position only (R261). -/
theorem Block.ok.entry_lt (h : k.ok) (p : Nat) : (k.pos p).2 * 2 ^ k.l2 + (k.pos p).1 < 4 ^ k.l2 := by
  obtain ⟨hx, hy⟩ := h.pos_lt_side p
  calc (k.pos p).2 * 2 ^ k.l2 + (k.pos p).1
      < (k.pos p).2 * 2 ^ k.l2 + 2 ^ k.l2 := Nat.add_lt_add_left hx _
    _ = ((k.pos p).2 + 1) * 2 ^ k.l2 := (Nat.succ_mul _ _).symm
    _ ≤ 2 ^ k.l2 * 2 ^ k.l2 := Nat.mul_le_mul_right _ hy
    _ = 4 ^ k.l2 := (Nat.mul_pow 2 2 k.l2).symm

theorem Block.ok.entry_ne_zero (h : k.ok) {p : Nat} (hp : p < 4 ^ k.l2) (hp0 : p ≠ 0) :
    (k.pos p).2 * 2 ^ k.l2 + (k.pos p).1 ≠ 0 := by
  intro he
  obtain ⟨hy, hx⟩ := Nat.add_eq_zero_iff.1 he
  have hy : (k.pos p).2 = 0 := (Nat.mul_eq_zero.1 hy).resolve_right (Nat.two_pow_pos _).ne'
  exact hp0 (h.pos_injective hp (Nat.pow_pos (by decide)) ((Prod.ext hx hy).trans h.pos_zero.symm))

/-- Settles O50: the last position is 0, and sub-block 0 has levels of one coefficient. -/
theorem dcBlockBins : Obligations.DcBlockBins := by
  intro l2 scan pl ll v s hs hmax hgt1 hsbh h2 hcfg h5 hpl hscan hv h0 hz inc
  have hgeo := badGeometry_eq_false.2 ⟨h2, hcfg, h5, hpl, hscan⟩
  have hok := s.block_ok ll hgeo
  have hdc : (s.block l2 pl scan ll).coefAt 0 = v := by
    rw [State.block_coefAt, hok.pos_zero]
    simpa using h0
  have hzero : ∀ p < 4 ^ l2, p ≠ 0 → (s.block l2 pl scan ll).coefAt p = 0 := fun p hp hp0 =>
    State.block_coefAt_eq_zero (hz _ (hok.entry_lt p) (hok.entry_ne_zero hp hp0))
  have hlast : (s.block l2 pl scan ll).last? = some 0 := Block.last?_eq_zero (hdc ▸ hv) hzero
  obtain ⟨l, hl, hbins⟩ := subBlockLevels_single (k := s.block l2 pl scan ll) hmax hgt1 hsbh (hdc ▸ hv)
    (riceAtSubBlock_zero _)
  refine exec_of_bins rfl hs ?_
  rw [binsOf_codeCoeff ll hgeo, Block.bins_of_last hlast, hok.pos_zero, hok.lastPosBins_zero]
  refine exceptMap_ok.2 ⟨l.1, Block.subBlocks_succ_ok.2 ⟨l, [], ?_, rfl, ?_⟩, ?_⟩
  · rw [Block.subBlockFlags_zero]
    exact hl
  · simp [Block.subBlockFlags_zero]
  · have hinc : lastCtx l2 pl 0 = inc := by simp [lastCtx, inc]
    rw [hbins, hdc]
    show _ = rb .lastX (lastCtx l2 pl 0) false :: rb .lastY (lastCtx l2 pl 0) false :: _
    rw [hinc]
    cases pl <;> simp [rb, Group.base, State.block]

end Sys2Proof.Machine
end

section
/-! PROOFS. The bins of a block read off its coefficients, with the contexts of its plane (43_residual.md R262 to R279). -/

namespace Sys2Proof.Machine

open Sys2Proof

variable {k : Block}

/-! ### The closed form -/

/-- The bins of a block are those read off its coefficients: at the start no sub-block has been coded (R262, R279). -/
theorem Block.ok.bins_eq (h : k.ok) {bins : List Bin} (hb : k.bins = .ok bins) : bins = k.residual.bins := by
  cases hl : k.last? with
  | none =>
    rw [Block.bins_of_no_last hl] at hb
    rw [Residual.bins, h.lastSub_none hl]
    exact (Except.ok.inj hb).symm
  | some p =>
    obtain ⟨hsub, -, hends⟩ := h.last_some hl
    have hpos : k.pos p = k.residual.pos (p / 16) ((k.residual.nonzero (p / 16)).headD 0) := by
      rw [hends, List.headD_cons, h.pos_eq]
    have hlt := h.pos_lt (p / 16) ((k.residual.nonzero (p / 16)).headD 0)
    rw [Block.bins_of_last hl, hpos] at hb
    obtain ⟨rest, hrest, rfl⟩ := exceptMap_ok.1 hb
    have hnone : (List.range (p / 16 + 1)).find? (fun j => decide (p / 16 + 1 ≤ j) && decide (k.residual.nonzero j ≠ [])) =
        none := by
      rw [List.find?_eq_none]
      intro j hj
      have := List.mem_range.1 hj
      simp
      omega
    have hc1 : k.residual.c1From (p / 16) (p / 16 + 1) = false := by rw [Residual.c1From, hnone]
    have hrice : k.residual.riceFrom (p / 16) (p / 16 + 1) = 0 := by
      rw [Residual.riceFrom, List.filter_eq_nil_iff.2 (by simp)]
      rfl
    rw [Residual.bins, hsub, lastPosBins_eq k hlt.1 hlt.2,
      h.subBlocks hends (le_refl _) (by simp [hc1]) (fun _ => hrice.symm) hrest]

/-! ### The contexts of the planes -/

/-- A bin of the residual coder: a regular one in the contexts of the plane, or a bypass one. -/
def Bin.inPlane (chroma : Bool) (x : Bin) : Prop := (∃ j b, x = .reg j b ∧ residualCtx chroma j = true) ∨ ∃ b, x = .ep b

@[simp] theorem Bin.ep_inPlane (chroma b : Bool) : (Bin.ep b).inPlane chroma := .inr ⟨b, rfl⟩

/-- A regular bin of the plane, by the ranges of its groups. -/
theorem Bin.reg_inPlane {chroma b : Bool} {j : Nat}
    (h : if chroma then (44 ≤ j ∧ j ≤ 45) ∨ (73 ≤ j ∧ j ≤ 87) ∨ (103 ≤ j ∧ j ≤ 105) ∨ (121 ≤ j ∧ j ≤ 123) ∨
        (140 ≤ j ∧ j ≤ 147) ∨ (152 ≤ j ∧ j ≤ 153)
      else (42 ≤ j ∧ j ≤ 43) ∨ (46 ≤ j ∧ j ≤ 72) ∨ (88 ≤ j ∧ j ≤ 102) ∨ (106 ≤ j ∧ j ≤ 120) ∨ (124 ≤ j ∧ j ≤ 139) ∨
        (148 ≤ j ∧ j ≤ 151)) : (Bin.reg j b).inPlane chroma := by
  refine .inl ⟨j, b, rfl, ?_⟩
  cases chroma <;> simpa [residualCtx, or_assoc] using h

/-- The plane decides the contexts of the last position (R266). -/
theorem lastCtx_range {l2 : Nat} {chroma : Bool} {j : Nat} (h2 : 2 ≤ l2) (h5 : l2 ≤ 5) (hpl : chroma = true → l2 ≤ 4)
    (hj : j < 2 * l2 - 1) :
    if chroma then 15 ≤ lastCtx l2 chroma j ∧ lastCtx l2 chroma j ≤ 17 else lastCtx l2 chroma j ≤ 14 := by
  cases chroma with
  | false => interval_cases l2 <;> simp [lastCtx] <;> omega
  | true =>
    have h4 := hpl rfl
    interval_cases l2 <;> simp [lastCtx] <;> omega

/-- A group index code has at most cMax bins. -/
theorem binTU_length_le {s cMax : Nat} (h : s ≤ cMax) : (binTU s cMax).length ≤ cMax := by
  unfold binTU
  split <;> simp <;> omega

theorem lastPrefix_inPlane {g : Group} (hg : g = .lastX ∨ g = .lastY) {l2 v : Nat} {chroma : Bool} (h2 : 2 ≤ l2)
    (h5 : l2 ≤ 5) (hpl : chroma = true → l2 ≤ 4) (hv : v < 2 ^ l2) : ∀ x ∈ lastPrefix g l2 chroma v, x.inPlane chroma := by
  intro x hx
  obtain ⟨⟨b, j⟩, hp, rfl⟩ := List.mem_map.1 hx
  have hlen := binTU_length_le (groupIdx_le_cMax h2 h5 hv)
  have hj := (List.mem_zipIdx hp).2.1
  have hctx := lastCtx_range (chroma := chroma) (j := j) h2 h5 hpl (by omega)
  have hbase : g.base = 88 ∨ g.base = 106 := hg.imp (congrArg Group.base) (congrArg Group.base)
  refine Bin.reg_inPlane ?_
  cases chroma <;> simp only [Bool.false_eq_true, if_true, if_false] at hctx ⊢ <;> omega

theorem lastSuffix_inPlane (chroma : Bool) (v : Nat) : ∀ x ∈ lastSuffix v, x.inPlane chroma := by
  intro x hx
  unfold lastSuffix epBins epAll at hx
  split at hx
  · obtain ⟨b, -, rfl⟩ := List.mem_map.1 hx
    exact Bin.ep_inPlane chroma b
  · cases hx

/-- The plane decides the contexts of the significance flags (R270). -/
theorem Block.sigCtx_range (k : Block) (prev x y : Nat) :
    if k.chroma then 27 ≤ k.sigCtx prev x y ∧ k.sigCtx prev x y ≤ 41 else k.sigCtx prev x y ≤ 26 := by
  have h1 := patternCtx_le prev (x % 4) (y % 4)
  have h2 := ctxIdxMap_le (4 * y + x)
  unfold Block.sigCtx sigCtxInPlane
  cases k.chroma <;> simp only [Bool.false_eq_true, if_true, if_false] <;> split_ifs <;> omega

/-- The plane decides the context sets of the levels (R272, R279). -/
theorem Block.ctxSet_le (k : Block) (last i : Nat) : k.residual.ctxSet last i ≤ if k.chroma then 1 else 3 := by
  rw [k.ctxSet_eq (c1 := (!k.residual.c1From last (i + 1)).toNat) (by simp)]
  exact ctxSetOf_le _ _ _

theorem Block.ok.flagBins_inPlane (h : k.ok) (last i : Nat) : ∀ x ∈ k.residual.flagBins last i, x.inPlane k.chroma := by
  intro x hx
  unfold Residual.flagBins at hx
  rcases List.mem_append.1 hx with hx | hx
  · split at hx
    · rw [List.mem_singleton] at hx
      rw [hx]
      refine Bin.reg_inPlane ?_
      rw [show k.residual.chroma = k.chroma from rfl]
      cases k.chroma <;> simp only [Bool.false_eq_true, if_true, if_false] <;> split <;> omega
    · cases hx
  · obtain ⟨n, -, rfl⟩ := List.mem_map.1 hx
    have hctx := k.sigCtx_range (k.prevCsbf (k.residual.sub i).1 (k.residual.sub i).2) (k.residual.pos i n).1
      (k.residual.pos i n).2
    rw [h.sigCtx] at hctx
    refine Bin.reg_inPlane ?_
    cases hpl : k.chroma <;> simp only [hpl, Bool.false_eq_true, if_true, if_false] at hctx ⊢ <;> omega

theorem Block.levelBins_inPlane (k : Block) (last i : Nat) : ∀ x ∈ k.residual.levelBins last i, x.inPlane k.chroma := by
  intro x hx
  have hset := k.ctxSet_le last i
  unfold Residual.levelBins at hx
  simp only [List.flatten_cons, List.flatten_nil, List.append_nil, List.mem_append, List.mem_map, List.mem_flatMap,
    show k.residual.chroma = k.chroma from rfl] at hx
  rcases hx with ⟨p, -, rfl⟩ | ⟨a, -, rfl⟩ | ⟨b, -, rfl⟩ | ⟨p, -, b, -, rfl⟩
  · refine Bin.reg_inPlane ?_
    cases hpl : k.chroma <;> simp only [hpl, Bool.false_eq_true, if_true, if_false] at hset ⊢ <;> split <;> omega
  · refine Bin.reg_inPlane ?_
    cases hpl : k.chroma <;> simp only [hpl, Bool.false_eq_true, if_true, if_false] at hset ⊢ <;> omega
  · exact Bin.ep_inPlane _ _
  · exact Bin.ep_inPlane _ _

theorem Block.ok.lastPosBins_inPlane (h : k.ok) (hpl : k.chroma = true → k.l2 ≤ 4) {x y : Nat} (hx : x < 2 ^ k.l2)
    (hy : y < 2 ^ k.l2) : ∀ b ∈ k.lastPosBins x y, b.inPlane k.chroma := by
  have hX := fun {v} => lastPrefix_inPlane (g := .lastX) (v := v) (.inl rfl) h.two h.five hpl
  have hY := fun {v} => lastPrefix_inPlane (g := .lastY) (v := v) (.inr rfl) h.two h.five hpl
  intro b hb
  unfold Block.lastPosBins at hb
  simp only [List.mem_append] at hb
  rcases hb with ((hb | hb) | hb) | hb
  · exact hX (by split <;> assumption) b hb
  · exact hY (by split <;> assumption) b hb
  · exact lastSuffix_inPlane _ _ b hb
  · exact lastSuffix_inPlane _ _ b hb

/-- Every bin of a block lies in its plane (R266, R268, R270, R273, R274). -/
theorem Block.ok.bins_inPlane (h : k.ok) (hpl : k.chroma = true → k.l2 ≤ 4) : ∀ x ∈ k.residual.bins, x.inPlane k.chroma := by
  intro x hx
  unfold Residual.bins at hx
  split at hx
  · cases hx
  · rename_i last _
    have hpos := h.pos_lt last ((k.residual.nonzero last).headD 0)
    have hlt := h.residual_pos_lt last ((k.residual.nonzero last).headD 0)
    dsimp only at hx
    rw [← lastPosBins_eq k hpos.1 hpos.2] at hx
    rcases List.mem_append.1 hx with hx | hx
    · exact h.lastPosBins_inPlane hpl hlt.1 hlt.2 x hx
    · obtain ⟨i, -, hx⟩ := List.mem_flatMap.1 hx
      rcases List.mem_append.1 hx with hx | hx
      · exact h.flagBins_inPlane last i x hx
      · split at hx
        · cases hx
        · exact k.levelBins_inPlane last i x hx

/-- Settles O52: the closed form of every part of the coder, and the contexts of its parts. -/
theorem residualContextsByPlane : Obligations.ResidualContextsByPlane := by
  intro l2 scan pl ll s bins h2 h5 hpl hscan hbins
  have hok : (s.block l2 pl scan ll).ok := ⟨h2, h5, hscan⟩
  have heq := hok.bins_eq hbins
  refine ⟨heq, fun x hx => ?_⟩
  rw [heq] at hx
  exact hok.bins_inPlane hpl x hx

end Sys2Proof.Machine
end

section
/-! PROOFS. The rate estimator (44_rate_estimator.md R310 to R314): when its tables are fresh, and what they hold. -/

namespace Sys2Proof.Machine

open Sys2Proof

/-! ### Fresh tables (R313, R314) -/

/-- While EST_VALID is 0 nothing is claimed of the tables. -/
theorem State.EstInv.of_not_estValid {s : State} (h : s.estValid = false) : s.EstInv where
  fresh := fun hv => nomatch h.symm.trans hv
  computed := fun hv => nomatch h.symm.trans hv

section
variable {s : State} (hs : s.EstInv)
include hs

theorem State.EstInv.withPending (rest : List HostInput) : (s.withPending rest).EstInv := { hs with }

theorem State.EstInv.complete : s.complete.EstInv := { hs with }

theorem State.EstInv.takeFault (op : Nat) (c : Cause) : (s.takeFault op c).EstInv := { hs with }

theorem State.EstInv.emit (es : List BinEvent) : (s.emit es).EstInv := { hs with }

theorem State.EstInv.setSlot (k : Nat) (bank : List Ctx) : (s.setSlot k bank).EstInv := { hs with }

/-- A regular bin clears EST_VALID; the other bins leave the bank that the tables were computed from. -/
theorem State.EstInv.code (bins : List Bin) : (s.code bins).EstInv := by
  cases hreg : bins.any Bin.isReg with
  | true => exact .of_not_estValid (by simp [estValidAfter, hreg])
  | false =>
    have hctx := codeBins_of_no_reg hreg s.ctx
    constructor
    · simpa [estValidAfter, hreg, hctx] using hs.fresh
    · simpa [estValidAfter, hreg] using hs.computed

/-- A commit writes the bank and clears EST_VALID, or computes the tables from the bank, or writes neither. -/
theorem State.EstInv.commit {i : Instr} {u : State} (h : Commits i s u) : u.EstInv := by
  cases h with
  | bins => exact hs.code _
  | resetEntropy | update | load | loadPartial => exact .of_not_estValid rfl
  | endSegment => exact (hs.code _).emit _
  | store => exact (hs.setSlot _ _).emit _
  | snapWrite => exact hs.setSlot _ _
  | determineI | determine | setConfig | coefWrite => exact { hs with }
  | estRates hv hb => exact ⟨fun _ => ⟨_, _, hb, rfl⟩, fun _ => ⟨rfl, hv⟩⟩

end

/-- Settles O55: every operation of a step keeps the tables fresh or EST_VALID at 0. -/
theorem stepKeepsEstimatorFresh : Obligations.StepKeepsEstimatorFresh := fun _ _ hs h =>
  step_keeps h hs (fun rest hs => hs.withPending rest) (fun _ => .of_not_estValid rfl) State.EstInv.complete
    (fun hs _ hc => hs.commit hc) (fun hs _ _ => hs.takeFault _ _)

/-! ### Commands that commit (60_exceptions.md R331, R334, R335) -/

theorem eq_resetEntropy_of_opcodeOf {i : Instr} (h : opcodeOf i = 0x01) : ∃ st qp r, i = .resetEntropy st qp r := by
  cases i with
  | resetEntropy => exact ⟨_, _, _, rfl⟩
  | _ => simp [opcodeOf] at h

section
variable {i : Instr} {s t u : State}

/-- A block that commits a command is not faulted afterwards: a faulted block takes RESET_ENTROPY only. -/
theorem Commits.not_faulted (h : Commits i s u) (hr : s.rejects (opcodeOf i) = false) : u.faulted = false := by
  rcases h.faulted with hu | ⟨hu, -⟩
  · cases hs : s.faulted with
    | false => exact hu.trans hs
    | true =>
      obtain ⟨st, qp, r, rfl⟩ := eq_resetEntropy_of_opcodeOf (by simpa [State.rejects, hs] using hr : _ ∧ _).2
      cases h with
      | bins hi => cases hi
      | resetEntropy => rfl
  · exact hu

/-- A command commits where the capacity check passed and the block is not faulted afterwards. -/
theorem exec_commits (h : exec i s = .next t) (hc : s.fault.cause ≠ .capacity) (hf : t.faulted = false) :
    ∃ u, Commits i s u ∧ t = u.complete := by
  rcases exec_cases h with ⟨hr, rfl⟩ | ⟨-, u, hu, rfl⟩ | ⟨-, c, -, rfl⟩
  · have hs : s.faulted = true := (rejects_iff.1 hr).elim (absurd · hc) And.left
    exact nomatch hs.symm.trans hf
  · exact ⟨u, commits_of_effectOf hu, rfl⟩
  · cases hf

/-- A command that is rejected or faults leaves EST_VALID as it is (00_scope.md R11). -/
theorem exec_estValid_of_no_commit (h : exec i s = .next t) (hn : s.fault.cause = .capacity ∨ t.faulted = true) :
    t.estValid = s.estValid := by
  rcases exec_cases h with ⟨-, rfl⟩ | ⟨hr, u, hu, rfl⟩ | ⟨-, c, -, rfl⟩
  · rfl
  · rcases hn with hcap | hf
    · simp [State.rejects, hcap] at hr
    · exact nomatch ((commits_of_effectOf hu).not_faulted hr).symm.trans hf
  · rfl

/-! ### EST_VALID after a commit (R314) -/

/-- The four commands that write the bank whatever their operands are (R314). -/
def WritesBank (i : Instr) : Prop :=
  (∃ st qp r, i = .resetEntropy st qp r) ∨ (∃ st qp r f, i = .updateContextTables st qp r f) ∨
    (∃ k, i = .load k) ∨ ∃ k g, i = .loadPartial k g

theorem Commits.estValid_of_writesBank (h : Commits i s u) (hw : WritesBank i) : u.estValid = false := by
  rcases hw with ⟨st, qp, r, rfl⟩ | ⟨st, qp, r, f, rfl⟩ | ⟨k, rfl⟩ | ⟨k, g, rfl⟩ <;> cases h with
  | bins hi => cases hi
  | _ => rfl

theorem Commits.estValid_of_estRates {l2 : Nat} {pl : Bool} (h : Commits (.estRates l2 pl) s u) : u.estValid = true := by
  cases h with
  | bins hi => cases hi
  | estRates => rfl

/-- Every other command clears EST_VALID exactly when it emits a REG event. -/
theorem Commits.estValid_of_events {es : List BinEvent} (h : Commits i s u) (hw : ¬ WritesBank i)
    (he : ∀ l2 pl, i ≠ .estRates l2 pl) (hes : u.bin = s.bin ++ es) :
    u.estValid = (s.estValid && !es.any BinEvent.isReg) := by
  cases h with
  | bins =>
    obtain rfl := List.append_cancel_left hes
    rw [codeBins_any_isReg]
    rfl
  | endSegment =>
    obtain rfl := List.append_cancel_left ((List.append_assoc _ _ _).symm.trans hes)
    rfl
  | store =>
    obtain rfl := List.append_cancel_left hes
    exact (Bool.and_true _).symm
  | determineI | determine | setConfig | snapWrite | coefWrite =>
    obtain rfl := List.self_eq_append_right.1 hes
    exact (Bool.and_true _).symm
  | resetEntropy => exact absurd (.inl ⟨_, _, _, rfl⟩) hw
  | update => exact absurd (.inr (.inl ⟨_, _, _, _, rfl⟩)) hw
  | load => exact absurd (.inr (.inr (.inl ⟨_, rfl⟩))) hw
  | loadPartial => exact absurd (.inr (.inr (.inr ⟨_, _, rfl⟩))) hw
  | estRates => exact absurd rfl (he _ _)

end

/-- Settles O54: a command that does not commit leaves EST_VALID; a commit moves it by the kind of its command. -/
theorem estValidFollowsTheBank : Obligations.EstValidFollowsTheBank := by
  refine ⟨rfl, fun i s t es h hes => ⟨exec_estValid_of_no_commit h, fun hcap hf => ?_⟩⟩
  obtain ⟨u, hu, rfl⟩ := exec_commits h hcap hf
  refine ⟨?_, hu.estValid_of_writesBank, fun hw he => hu.estValid_of_events hw he hes⟩
  rintro l2 pl rfl
  exact hu.estValid_of_estRates

/-! ### The tables (R311, R312) -/

/-- The cost of prefix bin `j` of a last position, in its context of the group (R312; 43_residual.md R266). -/
def lastBinCost (b : Build) (bank : List Ctx) (g : Group) (l2 : Nat) (chroma : Bool) (j : Nat) (v : Bool) : Nat :=
  entropyBits b (ctxAt bank (g.base + lastCtx l2 chroma j)) v

/-- The cost of `n` ones from prefix bin `j` on and, where fewer than `left` bins are ones, of the zero that ends them. -/
def unaryCost (b : Build) (bank : List Ctx) (g : Group) (l2 : Nat) (chroma : Bool) (left j n : Nat) : Nat :=
  ((List.range n).map fun k => lastBinCost b bank g l2 chroma (j + k) true).sum +
    if n < left then lastBinCost b bank g l2 chroma (j + n) false else 0

section
variable (b : Build) (bank : List Ctx) (g : Group) (l2 : Nat) (chroma : Bool)

/-- The string of a group index one higher has one more 1 in front. -/
theorem unaryCost_succ (left j n : Nat) : unaryCost b bank g l2 chroma (left + 1) j (n + 1) =
    lastBinCost b bank g l2 chroma j true + unaryCost b bank g l2 chroma left (j + 1) n := by
  have hj : ∀ k, j + 1 + k = j + (k + 1) := by omega
  simp [unaryCost, List.range_succ_eq_map, Function.comp_def, hj, Nat.add_assoc (lastBinCost ..)]

/-- The running sum of R312 holds, at each index, the cost of the ones before it and of the zero that ends them. -/
theorem lastCostFrom_getD (left j acc n : Nat) : (lastCostFrom b bank g l2 chroma left j acc).getD n 0 =
    if left < n then 0 else acc + unaryCost b bank g l2 chroma left j n := by
  induction left generalizing j acc n with
  | zero => cases n <;> simp [lastCostFrom, unaryCost]
  | succ left ih =>
    cases n with
    | zero => simp [lastCostFrom, unaryCost, lastBinCost]
    | succ n =>
      rw [unaryCost_succ, ← Nat.add_assoc]
      simpa [lastCostFrom, lastBinCost] using ih (j + 1) (acc + lastBinCost b bank g l2 chroma j true) n

theorem lastCost_eq : lastCost b bank g l2 chroma = (List.range 10).map fun n => BitVec.ofNat 32
    (if 2 * l2 - 1 < n then 0 else unaryCost b bank g l2 chroma (2 * l2 - 1) 0 n) := by
  simp only [lastCost, lastCostFrom_getD, Nat.zero_add]

end

/-- Settles O53: the command commits, and its two prefix tables are the unary costs; the tables of pairs are those of the
statement by definition. -/
theorem estRatesEffect : Obligations.EstRatesEffect := by
  intro l2 pl s hs h2 h5 hpl
  have hb : badBlockSize l2 pl = false := by
    rw [← Bool.not_eq_true, badBlockSize_iff]
    rintro (h | h | ⟨hc, h⟩)
    · omega
    · omega
    · exact absurd (hpl hc) (Nat.not_le.2 h)
  rw [exec_of_commits hs.1 (.estRates hs.2 hb), estimate, lastCost_eq, lastCost_eq]
  simp only [unaryCost, Nat.zero_add]
  rfl

end Sys2Proof.Machine
end

section
/-! PROOFS. Rejection, precise faults and recovery (60_exceptions.md R331 to R335). -/

namespace Sys2Proof.Machine

open Sys2Proof

/-! ### Rejection (R334) -/

theorem opcodeOf_of_decode {w : CmdWord} {i : Instr} (h : decode w = .ok i) : opcodeOf i = w.toNat / 2 ^ 56 := by
  rcases decode_cases w with ⟨-, he⟩ | ⟨-, j, hj, -, -, hrow⟩
  · exact nomatch he.symm.trans h
  · obtain ⟨-, rfl⟩ := row_ok.1 (hrow.symm.trans h)
    exact hj

/-- A word whose opcode the block rejects is rejected whether or not it decodes: no check of it is made. -/
theorem issue_of_rejects {w : CmdWord} {s : State} (h : s.rejects (w.toNat / 2 ^ 56) = true) :
    issue w s = .next s.afterRejection := by
  cases hd : decode w with
  | ok i =>
    rw [issue_of_decode hd, exec_eq_command]
    exact command_of_rejects (opcodeOf_of_decode hd ▸ h)
  | error e =>
    rw [issue, hd]
    exact command_of_rejects (opcodeByte_toNat w ▸ h)

/-- Settles O9: the opcode byte alone decides the rejection of the word at the port. -/
theorem faultedBlockRejects : Obligations.FaultedBlockRejects := fun _ _ _ hp h =>
  (step_of_command hp).trans (issue_of_rejects (rejects_iff.2 h.symm))

/-! ### Precise faults (R331, R332) -/

/-- Settles O10: a command that is taken commits or faults, and one that commits leaves FAULTED at 0. -/
theorem faultsArePrecise : Obligations.FaultsArePrecise := by
  intro i s t hc hf h ht
  have hr := rejects_eq_false hc hf
  rcases exec_cases h with ⟨hrej, -⟩ | ⟨-, u, hu, rfl⟩ | ⟨-, c, hcause, rfl⟩
  · exact nomatch hr.symm.trans hrej
  · exact nomatch ((commits_of_effectOf hu).not_faulted hr).symm.trans ht
  · obtain ⟨hnone, hcap⟩ := Cause.ofCommand_iff.1 (effectOf_error_ofCommand hcause)
    exact ⟨c, hnone, hcap, State.afterFault_eq s _ c⟩

/-! ### Recovery (R335) -/

/-- The one commit that changes FAULTED is that of RESET_ENTROPY with a slice type 0, 1 or 2. -/
theorem Commits.faulted_ne {i : Instr} {s u : State} (h : Commits i s u) (hne : u.faulted ≠ s.faulted) :
    ∃ st qp useRec, i = .resetEntropy st qp useRec ∧ st ≤ 2 ∧
      u = ((s.reinit st qp useRec).leaveFaulted).emit [.start] := by
  cases h with
  | resetEntropy hst => exact ⟨_, _, _, rfl, hst, rfl⟩
  | _ => exact absurd rfl hne

/-- Settles O11: a rejection and a fault leave FAULTED at 1, so a command that ends with 0 has committed. -/
theorem onlyResetEntropyRecovers : Obligations.OnlyResetEntropyRecovers := by
  intro i s t h hs ht
  rcases exec_cases h with ⟨-, rfl⟩ | ⟨-, u, hu, rfl⟩ | ⟨-, c, -, rfl⟩
  · exact nomatch hs.symm.trans ht
  · have hne : u.faulted ≠ s.faulted := fun he => nomatch (he.trans hs).symm.trans ht
    obtain ⟨st, qp, useRec, rfl, hst, rfl⟩ := (commits_of_effectOf hu).faulted_ne hne
    exact ⟨st, qp, useRec, rfl, hst, rfl, rfl, rfl, rfl, rfl⟩
  · cases ht

end Sys2Proof.Machine
end

section
/-! PROOFS. Hardware reset, the capacity check at its end, and that every step answers a next state
(70_reset_and_hazards.md R360 to R363, R373). -/

namespace Sys2Proof.Machine

open Sys2Proof

/-! ### Hardware reset at the port (R360, R362) -/

theorem step_of_hardwareReset {s : State} {rest : List HostInput} (h : s.pending = .hardwareReset :: rest) :
    step s = .next (s.withPending rest).hardwareReset := by
  simp only [step, takeInput, h]
  rfl

/-- Settles O14: the reset at the port starts from the same build and takes the rest of the port and the two lists along. -/
theorem hardwareReset : Obligations.HardwareReset := fun _ _ hp => step_of_hardwareReset hp

/-! ### Every step answers (R373) -/

/-- With an empty port the block is idle (60_exceptions.md R345; log 2). -/
theorem step_of_idle {s : State} (h : s.pending = []) : step s = .next s := by
  simp only [step, takeInput, h]

/-- Settles O7: each of the three things the port can hold is answered by a next state. -/
theorem blockNeverHalts : Obligations.BlockNeverHalts := by
  intro s
  cases hp : s.pending with
  | nil => exact ⟨s, step_of_idle hp⟩
  | cons input rest =>
    cases input with
    | command w => exact step_of_command hp ▸ issue_next w _
    | hardwareReset => exact ⟨_, step_of_hardwareReset hp⟩

/-! ### The capacity check (R363) -/

/-- After a hardware reset STATUS holds FAULTED and FAULT_STICKY where the capacity check failed, and nothing otherwise. -/
theorem State.resetOf_statusWord (b : Build) :
    (State.resetOf b).statusWord = if b.maxNumCtx < b.numCtx then 6 else 0 := by
  by_cases h : b.maxNumCtx < b.numCtx <;> simp [State.statusWord, bitIn, h]

/-- After a hardware reset FAULT holds CAPACITY and opcode 0 where the capacity check failed, and nothing otherwise. -/
theorem State.resetOf_faultWord (b : Build) :
    (State.resetOf b).fault.word = if b.maxNumCtx < b.numCtx then 0x0B else 0 := by
  by_cases h : b.maxNumCtx < b.numCtx <;> simp [FaultReg.word, Cause.code, h]

theorem State.resetOf_cause_of_lt {b : Build} (h : b.maxNumCtx < b.numCtx) :
    (State.resetOf b).fault.cause = .capacity := by
  simp [h]

/-- Settles O13: the check decides what STATUS and FAULT read, and the cause CAPACITY is one that rejects every word. -/
theorem capacityCheck : Obligations.CapacityCheck := by
  refine fun b => ⟨fun h => ⟨?_, ?_, fun w rest => ?_⟩, fun h => ⟨?_, ?_⟩⟩
  · exact (State.resetOf_statusWord b).trans (if_pos h)
  · exact (State.resetOf_faultWord b).trans (if_pos h)
  · exact faultedBlockRejects _ w rest rfl (.inr (State.resetOf_cause_of_lt h))
  · exact (State.resetOf_statusWord b).trans (if_neg (Nat.not_lt.2 h))
  · exact (State.resetOf_faultWord b).trans (if_neg (Nat.not_lt.2 h))

end Sys2Proof.Machine
end
